-- ==== Sys2Proof/Word.lean ====
section
/-! DEFINITION. The word types of the NWaves Transform Engine (R10, R21: every register and the command word are 32 bits wide;
R60: DMEM is addressed by bytes). -/

namespace Sys2Proof

/-- A register, and the command word (R10). -/
abbrev Word := BitVec 32

/-- The smallest addressable unit of DMEM (R60). -/
abbrev Byte := BitVec 8

end Sys2Proof
end

