-- ==== Sys2Proof/Config.lean ====
section
/-! DEFINITION. What an implementation of the engine fixes (the parameters of R9) and what the spec leaves open (the free
values). The parameters are an argument of the machine: `State.params` holds them, so that every statement is about every legal
choice of them, and the reset state of `State.reset` has the defaults. A free value is a constant with no body. -/

namespace Sys2Proof

/-- The implementation parameters of R9. -/
structure Params where
  /-- `LOG2_NMAX`: log2 of the largest transform size. -/
  log2Nmax  : Nat
  /-- `NCTX`: the number of context slots. -/
  nctx      : Nat
  /-- `DMEM_BYTES`: the size of the local data memory. -/
  dmemBytes : Nat
  deriving DecidableEq, Repr

/-- `NMAX = 2^LOG2_NMAX` (R9). -/
def Params.nmax (q : Params) : Nat := 2 ^ q.log2Nmax

/-- The default values of R9. -/
def Params.default : Params := { log2Nmax := 12, nctx := 4, dmemBytes := 0x40000 }

/-- The legal ranges of R9. -/
abbrev Params.Legal (q : Params) : Prop :=
  1 ≤ q.log2Nmax ∧ q.log2Nmax ≤ 20 ∧ 1 ≤ q.nctx ∧ q.nctx ≤ 16 ∧
    q.dmemBytes % 8 = 0 ∧ 64 ≤ q.dmemBytes ∧ q.dmemBytes ≤ 16777216

/-- FREE VALUE. The byte that the `t`-th draw returns when a DMEM byte is read that nothing has written since reset: R74 lets
each read return an arbitrary value, and two reads of one byte different values. (Log entry 1.) -/
opaque Config.freeByte : Nat → Byte

/-- FREE VALUE. The number of host steps that the engine lets pass before it completes the command accepted at draw `t`: R286
leaves the latency open, but every accepted command completes (R245). (Log entry 2.) -/
opaque Config.freeLatency : Nat → Nat

end Sys2Proof
end

