-- ==== Sys2Proof/Syntax.lean ====
section
/-! DEFINITION. The fifteen commands of the engine (R94): one constructor per row of spec/opcode_table.json. -/

namespace Sys2Proof

/-- The two precisions (R2, R92): `F32` is binary32 and `F64` is binary64. -/
inductive Prec where
  | f32
  | f64
  deriving DecidableEq, Repr

/-- A command (R94). `ctx` is the context slot index of R91, `prec` the precision of R92; FFT_SHIFT uses no context (R91). -/
inductive Instr where
  | cfgFft   (ctx : Nat) (prec : Prec)
  | cfgRfft  (ctx : Nat) (prec : Prec)
  | cfgGz    (ctx : Nat) (prec : Prec)
  | cfgDht   (ctx : Nat) (prec : Prec)
  | fftDir   (ctx : Nat) (prec : Prec)
  | fftInv   (ctx : Nat) (prec : Prec)
  | fftInvn  (ctx : Nat) (prec : Prec)
  | fftShift (prec : Prec)
  | rfftDir  (ctx : Nat) (prec : Prec)
  | rfftDirc (ctx : Nat) (prec : Prec)
  | rfftInv  (ctx : Nat) (prec : Prec)
  | rfftInvn (ctx : Nat) (prec : Prec)
  | gzDir    (ctx : Nat) (prec : Prec)
  | dhtDir   (ctx : Nat) (prec : Prec)
  | dhtInvn  (ctx : Nat) (prec : Prec)
  deriving DecidableEq, Repr

/-- The mnemonic of the opcode table (R94). -/
def Instr.mnemonic : Instr → String
  | .cfgFft _ _   => "CFG_FFT"
  | .cfgRfft _ _  => "CFG_RFFT"
  | .cfgGz _ _    => "CFG_GZ"
  | .cfgDht _ _   => "CFG_DHT"
  | .fftDir _ _   => "FFT_DIR"
  | .fftInv _ _   => "FFT_INV"
  | .fftInvn _ _  => "FFT_INVN"
  | .fftShift _   => "FFT_SHIFT"
  | .rfftDir _ _  => "RFFT_DIR"
  | .rfftDirc _ _ => "RFFT_DIRC"
  | .rfftInv _ _  => "RFFT_INV"
  | .rfftInvn _ _ => "RFFT_INVN"
  | .gzDir _ _    => "GZ_DIR"
  | .dhtDir _ _   => "DHT_DIR"
  | .dhtInvn _ _  => "DHT_INVN"

/-- The context slot a command names; FFT_SHIFT names none, and its CTX field is 0 (R91). -/
def Instr.ctx : Instr → Nat
  | .cfgFft c _ | .cfgRfft c _ | .cfgGz c _ | .cfgDht c _ | .fftDir c _ | .fftInv c _ | .fftInvn c _ => c
  | .fftShift _ => 0
  | .rfftDir c _ | .rfftDirc c _ | .rfftInv c _ | .rfftInvn c _ | .gzDir c _ | .dhtDir c _ | .dhtInvn c _ => c

/-- The precision a command carries (R92). -/
def Instr.prec : Instr → Prec
  | .cfgFft _ p | .cfgRfft _ p | .cfgGz _ p | .cfgDht _ p | .fftDir _ p | .fftInv _ p | .fftInvn _ p => p
  | .fftShift p => p
  | .rfftDir _ p | .rfftDirc _ p | .rfftInv _ p | .rfftInvn _ p | .gzDir _ p | .dhtDir _ p | .dhtInvn _ p => p

end Sys2Proof
end

