-- ==== Sys2Proof/WellFormed.lean ====
section
/-! DEFINITION. Which commands the encoding can spell (R90, R91, R100). -/

namespace Sys2Proof

/-- A command is well formed when its context index fits the four-bit CTX field: R91 gives 0 to 15, and the assembler of R100
"rejects a context index above 15". A slot index from NCTX to 15 is well formed (R91: it fails with CTX_RANGE when it runs). -/
abbrev Instr.WellFormed (i : Instr) : Prop := i.ctx < 16

end Sys2Proof
end

