-- ==== Sys2Proof/Decode.lean ====
section
/-! DEFINITION. The command decoder (R90 to R98) and, after it, the encoder (R99). -/

namespace Sys2Proof

/-- Why a word, or a string of bytes, spells no command. Safe: the engine reports each of the four reserved forms as ILLEGAL
(R97); `truncated` is met only where fewer than four bytes are given, which no CMD write does (R98). -/
inductive DecodeError where
  /-- Fewer than four bytes. -/
  | truncated
  /-- Bits 7..5 are not 0 (R90). -/
  | rsv0NotZero
  /-- Bits 31..13 are not 0 (R90). -/
  | rsv1NotZero
  /-- OP is 0x00 or 0x10 to 0x1F (R94). -/
  | reservedOp (op : Nat)
  /-- FFT_SHIFT with a CTX other than 0 (R91). -/
  | shiftCtxNotZero
  deriving DecidableEq, Repr

/-- OP, bits 4..0 (R90). -/
def opField (w : Word) : Nat := w.toNat % 32

/-- RSV0, bits 7..5 (R90). -/
def rsv0Field (w : Word) : Nat := w.toNat / 32 % 8

/-- CTX, bits 11..8, an unsigned slot index (R91). -/
def ctxField (w : Word) : Nat := w.toNat / 256 % 16

/-- PREC, bit 12: 0 selects F32 and 1 selects F64 (R92). -/
def precField (w : Word) : Prec := if w.toNat / 4096 % 2 = 0 then .f32 else .f64

/-- RSV1, bits 31..13 (R90). -/
def rsv1Field (w : Word) : Nat := w.toNat / 8192

/-- Decoding one command word by the opcode map of R94; every reserved form is rejected by name (R97). -/
def decodeWord (w : Word) : Except DecodeError Instr :=
  if rsv0Field w ≠ 0 then .error .rsv0NotZero
  else if rsv1Field w ≠ 0 then .error .rsv1NotZero
  else
    match opField w with
    | 0x01 => .ok (.cfgFft (ctxField w) (precField w))
    | 0x02 => .ok (.cfgRfft (ctxField w) (precField w))
    | 0x03 => .ok (.cfgGz (ctxField w) (precField w))
    | 0x04 => .ok (.cfgDht (ctxField w) (precField w))
    | 0x05 => .ok (.fftDir (ctxField w) (precField w))
    | 0x06 => .ok (.fftInv (ctxField w) (precField w))
    | 0x07 => .ok (.fftInvn (ctxField w) (precField w))
    | 0x08 => if ctxField w = 0 then .ok (.fftShift (precField w)) else .error .shiftCtxNotZero
    | 0x09 => .ok (.rfftDir (ctxField w) (precField w))
    | 0x0A => .ok (.rfftDirc (ctxField w) (precField w))
    | 0x0B => .ok (.rfftInv (ctxField w) (precField w))
    | 0x0C => .ok (.rfftInvn (ctxField w) (precField w))
    | 0x0D => .ok (.gzDir (ctxField w) (precField w))
    | 0x0E => .ok (.dhtDir (ctxField w) (precField w))
    | 0x0F => .ok (.dhtInvn (ctxField w) (precField w))
    | op   => .error (.reservedOp op)

/-- The 32-bit value of four bytes, the first the least significant (R62: little-endian). -/
def wordOfBytes (b0 b1 b2 b3 : Byte) : Word :=
  BitVec.ofNat 32 (b0.toNat + 256 * b1.toNat + 65536 * b2.toNat + 16777216 * b3.toNat)

/-- Decoding at the front of a string of bytes: the command and the bytes after it. Every command is one word (R98). -/
def decode : List Byte → Except DecodeError (Instr × List Byte)
  | b0 :: b1 :: b2 :: b3 :: rest =>
    match decodeWord (wordOfBytes b0 b1 b2 b3) with
    | .ok i    => .ok (i, rest)
    | .error e => .error e
  | _ => .error .truncated

/-- The legal words, in R97's own words. -/
abbrev LegalWord (w : Word) : Prop :=
  rsv0Field w = 0 ∧ rsv1Field w = 0 ∧ 1 ≤ opField w ∧ opField w ≤ 15 ∧ (opField w ≠ 8 ∨ ctxField w = 0)

/-- The operation code of a command (R94). -/
def Instr.op : Instr → Nat
  | .cfgFft _ _   => 0x01
  | .cfgRfft _ _  => 0x02
  | .cfgGz _ _    => 0x03
  | .cfgDht _ _   => 0x04
  | .fftDir _ _   => 0x05
  | .fftInv _ _   => 0x06
  | .fftInvn _ _  => 0x07
  | .fftShift _   => 0x08
  | .rfftDir _ _  => 0x09
  | .rfftDirc _ _ => 0x0A
  | .rfftInv _ _  => 0x0B
  | .rfftInvn _ _ => 0x0C
  | .gzDir _ _    => 0x0D
  | .dhtDir _ _   => 0x0E
  | .dhtInvn _ _  => 0x0F

/-- The PREC bit (R92). -/
def Prec.bit : Prec → Nat
  | .f32 => 0
  | .f64 => 1

/-- The command word, by the arithmetic of R99: OP, CTX shifted by 8, PREC shifted by 12. -/
def encode (i : Instr) : Word := BitVec.ofNat 32 (i.op + i.ctx * 256 + i.prec.bit * 4096)

/-- The four bytes of a word as they lie in memory, the least significant first (R62). -/
def bytesOfWord (w : Word) : List Byte :=
  [BitVec.ofNat 8 w.toNat, BitVec.ofNat 8 (w.toNat / 256), BitVec.ofNat 8 (w.toNat / 65536),
    BitVec.ofNat 8 (w.toNat / 16777216)]

/-- A row of the opcode table: a word `w` is of the row when `w &&& mask = pattern` (R95). -/
structure OpRow where
  mnemonic : String
  mask     : Word
  pattern  : Word
  deriving DecidableEq, Repr

/-- The opcode table of R94 with the match and mask of R95. -/
def opTable : List OpRow :=
  [⟨"CFG_FFT", 0xFFFFE0FF, 0x01⟩, ⟨"CFG_RFFT", 0xFFFFE0FF, 0x02⟩, ⟨"CFG_GZ", 0xFFFFE0FF, 0x03⟩,
    ⟨"CFG_DHT", 0xFFFFE0FF, 0x04⟩, ⟨"FFT_DIR", 0xFFFFE0FF, 0x05⟩, ⟨"FFT_INV", 0xFFFFE0FF, 0x06⟩,
    ⟨"FFT_INVN", 0xFFFFE0FF, 0x07⟩, ⟨"FFT_SHIFT", 0xFFFFEFFF, 0x08⟩] ++
  [⟨"RFFT_DIR", 0xFFFFE0FF, 0x09⟩, ⟨"RFFT_DIRC", 0xFFFFE0FF, 0x0A⟩, ⟨"RFFT_INV", 0xFFFFE0FF, 0x0B⟩,
    ⟨"RFFT_INVN", 0xFFFFE0FF, 0x0C⟩, ⟨"GZ_DIR", 0xFFFFE0FF, 0x0D⟩, ⟨"DHT_DIR", 0xFFFFE0FF, 0x0E⟩,
    ⟨"DHT_INVN", 0xFFFFE0FF, 0x0F⟩]

/-- The assembler of R100: the word of a command, refused when its context index is above 15. -/
def assemble (i : Instr) : Option Word := if i.WellFormed then some (encode i) else none

/-- The written form of a command (R100): mnemonic, the mandatory precision suffix, and the context but for FFT_SHIFT. -/
def Instr.asm (i : Instr) : String :=
  i.mnemonic ++ (match i.prec with | .f32 => ".F32" | .f64 => ".F64") ++
    (match i with | .fftShift _ => "" | j => " c" ++ toString j.ctx)

/-- The instruction the decoder reads from a table row's bits: the word laid out in memory as R62 says and decoded. -/
def decodeTableWord (nbits w : Nat) : Option Instr :=
  match decode (bytesOfWord (BitVec.ofNat 32 (w % 2 ^ nbits))) with
  | .ok (i, _) => some i
  | .error _   => none

end Sys2Proof
end

