-- ==== Sys2Proof/Machine/State.lean ====
section
/-! DEFINITION. The architectural state of the engine (R20), the host's pending bus transactions, the reasons a step can stop,
and the state after reset (R280). -/

namespace Sys2Proof.Machine

/-- The kind of a context slot (R30); `empty` is KIND = 0. The values 5 to 7 are never held. -/
inductive Kind where
  | empty
  | fft
  | rfft
  | gz
  | dht
  deriving DecidableEq, Repr

/-- One context slot (R30). -/
structure Slot where
  valid : Bool
  kind  : Kind
  prec  : Prec
  /-- N, the transform size. -/
  n     : Word
  deriving DecidableEq, Repr

/-- The reset value of every slot (R32). -/
def Slot.empty : Slot := { valid := false, kind := .empty, prec := .f32, n := 0 }

/-- The size of a slot as a number. -/
def Slot.size (x : Slot) : Nat := x.n.toNat

/-- A buffer descriptor: the registers Bk_BASE (a byte offset into DMEM) and Bk_LEN (a count of elements) (R29). -/
structure Desc where
  base : Word
  len  : Word
  deriving DecidableEq, Repr

/-- The registers that are locked while BUSY (R37): CMD, ARG0 and the four descriptors. They are also exactly what the engine
captures when it accepts a command (R36). -/
structure LockedRegs where
  cmd  : Word
  arg0 : Word
  b0   : Desc
  b1   : Desc
  b2   : Desc
  b3   : Desc
  deriving DecidableEq, Repr

/-- The error codes of R241; 0x0D to 0xFF are never produced. -/
inductive ErrCode where
  | ok
  | illegal
  | ctxRange
  | size
  | notConfigured
  | kind
  | prec
  | len
  | align
  | range
  | overlap
  | parity
  | bin
  deriving DecidableEq, Repr

/-- The stored fields of STATUS (R26). BUSY is not among them: it is 1 exactly when the engine is BUSY (R36). -/
structure Status where
  done    : Bool
  err     : Bool
  ovr     : Bool
  errCode : ErrCode
  errA    : BitVec 4
  errB    : BitVec 4
  deriving DecidableEq, Repr

/-- The Goertzel result registers (R35). -/
structure Results where
  reLo : Word
  reHi : Word
  imLo : Word
  imHi : Word
  deriving DecidableEq, Repr

/-- DMEM (R60) as the list of the bytes that have been written since reset, addresses strictly rising. An address the list does
not hold is unwritten (R74). -/
abbrev Memory := List Host.Cell

/-- The engine control state (R36): IDLE, or BUSY with the captured command. `hostSteps` is the model's own field: how many host
steps still pass before the completion step (R286; log entry 2). -/
inductive Engine where
  | idle
  | busy (captured : LockedRegs) (hostSteps : Nat)
  deriving DecidableEq, Repr

/-- A host bus transaction (R61): the block offset, the width in bytes and, for a write, the value. -/
inductive BusOp where
  | read  (offset width : Nat)
  | write (offset width : Nat) (value : BitVec 64)
  deriving DecidableEq, Repr

/-- What the outside world does to the block: a bus transaction; the host's `WAIT`, which reads STATUS until DONE is 1 (R102); an
assertion and release of the reset input (R280). -/
inductive HostEvent where
  | bus (op : BusOp)
  | wait
  | reset
  deriving DecidableEq, Repr

/-- The bus port's answer to a transaction: the value read (zero-extended), a write done, or a bus error (R250). -/
inductive BusAnswer where
  | value (v : BitVec 64)
  | written
  | busError
  deriving DecidableEq, Repr

/-- The architectural state (R20), and the model's own fields `host`, `answer` and `draws`. -/
structure State where
  /-- The implementation parameters (R9); no step changes them. -/
  params : Params
  /-- CTRL.IE (R25). -/
  ie     : Bool
  /-- The stored fields of STATUS (R26). -/
  status : Status
  /-- CMD, ARG0, B0_BASE to B3_LEN (R27 to R29). -/
  locked : LockedRegs
  /-- RES_RE_LO to RES_IM_HI (R35). -/
  res    : Results
  /-- The context file: NCTX slots (R30). -/
  ctxs   : List Slot
  /-- DMEM (R60). -/
  dmem   : Memory
  /-- The engine control state (R36). -/
  engine : Engine
  /-- The host transactions the block has yet to receive, in the order it receives them (R75). -/
  host   : List HostEvent
  /-- The answer to the last host transaction. -/
  answer : Option BusAnswer
  /-- The number of free values drawn so far (log entries 1 and 2). -/
  draws  : Nat
  deriving DecidableEq, Repr

/-- Why a step stops with a fault. Safe: no run from reset meets one. -/
inductive Fault where
  /-- Raised by the completion step (`runCommand`, `completionStep`) of a BUSY engine whose captured command is not the one
  asked for, spells no command, or does not pass its own checks. R244 says that every failure is found at acceptance, so the spec
  gives such a state no meaning and no machine is ever in it. -/
  | acceptanceBroken
  deriving DecidableEq, Repr

/-- Why an instruction is refused. -/
inductive Refusal where
  /-- Raised by an arm of `exec` whose instruction has no meaning yet. Safe. No arm of this model raises it. -/
  | notModelled (mnemonic : String)
  deriving DecidableEq, Repr

/-- Every stored STATUS field is 0 after reset (R280). -/
def Status.reset : Status :=
  { done := false, err := false, ovr := false, errCode := .ok, errA := 0, errB := 0 }

/-- CMD, ARG0 and the descriptors are 0 after reset (R280). -/
def LockedRegs.reset : LockedRegs :=
  { cmd := 0, arg0 := 0, b0 := ⟨0, 0⟩, b1 := ⟨0, 0⟩, b2 := ⟨0, 0⟩, b3 := ⟨0, 0⟩ }

/-- The state after reset of an engine with the parameters `q` (R280): every DMEM byte unwritten, no host transaction waiting. -/
def State.resetWith (q : Params) : State :=
  { params := q
    ie     := false
    status := .reset
    locked := .reset
    res    := ⟨0, 0, 0, 0⟩
    ctxs   := List.replicate q.nctx .empty
    dmem   := []
    engine := .idle
    host   := []
    answer := none
    draws  := 0 }

/-- The state after reset with the default parameters of R9. -/
def State.reset : State := .resetWith .default

end Sys2Proof.Machine
end

