-- ==== Sys2Proof/Machine/Flags.lean ====
section
/-! DEFINITION. The status flags (R26, R41): the value STATUS reads as, its write-one-to-clear write, how a command's start, its
failure and its completion set the flags, and the interrupt line (R38). -/

namespace Sys2Proof.Machine

/-- The code of an error as STATUS.ERRCODE shows it (R241). -/
def ErrCode.toNat : ErrCode → Nat
  | .ok            => 0x00
  | .illegal       => 0x01
  | .ctxRange      => 0x02
  | .size          => 0x03
  | .notConfigured => 0x04
  | .kind          => 0x05
  | .prec          => 0x06
  | .len           => 0x07
  | .align         => 0x08
  | .range         => 0x09
  | .overlap       => 0x0A
  | .parity        => 0x0B
  | .bin           => 0x0C

/-- A failed check: its code and the two buffer indices it concerns (R240, R242); an index that does not apply is 0. -/
structure CmdError where
  code : ErrCode
  a    : Fin 4
  b    : Fin 4
  deriving DecidableEq, Repr

/-- A one-bit field as a number. -/
def bit (b : Bool) : Nat := if b then 1 else 0

/-- BUSY (R36): 1 exactly when the engine is BUSY. -/
def Engine.isBusy : Engine → Bool
  | .idle     => false
  | .busy _ _ => true

/-- The 32-bit value STATUS reads as (R26); reserved bits read 0. -/
def Status.word (x : Status) (busy : Bool) : Word :=
  BitVec.ofNat 32 (bit busy + 2 * bit x.done + 4 * bit x.err + 8 * bit x.ovr + 256 * x.errCode.toNat +
    65536 * x.errA.toNat + 1048576 * x.errB.toNat)

/-- A write to STATUS (R26): each of DONE, ERR and OVR is cleared when its written bit is 1; everything else keeps its value.
This is also how a host returns from an error (R254). -/
def Status.write (x : Status) (v : Word) : Status :=
  { x with
    done := x.done && !v.getLsbD 1
    err  := x.err && !v.getLsbD 2
    ovr  := x.ovr && !v.getLsbD 3 }

/-- The start of a command clears DONE, ERR, ERRCODE, ERRA and ERRB and leaves OVR (R243). -/
def Status.start (x : Status) : Status :=
  { done := false, err := false, ovr := x.ovr, errCode := .ok, errA := 0, errB := 0 }

/-- Error completion: the code and indices are recorded, ERR and DONE are set (R240). -/
def Status.fail (x : Status) (e : CmdError) : Status :=
  { x with done := true, err := true, errCode := e.code, errA := BitVec.ofNat 4 e.a, errB := BitVec.ofNat 4 e.b }

/-- Completion of an accepted command sets DONE and leaves the rest (R244). -/
def Status.finish (x : Status) : Status := { x with done := true }

/-- A write to a locked register while BUSY sets OVR (R37). -/
def Status.overrun (x : Status) : Status := { x with ovr := true }

/-- The value STATUS reads as in a state. -/
def State.statusWord (s : State) : Word := s.status.word s.engine.isBusy

/-- The value CTRL reads as: IE in bit 0, the rest 0 (R25). -/
def State.ctrlWord (s : State) : Word := BitVec.ofNat 32 (bit s.ie)

/-- The interrupt line: `IRQ = CTRL.IE AND STATUS.DONE`, evaluated continuously, so a view of the state and no state of its own
(R38). -/
def State.irq (s : State) : Bool := s.ie && s.status.done

/-- The level at input `n` of the host's interrupt controller, when the platform parameter IRQ_LINE (R252, left open) is
`irqLine`: the block drives that one input and no other. -/
def State.irqInput (irqLine n : Nat) (s : State) : Bool := decide (n = irqLine) && s.irq

end Sys2Proof.Machine
end

