-- ==== Sys2Proof/Machine/Ops.lean ====
section
/-! DEFINITION. The named operations over the state: one update per field, the bytes of DMEM (R60, R62, R74), and the life of a
command: its start and its acceptance (R243), its failure (R240: the engine's one exception) and its completion (R244). -/

namespace Sys2Proof.Machine

/-! ### One update per field -/

def State.setIe (s : State) (x : Bool) : State := { s with ie := x }
def State.setStatus (s : State) (x : Status) : State := { s with status := x }
def State.setLocked (s : State) (x : LockedRegs) : State := { s with locked := x }
def State.setRes (s : State) (x : Results) : State := { s with res := x }
def State.setCtxs (s : State) (x : List Slot) : State := { s with ctxs := x }
def State.setDmem (s : State) (x : Memory) : State := { s with dmem := x }
def State.setEngine (s : State) (x : Engine) : State := { s with engine := x }
def State.setHost (s : State) (x : List HostEvent) : State := { s with host := x }
def State.setAnswer (s : State) (x : Option BusAnswer) : State := { s with answer := x }
def State.setDraws (s : State) (x : Nat) : State := { s with draws := x }

/-! ### The bytes of DMEM -/

/-- The byte at an address, if it has been written since reset (R74). -/
def Memory.byteAt? : Memory → Nat → Option Byte
  | [], _          => none
  | (k, b) :: m, a => if k = a then some b else Memory.byteAt? m a

/-- Writing one byte, in place in the rising order of addresses. -/
def Memory.put : Memory → Nat → Byte → Memory
  | [], a, b          => [(a, b)]
  | (k, c) :: m, a, b =>
    if a < k then (a, b) :: (k, c) :: m else if a = k then (a, b) :: m else (k, c) :: Memory.put m a b

/-- The canonical form: addresses strictly rising. (An unlisted address has no value of its own, so no entry can equal it.) -/
abbrev Memory.wf (m : Memory) : Prop := m.Pairwise (fun x y => x.1 < y.1)

/-- Every listed address lies in a DMEM of `size` bytes (R60). -/
abbrev Memory.within (m : Memory) (size : Nat) : Prop := ∀ x ∈ m, x.1 < size

/-- Reading the byte at an address, as the `t`-th draw: what an unwritten byte reads as is a free value, fresh on each read
(R74; log entry 1). -/
def Memory.read (m : Memory) (a t : Nat) : Byte :=
  match m.byteAt? a with
  | some b => b
  | none   => Config.freeByte t

/-- `MemRead(a, n)` of R13: `n` bytes from `a`, assembled little-endian (R62); byte `i` is draw `t + i`. -/
def Memory.load (m : Memory) : (n a t : Nat) → Nat
  | 0, _, _     => 0
  | n + 1, a, t => (m.read a t).toNat + 256 * Memory.load m n (a + 1) (t + 1)

/-- `MemWrite(a, n, v)` of R13: the low `n` bytes of `v` from `a` up, the least significant first (R62). -/
def Memory.store : Memory → (n a v : Nat) → Memory
  | m, 0, _, _     => m
  | m, n + 1, a, v => Memory.store (m.put a (BitVec.ofNat 8 v)) n (a + 1) (v / 256)

/-! ### The life of a command -/

/-- The start of a command (R243): CMD takes the word; DONE, ERR, ERRCODE, ERRA and ERRB are cleared. -/
def startCommand (w : Word) (s : State) : State :=
  (s.setLocked { s.locked with cmd := w }).setStatus s.status.start

/-- TAKING AN EXCEPTION: the error completion of R240. It writes STATUS and nothing else; there is no vector, no saved state
and no control transfer (R254). -/
def raiseError (e : CmdError) (s : State) : State := s.setStatus (s.status.fail e)

/-- RETURNING FROM IT (R254): the host clears DONE and ERR (and OVR) by a STATUS write; ERRCODE, ERRA and ERRB stay (R248). -/
def writeStatus (v : Word) (s : State) : State := s.setStatus (s.status.write v)

/-- Acceptance (R243): the engine is BUSY with the captured registers (R36). How many host steps pass before the completion is a
free value (R286; log entry 2). -/
def acceptCommand (s : State) : State :=
  (s.setEngine (.busy s.locked (Config.freeLatency s.draws))).setDraws (s.draws + 1)

/-- The CMD write of R243 when the engine is IDLE: the first failing check, if there is one, ends the command. -/
def issueCommand (w : Word) (err : Option CmdError) (s : State) : State :=
  match err with
  | some e => raiseError e (startCommand w s)
  | none   => acceptCommand (startCommand w s)

/-- Completion, after the command's own effect (R244): IDLE, BUSY 0, DONE 1; ERR and ERRCODE are left. -/
def finishCommand (s : State) : State := (s.setEngine .idle).setStatus s.status.finish

/-- THE LIFE OF A COMMAND whose word is `w`, in the two steps R243 and R244 give it. At an IDLE engine this is the host's write of
`w` to CMD: start, the command's checks over the registers as they stand, then failure or acceptance. At a BUSY engine that
captured `w` it is the completion step: the command's effect as a function of the captured registers, then IDLE and DONE. Any
other BUSY state is one no run reaches (`Fault.acceptanceBroken`). -/
def runCommand (w : Word) (check : LockedRegs → State → Option CmdError) (effect : LockedRegs → State → State) (s : State) :
    Host.Outcome State Fault Refusal :=
  match s.engine with
  | .idle         => .next (issueCommand w (check s.locked s) s)
  | .busy regs _  =>
    if regs.cmd = w ∧ check regs s = none then .next (finishCommand (effect regs s)) else .fault .acceptanceBroken

end Sys2Proof.Machine
end

