-- ==== Sys2Proof/Machine/Float.lean ====
section
/-! DEFINITION. The floating-point formats and primitives (R14, R124 to R129): binary32 and binary64 bit patterns, every
operation computed exactly on integers and rounded once, to nearest, ties to even.

A finite value of a format is an integer multiple of the format's smallest subnormal. `Real.mag` below is that integer, so
sums and products are exact in Nat and Int, and one function, `roundQ`, narrows an exact quotient to a pattern. -/

namespace Sys2Proof.Machine

/-- The number of fraction bits (R124). -/
def fracBits : Prec → Nat
  | .f32 => 23
  | .f64 => 52

/-- The number of exponent bits (R124). -/
def expBits : Prec → Nat
  | .f32 => 8
  | .f64 => 11

/-- The exponent bias (R124). -/
def bias : Prec → Nat
  | .f32 => 127
  | .f64 => 1023

/-- The width of a pattern in bits (R124). -/
abbrev fpWidth : Prec → Nat
  | .f32 => 32
  | .f64 => 64

/-- A floating-point value of a precision: its bit pattern (R124). -/
abbrev Fp (p : Prec) := BitVec (fpWidth p)

/-- The smallest subnormal of the format is `2^-unitExp`. -/
def unitExp (p : Prec) : Nat := bias p + fracBits p - 1

/-- The pattern of +∞ as a number: exponent all ones, fraction 0 (R124). -/
def infBits (p : Prec) : Nat := (2 ^ expBits p - 1) * 2 ^ fracBits p

/-- The weight of the sign bit (R124). -/
def signWeight (p : Prec) : Nat := 2 ^ (fpWidth p - 1)

/-- The canonical quiet NaN, sign 0 (R127). -/
def canonicalNaN (p : Prec) : Fp p := BitVec.ofNat _ (infBits p + 2 ^ (fracBits p - 1))

/-- A pattern from a sign and the number its other bits spell. -/
def withSign (p : Prec) (neg : Bool) (bits : Nat) : Fp p :=
  BitVec.ofNat _ ((if neg then signWeight p else 0) + bits)

/-- What a pattern stands for (R124). `fin neg mag` is the finite value `±mag · 2^-unitExp`, zeros and subnormals among them. -/
inductive FpClass where
  | nan
  | inf (neg : Bool)
  | fin (neg : Bool) (mag : Nat)
  deriving DecidableEq, Repr

/-- Reading a pattern (R124, R126: a subnormal is used at its exact value). -/
def classify {p : Prec} (v : Fp p) : FpClass :=
  let neg := decide (signWeight p ≤ v.toNat)
  let e := v.toNat / 2 ^ fracBits p % 2 ^ expBits p
  let f := v.toNat % 2 ^ fracBits p
  if e = 2 ^ expBits p - 1 then (if f = 0 then .inf neg else .nan)
  else if e = 0 then .fin neg f
  else .fin neg ((2 ^ fracBits p + f) * 2 ^ (e - 1))

/-- ROUNDING (R125): the exact non-negative value `num / den` smallest subnormals, rounded once to nearest, ties to even, with
gradual underflow (R126) and overflow to infinity. `e` is the exponent of the quantum at that size, `m` the significand before
rounding; a significand that rounds up to the next power of two carries into the exponent field by the sum. -/
def roundQ (p : Prec) (neg : Bool) (num den : Nat) : Fp p :=
  let whole := num / den
  let e := Nat.log2 whole - fracBits p
  let quantum := den * 2 ^ e
  let m := num / quantum
  let r := num % quantum
  let up := quantum < 2 * r ∨ (2 * r = quantum ∧ m % 2 = 1)
  let bits := e * 2 ^ fracBits p + (if up then m + 1 else m)
  withSign p neg (min bits (infBits p))

/-- `fneg` flips the sign bit and nothing else (R14, R127). -/
def fneg {p : Prec} (a : Fp p) : Fp p := a ^^^ BitVec.ofNat _ (signWeight p)

/-- The signed integer of a finite value, in smallest subnormals. -/
def signedMag (neg : Bool) (mag : Nat) : Int := if neg then -(mag : Int) else (mag : Int)

/-- `fadd` (R14, R125, R127, R128). An exact zero sum is -0 only when both operands are negative. -/
def fadd {p : Prec} (a b : Fp p) : Fp p :=
  match classify a, classify b with
  | .nan, _ => canonicalNaN p
  | _, .nan => canonicalNaN p
  | .inf na, .inf nb => if na = nb then withSign p na (infBits p) else canonicalNaN p
  | .inf na, .fin _ _ => withSign p na (infBits p)
  | .fin _ _, .inf nb => withSign p nb (infBits p)
  | .fin na ma, .fin nb mb =>
    let sum := signedMag na ma + signedMag nb mb
    if sum = 0 then withSign p (na && nb) 0 else roundQ p (decide (sum < 0)) sum.natAbs 1

/-- `fsub` (R14): a - b is a + (-b). -/
def fsub {p : Prec} (a b : Fp p) : Fp p := fadd a (fneg b)

/-- `fmul` (R14, R125, R127, R128): the sign is the exclusive-or of the signs; ∞ times 0 is invalid. -/
def fmul {p : Prec} (a b : Fp p) : Fp p :=
  match classify a, classify b with
  | .nan, _ => canonicalNaN p
  | _, .nan => canonicalNaN p
  | .inf na, .inf nb => withSign p (na ^^ nb) (infBits p)
  | .inf na, .fin nb mb => if mb = 0 then canonicalNaN p else withSign p (na ^^ nb) (infBits p)
  | .fin na ma, .inf nb => if ma = 0 then canonicalNaN p else withSign p (na ^^ nb) (infBits p)
  | .fin na ma, .fin nb mb => roundQ p (na ^^ nb) (ma * mb) (2 ^ unitExp p)

/-- `fdiv` (R14, R125, R127, R128); ∞ by ∞ and 0 by 0 are invalid, and a finite value by 0 is ∞ (never met: R129). -/
def fdiv {p : Prec} (a b : Fp p) : Fp p :=
  match classify a, classify b with
  | .nan, _ => canonicalNaN p
  | _, .nan => canonicalNaN p
  | .inf _, .inf _ => canonicalNaN p
  | .inf na, .fin nb _ => withSign p (na ^^ nb) (infBits p)
  | .fin na _, .inf nb => withSign p (na ^^ nb) 0
  | .fin na ma, .fin nb mb =>
    if mb = 0 then (if ma = 0 then canonicalNaN p else withSign p (na ^^ nb) (infBits p))
    else roundQ p (na ^^ nb) (ma * 2 ^ unitExp p) mb

/-- A natural number converted to the format (R138: exact for every N up to 2^20). -/
def ofNatP (p : Prec) (n : Nat) : Fp p := roundQ p false (n * 2 ^ unitExp p) 1

/-- `RN_P` of the rational `±num / den` (R14); an exact zero gives +0. -/
def ofRat (p : Prec) (neg : Bool) (num den : Nat) : Fp p :=
  if num = 0 then 0 else roundQ p neg (num * 2 ^ unitExp p) den

/-- The constants 1, 2 and 0.5. -/
def oneP (p : Prec) : Fp p := BitVec.ofNat _ (bias p * 2 ^ fracBits p)
def twoP (p : Prec) : Fp p := BitVec.ofNat _ ((bias p + 1) * 2 ^ fracBits p)
def halfP (p : Prec) : Fp p := BitVec.ofNat _ ((bias p - 1) * 2 ^ fracBits p)

/-- `half(a)` is `fmul(0.5, a)` (R14). -/
def half {p : Prec} (a : Fp p) : Fp p := fmul (halfP p) a

/-- A complex value (R15). -/
structure Cpx (p : Prec) where
  re : Fp p
  im : Fp p
  deriving DecidableEq, Repr

/-- The complex multiplier (R15, R132): four rounded products and two rounded sums. -/
def cmul {p : Prec} (x y : Cpx p) : Cpx p :=
  { re := fsub (fmul x.re y.re) (fmul x.im y.im)
    im := fadd (fmul x.re y.im) (fmul x.im y.re) }

/-- `conj` (R15). -/
def conj {p : Prec} (x : Cpx p) : Cpx p := { re := x.re, im := fneg x.im }

end Sys2Proof.Machine
end

