-- ==== Sys2Proof/Machine/Trig.lean ====
section
/-! DEFINITION. The twiddle-factor ROM and the coefficient generator (R120 to R122): TRIG_P and CAS_P, computed.

The angle `2πk/N` is reduced exactly, on integers: `k/N` to lowest terms, then to a quadrant, then to the first half of the first
quadrant. There the cosine and the sine are computed as integers scaled by `2^trigBits`, by the alternating Taylor series in
nested form, and rounded once to the format. (Log entry 3: the scaled values are within `2^-252` of the exact ones, as
Laws/Trig.lean proves, so the rounding is the correct one unless the exact value lies that near a midpoint of two neighbours.) -/

namespace Sys2Proof.Machine

/-- The scale of the fixed-point values. -/
def trigBits : Nat := 256

/-- `floor(π/2 · 2^256)` (proved: `halfPiFix_bounds` in Laws/Trig.lean). -/
def halfPiFix : Nat := 0x1921fb54442d18469898cc51701b839a252049c1114cf98e804177d4c76273644

/-- The number of terms taken of each series. -/
def trigTerms : Nat := 30

/-- The nested cosine series from term `i` on, `x2` the scaled square of the angle:
`1 - x²/((2i+1)(2i+2)) · (the series from term i+1 on)`. -/
def cosSeries (x2 : Nat) : (terms i : Nat) → Nat
  | 0, _     => 2 ^ trigBits
  | n + 1, i => 2 ^ trigBits - x2 * cosSeries x2 n (i + 1) / (2 ^ trigBits * ((2 * i + 1) * (2 * i + 2)))

/-- The nested series of `sin x / x` from term `i` on. -/
def sinSeries (x2 : Nat) : (terms i : Nat) → Nat
  | 0, _     => 2 ^ trigBits
  | n + 1, i => 2 ^ trigBits - x2 * sinSeries x2 n (i + 1) / (2 ^ trigBits * ((2 * i + 2) * (2 * i + 3)))

/-- The scaled angle `π/2 · r/d`. -/
def angleFix (r d : Nat) : Nat := halfPiFix * r / d

/-- The scaled cosine of `π/2 · r/d`, for `2r ≤ d`. -/
def cosFix (r d : Nat) : Nat := cosSeries (angleFix r d * angleFix r d / 2 ^ trigBits) trigTerms 0

/-- The scaled sine of `π/2 · r/d`, for `2r ≤ d`. -/
def sinFix (r d : Nat) : Nat :=
  angleFix r d * sinSeries (angleFix r d * angleFix r d / 2 ^ trigBits) trigTerms 0 / 2 ^ trigBits

/-- The scaled (cosine, sine) of `π/2 · r/d`, for `r ≤ d`: the second half of the quadrant mirrors the first. -/
def quadrantFix (r d : Nat) : Nat × Nat :=
  if 2 * r ≤ d then (cosFix r d, sinFix r d) else (sinFix (d - r) d, cosFix (d - r) d)

/-- The scaled, signed (cosine, sine) of `2πk/N`. The fraction is taken in lowest terms, so `k·m` of `N·m` is the same angle
(R123 (c)). -/
def circleFix (k n : Nat) : Int × Int :=
  let g := Nat.gcd (k % n) n
  let num := k % n / g
  let den := n / g
  let (c, s) := quadrantFix (4 * num % den) den
  match 4 * num / den with
  | 0 => (c, s)
  | 1 => (-(s : Int), c)
  | 2 => (-(c : Int), -(s : Int))
  | _ => (s, -(c : Int))

/-- `RN_P` of a scaled value (R14); zero gives +0. -/
def ofFix (p : Prec) (x : Int) : Fp p := ofRat p (decide (x < 0)) x.natAbs (2 ^ trigBits)

/-- `TRIG_P(k, N)` of R120: the pair (cosine, sine) of `2πk/N`, as the complex value `cos + j sin`. -/
def trig (p : Prec) (k n : Nat) : Cpx p :=
  let x := circleFix k n
  { re := ofFix p x.1, im := ofFix p x.2 }

/-- Entry `m` of the twiddle-factor ROM for precision P (R121). The ROM is a fixed function of its index, and no state (R20). -/
def romEntry (q : Params) (p : Prec) (m : Nat) : Cpx p := trig p m q.nmax

/-- `CAS_P(m, N)` of R122, rounded once from the sum; the exact zeros at 3/8 and 7/8 of the circle give +0. -/
def cas (p : Prec) (m n : Nat) : Fp p :=
  if 8 * (m % n) = 3 * n ∨ 8 * (m % n) = 7 * n then 0
  else
    let x := circleFix m n
    ofFix p (x.1 + x.2)

end Sys2Proof.Machine
end

