-- ==== Sys2Proof/Machine/Units.lean ====
section
/-! DEFINITION. The datapath units as functions on lists (R130 to R146): bit reversal, butterfly, cascade, scaling, packer,
unpacker, repacker, interleaver, Goertzel section, Hartley cascade and direct evaluator, fftshift. A stage is written as the list
of its outputs, each the butterfly output of its index; by R136 the order of the butterflies in a stage makes no difference. -/

namespace Sys2Proof.Machine

/-- Element `i` of a list of values. Every unit reads only indices below the list's length. -/
def at0 {p : Prec} (a : List (Fp p)) (i : Nat) : Fp p := a.getD i 0

/-- Element `i` of a list of complex values. -/
def cat0 {p : Prec} (a : List (Cpx p)) (i : Nat) : Cpx p := a.getD i ⟨0, 0⟩

/-- Two real lists as one complex list (R63: a complex buffer is two real buffers). -/
def zipCpx {p : Prec} (re im : List (Fp p)) : List (Cpx p) := List.zipWith Cpx.mk re im

/-- `is_pow2(N)` (R12): true exactly when N is a power of two. -/
def isPow2 (n : Nat) : Bool := decide (2 ^ Nat.log2 n = n)

/-! ### Permutations -/

/-- `bitrev_b(i)` (R130): the `b`-bit index read with its bits in the opposite order. -/
def bitrev : (b i : Nat) → Nat
  | 0, _     => 0
  | b + 1, i => i % 2 * 2 ^ b + bitrev b (i / 2)

/-- The bit-reversal permutation network BITREV (R131) on real values. -/
def bitrevList {p : Prec} (a : List (Fp p)) (n : Nat) : List (Fp p) :=
  (List.range n).map fun i => at0 a (bitrev (Nat.log2 n) i)

/-- BITREV (R131) on the pairs of a complex sequence. -/
def bitrevCpx {p : Prec} (z : List (Cpx p)) (n : Nat) : List (Cpx p) :=
  (List.range n).map fun i => cat0 z (bitrev (Nat.log2 n) i)

/-- SHIFTPERM (R146): the first and second halves of an even-length list swapped. -/
def shiftPerm {p : Prec} (a : List (Fp p)) (len : Nat) : List (Fp p) :=
  (List.range len).map fun i => at0 a ((i + len / 2) % len)

/-! ### Butterfly and cascade -/

/-- The direction of a cascade (R134). -/
inductive Dir where
  | fwd
  | inv
  deriving DecidableEq, Repr

/-- The twiddle of R134 at index `k` of a cascade of size `n`. -/
def twiddle (dir : Dir) (p : Prec) (k n : Nat) : Cpx p :=
  match dir with
  | .fwd => conj (trig p k n)
  | .inv => trig p k n

/-- The radix-2 butterfly BFLY (R133): the two outputs. Every butterfly multiplies. -/
def bfly {p : Prec} (u v w : Cpx p) : Cpx p × Cpx p :=
  let t := cmul v w
  (⟨fadd u.re t.re, fadd u.im t.im⟩, ⟨fsub u.re t.re, fsub u.im t.im⟩)

/-- Stage `s` of the cascade of size `n` (R135): output `i` is the first output of its butterfly when it lies in the first half
of its group of `2^s`, the second output otherwise. -/
def cascadeStage {p : Prec} (dir : Dir) (n s : Nat) (z : List (Cpx p)) : List (Cpx p) :=
  let span := 2 ^ s
  let hlf := 2 ^ (s - 1)
  let stride := n / span
  (List.range n).map fun i =>
    let j := i % span
    if j < hlf then (bfly (cat0 z i) (cat0 z (i + hlf)) (twiddle dir p (j * stride) n)).1
    else (bfly (cat0 z (i - hlf)) (cat0 z i) (twiddle dir p ((j - hlf) * stride) n)).2

/-- CASCADE (R135): bit reversal, then stages 1 to log2 N in order. -/
def cascade {p : Prec} (dir : Dir) (n : Nat) (z : List (Cpx p)) : List (Cpx p) :=
  (List.range (Nat.log2 n)).foldl (fun z t => cascadeStage dir n (t + 1) z) (bitrevCpx z n)

/-- SCALE (R138): each element divided by N. -/
def scale {p : Prec} (a : List (Fp p)) (n : Nat) : List (Fp p) := a.map fun v => fdiv v (ofNatP p n)

/-! ### Real-to-complex packer and unpacker -/

/-- PACK (R139): even samples to the real part, odd samples to the imaginary part. -/
def pack {p : Prec} (x : List (Fp p)) (n : Nat) : List (Cpx p) :=
  (List.range (n / 2)).map fun i => ⟨at0 x (2 * i), at0 x (2 * i + 1)⟩

/-- Bin `k` of UNPACK for `0 < k < M` (R140), from `Z[k]`, `Z[M-k]` and `TRIG_P(k, N)`. -/
def unpackBin {p : Prec} (a b t : Cpx p) : Cpx p :=
  let rs := half (fadd a.re b.re)
  let is := half (fadd a.im b.im)
  let rd := half (fsub a.re b.re)
  let id := half (fsub a.im b.im)
  { re := fsub (fadd rs (fmul t.re is)) (fmul t.im rd)
    im := fsub (fsub id (fmul t.re rd)) (fmul t.im is) }

/-- UNPACK (R140): the M+1 one-sided bins; bins 0 and M have imaginary part +0. -/
def unpack {p : Prec} (n : Nat) (z : List (Cpx p)) : List (Cpx p) :=
  let m := n / 2
  (List.range (m + 1)).map fun k =>
    if k = 0 then ⟨fadd (cat0 z 0).re (cat0 z 0).im, 0⟩
    else if k = m then ⟨fsub (cat0 z 0).re (cat0 z 0).im, 0⟩
    else unpackBin (cat0 z k) (cat0 z (m - k)) (trig p k n)

/-- Element `k` of REPACK (R141), from bins `k` and `M-k` and `TRIG_P(k, N)`. -/
def repackBin {p : Prec} (x y t : Cpx p) : Cpx p :=
  let sr := fadd x.re y.re
  let di := fsub x.im y.im
  let dr := fsub x.re y.re
  let si := fadd x.im y.im
  { re := fsub (fsub sr (fmul dr t.im)) (fmul si t.re)
    im := fsub (fadd di (fmul dr t.re)) (fmul si t.im) }

/-- REPACK (R141): M values from the M+1 one-sided bins. -/
def repack {p : Prec} (n : Nat) (x : List (Cpx p)) : List (Cpx p) :=
  let m := n / 2
  (List.range m).map fun k => repackBin (cat0 x k) (cat0 x (m - k)) (trig p k n)

/-- UNZIP (R142): the inverse of PACK. -/
def unzip {p : Prec} (z : List (Cpx p)) (n : Nat) : List (Fp p) :=
  (List.range n).map fun i => if i % 2 = 0 then (cat0 z (i / 2)).re else (cat0 z (i / 2)).im

/-- The even-indexed and the odd-indexed elements of a complex sequence (R201). -/
def evens {p : Prec} (z : List (Cpx p)) (m : Nat) : List (Cpx p) := (List.range m).map fun i => cat0 z (2 * i)
def odds {p : Prec} (z : List (Cpx p)) (m : Nat) : List (Cpx p) := (List.range m).map fun i => cat0 z (2 * i + 1)

/-- The combining loop of RFFT_DIRC (R201): outputs k and k+M from the two half-size spectra. -/
def combineHalves {p : Prec} (n : Nat) (e o : List (Cpx p)) : List (Cpx p) :=
  let m := n / 2
  (List.range n).map fun i =>
    if i < m then (bfly (cat0 e i) (cat0 o i) (conj (trig p i n))).1
    else (bfly (cat0 e (i - m)) (cat0 o (i - m)) (conj (trig p (i - m) n))).2

/-! ### Goertzel section -/

/-- One step of the recurrence (R143), on the pair (s1, s2). -/
def gzStep {p : Prec} (coef : Fp p) (s : Fp p × Fp p) (x : Fp p) : Fp p × Fp p :=
  (fsub (fadd x (fmul coef s.1)) s.2, s.1)

/-- GSOS (R143): the recurrence over the samples, then the closing form `(C·s1 - s2, S·s1)`. -/
def gsos {p : Prec} (n : Nat) (x : List (Fp p)) (k : Nat) : Cpx p :=
  let t := trig p k n
  let coef := fmul (twoP p) t.re
  let s := x.foldl (gzStep coef) (0, 0)
  { re := fsub (fmul t.re s.1) s.2, im := fmul t.im s.1 }

/-! ### Hartley units -/

/-- Stage `s` of the Hartley cascade (R144). -/
def hartleyStage {p : Prec} (n s : Nat) (a : List (Fp p)) : List (Fp p) :=
  let span := 2 ^ s
  let hlf := 2 ^ (s - 1)
  let stride := n / span
  (List.range n).map fun i =>
    let g := i / span * span
    let k := i % span % hlf
    let kk := (hlf - k) % hlf
    let w := trig p (k * stride) n
    let t := fadd (fmul (at0 a (g + hlf + k)) w.re) (fmul (at0 a (g + hlf + kk)) w.im)
    if i % span < hlf then fadd (at0 a (g + k)) t else fsub (at0 a (g + k)) t

/-- HCASCADE (R144). -/
def hcascade {p : Prec} (n : Nat) (a : List (Fp p)) : List (Fp p) :=
  (List.range (Nat.log2 n)).foldl (fun a t => hartleyStage n (t + 1) a) (bitrevList a n)

/-- HDIRECT (R145). -/
def hdirect {p : Prec} (n : Nat) (a : List (Fp p)) : List (Fp p) :=
  (List.range n).map fun k =>
    (List.range n).foldl (fun acc i => fadd acc (fmul (at0 a i) (cas p (i * k % n) n))) 0

/-- The Hartley transform of size N: the butterfly for a power of two, the direct evaluator otherwise (R226). -/
def hartley {p : Prec} (n : Nat) (a : List (Fp p)) : List (Fp p) := if isPow2 n then hcascade n a else hdirect n a

end Sys2Proof.Machine
end

