-- ==== Sys2Proof/Machine/Operands.lean ====
section
/-! DEFINITION. The operands of a command: its context (R91, R246), its buffer descriptors (R64, R65, R242) and the elements of its
buffers (R63, R64). -/

namespace Sys2Proof.Machine

/-! ### Contexts -/

/-- Slot `c` of the context file; a slot the engine does not have reads as an empty one (R21). -/
def State.slot (s : State) (c : Nat) : Slot := s.ctxs.getD c .empty

/-- Replacing all four fields of slot `c` (R164). -/
def State.setSlot (s : State) (c : Nat) (x : Slot) : State := s.setCtxs (s.ctxs.set c x)

/-- `check_ctx(c, K, P)` (R246). -/
def checkCtx (c : Nat) (kind : Kind) (p : Prec) (s : State) : Option CmdError :=
  if s.params.nctx ≤ c then some ⟨.ctxRange, 0, 0⟩
  else if (s.slot c).valid = false then some ⟨.notConfigured, 0, 0⟩
  else if (s.slot c).kind ≠ kind then some ⟨.kind, 0, 0⟩
  else if (s.slot c).prec ≠ p then some ⟨.prec, 0, 0⟩
  else none

/-! ### Descriptors -/

/-- Descriptor `k` (R29). -/
def LockedRegs.desc (r : LockedRegs) (k : Fin 4) : Desc :=
  match k with
  | 0 => r.b0
  | 1 => r.b1
  | 2 => r.b2
  | 3 => r.b3

/-- `ES(P)`: the size of an element in bytes (R63). -/
def elemBytes : Prec → Nat
  | .f32 => 4
  | .f64 => 8

/-- The first byte of a descriptor's span, and the first byte after it (R64). -/
def Desc.start (d : Desc) : Nat := d.base.toNat
def Desc.stop (d : Desc) (p : Prec) : Nat := d.base.toNat + elemBytes p * d.len.toNat

/-- `aligned(k)` (R64). -/
def Desc.aligned (d : Desc) (p : Prec) : Bool := decide (d.base.toNat % elemBytes p = 0)

/-- `inrange(k)` (R64): unbounded arithmetic, no wrap. -/
def Desc.inRange (d : Desc) (p : Prec) (dmemBytes : Nat) : Bool := decide (d.stop p ≤ dmemBytes)

/-- Two spans share a byte (R65); an empty span overlaps nothing. -/
def Desc.overlaps (d e : Desc) (p : Prec) : Bool :=
  decide (0 < d.len.toNat ∧ 0 < e.len.toNat ∧ d.start < e.stop p ∧ e.start < d.stop p)

/-- The used descriptors of a command with their required lengths, in the order the command lists them. -/
abbrev Uses := List (Fin 4 × Nat)

def lenError (r : LockedRegs) (u : Uses) : Option CmdError :=
  u.findSome? fun x => if (r.desc x.1).len.toNat ≠ x.2 then some ⟨.len, x.1, 0⟩ else none

def alignError (r : LockedRegs) (p : Prec) (u : Uses) : Option CmdError :=
  u.findSome? fun x => if (r.desc x.1).aligned p = false then some ⟨.align, x.1, 0⟩ else none

def rangeError (r : LockedRegs) (p : Prec) (dmemBytes : Nat) (u : Uses) : Option CmdError :=
  u.findSome? fun x => if (r.desc x.1).inRange p dmemBytes = false then some ⟨.range, x.1, 0⟩ else none

/-- The first overlapping pair, in increasing order of (k, m): the list names descriptors in increasing order. -/
def overlapError (r : LockedRegs) (p : Prec) : Uses → Option CmdError
  | []     => none
  | x :: u =>
    (u.findSome? fun y => if (r.desc x.1).overlaps (r.desc y.1) p then some ⟨.overlap, x.1, y.1⟩ else none).or
      (overlapError r p u)

/-- `check_bufs(P, uses)` (R242): every length, then every alignment, then every range, then every pair. -/
def checkBufs (r : LockedRegs) (p : Prec) (dmemBytes : Nat) (u : Uses) : Option CmdError :=
  (lenError r u).or ((alignError r p u).or ((rangeError r p dmemBytes u).or (overlapError r p u)))

/-! ### Elements -/

/-- The first `n` elements of a buffer at byte offset `base` (R63, R64), read as the draws from `t` on. -/
def Memory.loadElems (m : Memory) (p : Prec) (base n t : Nat) : List (Fp p) :=
  (List.range n).map fun i => BitVec.ofNat _ (m.load (elemBytes p) (base + elemBytes p * i) (t + elemBytes p * i))

/-- Storing a list of elements from byte offset `base` up (R63, R64). -/
def Memory.storeElems (m : Memory) {p : Prec} (base : Nat) : List (Fp p) → Memory
  | []      => m
  | v :: vs => Memory.storeElems (m.store (elemBytes p) base v.toNat) (base + elemBytes p) vs

/-- `[BufRead(k, i) for i in 0..n-1]` (R64), and the state in which its draws have been made. -/
def readBuf (p : Prec) (r : LockedRegs) (k : Fin 4) (n : Nat) (s : State) : List (Fp p) × State :=
  (s.dmem.loadElems p (r.desc k).start n s.draws, s.setDraws (s.draws + elemBytes p * n))

/-- `for i: BufWrite(k, i, v[i])` (R64). -/
def writeBuf {p : Prec} (r : LockedRegs) (k : Fin 4) (vals : List (Fp p)) (s : State) : State :=
  s.setDmem (s.dmem.storeElems (r.desc k).start vals)

/-- Reading a complex buffer: real parts from descriptor `k`, then imaginary parts from descriptor `l` (R63). -/
def readCpx (p : Prec) (r : LockedRegs) (k l : Fin 4) (n : Nat) (s : State) : List (Cpx p) × State :=
  let re := readBuf p r k n s
  let im := readBuf p r l n re.2
  (zipCpx re.1 im.1, im.2)

/-- Writing a complex buffer. The two buffers are disjoint (R65), so the order of the two makes no difference. -/
def writeCpx {p : Prec} (r : LockedRegs) (k l : Fin 4) (z : List (Cpx p)) (s : State) : State :=
  writeBuf r l (z.map Cpx.im) (writeBuf r k (z.map Cpx.re) s)

end Sys2Proof.Machine
end

