-- ==== Sys2Proof/Machine/ComplexFft.lean ====
section
/-! DEFINITION. The complex FFT commands and fftshift (R180 to R183): FFT_DIR, FFT_INV, FFT_INVN, FFT_SHIFT. -/

namespace Sys2Proof.Machine

/-- The checks the three complex FFT commands share: the context, then B0 = re[N] and B1 = im[N]. -/
def checkComplex (c : Nat) (p : Prec) (r : LockedRegs) (s : State) : Option CmdError :=
  (checkCtx c .fft p s).or
    (checkBufs r p s.params.dmemBytes [(0, (s.slot c).size), (1, (s.slot c).size)])

/-- A transform of the complex sequence in B0 and B1, in place. -/
def inPlace (c : Nat) (p : Prec) (f : Nat → List (Cpx p) → List (Cpx p)) (r : LockedRegs) (s : State) : State :=
  let n := (s.slot c).size
  let z := readCpx p r 0 1 n s
  writeCpx r 0 1 (f n z.1) z.2

/-- Dividing both parts of each value by N (R138, R182). -/
def scaleCpx {p : Prec} (z : List (Cpx p)) (n : Nat) : List (Cpx p) :=
  zipCpx (scale (z.map Cpx.re) n) (scale (z.map Cpx.im) n)

def checkFftDir (c : Nat) (p : Prec) (r : LockedRegs) (s : State) : Option CmdError := checkComplex c p r s
def checkFftInv (c : Nat) (p : Prec) (r : LockedRegs) (s : State) : Option CmdError := checkComplex c p r s
def checkFftInvn (c : Nat) (p : Prec) (r : LockedRegs) (s : State) : Option CmdError := checkComplex c p r s

/-- The effect of FFT_DIR: the unscaled forward cascade (R180). -/
def effectFftDir (c : Nat) (p : Prec) (r : LockedRegs) (s : State) : State := inPlace c p (cascade .fwd) r s

/-- The effect of FFT_INV: the unscaled inverse cascade (R181, R184). -/
def effectFftInv (c : Nat) (p : Prec) (r : LockedRegs) (s : State) : State := inPlace c p (cascade .inv) r s

/-- The effect of FFT_INVN: the inverse cascade divided by N (R182). -/
def effectFftInvn (c : Nat) (p : Prec) (r : LockedRegs) (s : State) : State :=
  inPlace c p (fun n z => scaleCpx (cascade .inv n z) n) r s

/-- The checks of FFT_SHIFT: PARITY, then ALIGN and RANGE of B0; the length is B0_LEN's own (R183). -/
def checkFftShift (p : Prec) (r : LockedRegs) (s : State) : Option CmdError :=
  if r.b0.len.toNat % 2 = 1 then some ⟨.parity, 0, 0⟩
  else checkBufs r p s.params.dmemBytes [(0, r.b0.len.toNat)]

/-- The effect of FFT_SHIFT (R183). -/
def effectFftShift (p : Prec) (r : LockedRegs) (s : State) : State :=
  let len := r.b0.len.toNat
  let a := readBuf p r 0 len s
  writeBuf r 0 (shiftPerm a.1 len) a.2

/-- FFT_DIR (R180). -/
def execFftDir (c : Nat) (p : Prec) (s : State) : Host.Outcome State Fault Refusal :=
  runCommand (encode (.fftDir c p)) (checkFftDir c p) (effectFftDir c p) s

/-- FFT_INV (R181). -/
def execFftInv (c : Nat) (p : Prec) (s : State) : Host.Outcome State Fault Refusal :=
  runCommand (encode (.fftInv c p)) (checkFftInv c p) (effectFftInv c p) s

/-- FFT_INVN (R182). -/
def execFftInvn (c : Nat) (p : Prec) (s : State) : Host.Outcome State Fault Refusal :=
  runCommand (encode (.fftInvn c p)) (checkFftInvn c p) (effectFftInvn c p) s

/-- FFT_SHIFT (R183). -/
def execFftShift (p : Prec) (s : State) : Host.Outcome State Fault Refusal :=
  runCommand (encode (.fftShift p)) (checkFftShift p) (effectFftShift p) s

end Sys2Proof.Machine
end

