-- ==== Sys2Proof/Machine/Construct.lean ====
section
/-! DEFINITION. The configuration commands (R160 to R163): CFG_FFT, CFG_RFFT, CFG_GZ, CFG_DHT. -/

namespace Sys2Proof.Machine

/-- The checks of a configuration command: CTX_RANGE, then SIZE (R247); `sizeOk` is the size constraint of the kind. -/
def checkConfig (c : Nat) (sizeOk : Nat → Bool) (r : LockedRegs) (s : State) : Option CmdError :=
  if s.params.nctx ≤ c then some ⟨.ctxRange, 0, 0⟩
  else if r.arg0.toNat = 0 ∨ s.params.nmax < r.arg0.toNat ∨ sizeOk r.arg0.toNat = false then some ⟨.size, 0, 0⟩
  else none

/-- The effect of a configuration command: slot `c` takes all four fields at once (R164). -/
def configure (c : Nat) (kind : Kind) (p : Prec) (r : LockedRegs) (s : State) : State :=
  s.setSlot c { valid := true, kind := kind, prec := p, n := r.arg0 }

/-- The size constraint of each kind (R160 to R163; R33). -/
def sizeOkFft (n : Nat) : Bool := isPow2 n
def sizeOkRfft (n : Nat) : Bool := isPow2 n && isPow2 (n / 2)
def sizeOkAny (_ : Nat) : Bool := true

def checkCfgFft (c : Nat) (r : LockedRegs) (s : State) : Option CmdError := checkConfig c sizeOkFft r s
def checkCfgRfft (c : Nat) (r : LockedRegs) (s : State) : Option CmdError := checkConfig c sizeOkRfft r s
def checkCfgGz (c : Nat) (r : LockedRegs) (s : State) : Option CmdError := checkConfig c sizeOkAny r s
def checkCfgDht (c : Nat) (r : LockedRegs) (s : State) : Option CmdError := checkConfig c sizeOkAny r s

/-- CFG_FFT (R160). -/
def execCfgFft (c : Nat) (p : Prec) (s : State) : Host.Outcome State Fault Refusal :=
  runCommand (encode (.cfgFft c p)) (checkCfgFft c) (configure c .fft p) s

/-- CFG_RFFT (R161). -/
def execCfgRfft (c : Nat) (p : Prec) (s : State) : Host.Outcome State Fault Refusal :=
  runCommand (encode (.cfgRfft c p)) (checkCfgRfft c) (configure c .rfft p) s

/-- CFG_GZ (R162). -/
def execCfgGz (c : Nat) (p : Prec) (s : State) : Host.Outcome State Fault Refusal :=
  runCommand (encode (.cfgGz c p)) (checkCfgGz c) (configure c .gz p) s

/-- CFG_DHT (R163). -/
def execCfgDht (c : Nat) (p : Prec) (s : State) : Host.Outcome State Fault Refusal :=
  runCommand (encode (.cfgDht c p)) (checkCfgDht c) (configure c .dht p) s

end Sys2Proof.Machine
end

