-- ==== Sys2Proof/Machine/GoertzelHartley.lean ====
section
/-! DEFINITION. The Goertzel and Hartley commands (R220 to R226): GZ_DIR, DHT_DIR, DHT_INVN. -/

namespace Sys2Proof.Machine

/-- GZ_DIR's checks: the context, then BIN, then B0 = samples[N] (R220, R247). -/
def checkGzDir (c : Nat) (p : Prec) (r : LockedRegs) (s : State) : Option CmdError :=
  let n := (s.slot c).size
  (checkCtx c .gz p s).or
    (if n ≤ r.arg0.toNat then some ⟨.bin, 0, 0⟩ else checkBufs r p s.params.dmemBytes [(0, n)])

/-- The result registers after a Goertzel result (R221): two words a part for F64; for F32 the high words are 0. -/
def resultRegs : (p : Prec) → Cpx p → Results
  | .f32, y => { reLo := y.re, reHi := 0, imLo := y.im, imHi := 0 }
  | .f64, y =>
    { reLo := BitVec.ofNat 32 y.re.toNat, reHi := BitVec.ofNat 32 (y.re.toNat / 2 ^ 32)
      imLo := BitVec.ofNat 32 y.im.toNat, imHi := BitVec.ofNat 32 (y.im.toNat / 2 ^ 32) }

/-- The effect of GZ_DIR: the bin is ARG0 (R220, R221). -/
def effectGzDir (c : Nat) (p : Prec) (r : LockedRegs) (s : State) : State :=
  let n := (s.slot c).size
  let x := readBuf p r 0 n s
  x.2.setRes (resultRegs p (gsos n x.1 r.arg0.toNat))

/-- The checks of the two Hartley commands: B0 = array[N] (R224, R225). -/
def checkHartley (c : Nat) (p : Prec) (r : LockedRegs) (s : State) : Option CmdError :=
  (checkCtx c .dht p s).or (checkBufs r p s.params.dmemBytes [(0, (s.slot c).size)])

def checkDhtDir (c : Nat) (p : Prec) (r : LockedRegs) (s : State) : Option CmdError := checkHartley c p r s
def checkDhtInvn (c : Nat) (p : Prec) (r : LockedRegs) (s : State) : Option CmdError := checkHartley c p r s

/-- The effect of DHT_DIR (R224). -/
def effectDhtDir (c : Nat) (p : Prec) (r : LockedRegs) (s : State) : State :=
  let n := (s.slot c).size
  let a := readBuf p r 0 n s
  writeBuf r 0 (hartley n a.1) a.2

/-- The effect of DHT_INVN: the same transform, then each element divided by N (R225). -/
def effectDhtInvn (c : Nat) (p : Prec) (r : LockedRegs) (s : State) : State :=
  let n := (s.slot c).size
  let a := readBuf p r 0 n s
  writeBuf r 0 (scale (hartley n a.1) n) a.2

/-- GZ_DIR (R220). -/
def execGzDir (c : Nat) (p : Prec) (s : State) : Host.Outcome State Fault Refusal :=
  runCommand (encode (.gzDir c p)) (checkGzDir c p) (effectGzDir c p) s

/-- DHT_DIR (R224). -/
def execDhtDir (c : Nat) (p : Prec) (s : State) : Host.Outcome State Fault Refusal :=
  runCommand (encode (.dhtDir c p)) (checkDhtDir c p) (effectDhtDir c p) s

/-- DHT_INVN (R225). -/
def execDhtInvn (c : Nat) (p : Prec) (s : State) : Host.Outcome State Fault Refusal :=
  runCommand (encode (.dhtInvn c p)) (checkDhtInvn c p) (effectDhtInvn c p) s

end Sys2Proof.Machine
end

