-- ==== Sys2Proof/Machine/RealFft.lean ====
section
/-! DEFINITION. The real-input FFT commands (R200 to R203): RFFT_DIR, RFFT_DIRC, RFFT_INV, RFFT_INVN. N is the size of the context
and M = N/2. -/

namespace Sys2Proof.Machine

/-- RFFT_DIR's checks: samples[N], re[M+1], im[M+1] (R200). -/
def checkRfftDir (c : Nat) (p : Prec) (r : LockedRegs) (s : State) : Option CmdError :=
  let n := (s.slot c).size
  (checkCtx c .rfft p s).or (checkBufs r p s.params.dmemBytes [(0, n), (1, n / 2 + 1), (2, n / 2 + 1)])

/-- RFFT_DIRC's checks: inRe[N], inIm[N], outRe[N], outIm[N] (R201). -/
def checkRfftDirc (c : Nat) (p : Prec) (r : LockedRegs) (s : State) : Option CmdError :=
  let n := (s.slot c).size
  (checkCtx c .rfft p s).or (checkBufs r p s.params.dmemBytes [(0, n), (1, n), (2, n), (3, n)])

/-- The checks of the two real inverses: re[M+1], im[M+1], output[N] (R202, R203). -/
def checkRealInverse (c : Nat) (p : Prec) (r : LockedRegs) (s : State) : Option CmdError :=
  let n := (s.slot c).size
  (checkCtx c .rfft p s).or (checkBufs r p s.params.dmemBytes [(0, n / 2 + 1), (1, n / 2 + 1), (2, n)])

def checkRfftInv (c : Nat) (p : Prec) (r : LockedRegs) (s : State) : Option CmdError := checkRealInverse c p r s
def checkRfftInvn (c : Nat) (p : Prec) (r : LockedRegs) (s : State) : Option CmdError := checkRealInverse c p r s

/-- The one-sided spectrum of N real samples (R200): pack, half-size forward cascade, unpack. -/
def realSpectrum {p : Prec} (n : Nat) (x : List (Fp p)) : List (Cpx p) :=
  unpack n (cascade .fwd (n / 2) (pack x n))

/-- The full transform through the half-size decomposition (R201). -/
def splitTransform {p : Prec} (n : Nat) (z : List (Cpx p)) : List (Cpx p) :=
  combineHalves n (cascade .fwd (n / 2) (evens z (n / 2))) (cascade .fwd (n / 2) (odds z (n / 2)))

/-- The real signal from a one-sided spectrum, scaled by N (R202): repack, half-size inverse cascade, interleave. -/
def realSignal {p : Prec} (n : Nat) (x : List (Cpx p)) : List (Fp p) :=
  unzip (cascade .inv (n / 2) (repack n x)) n

/-- The effect of RFFT_DIR (R200). -/
def effectRfftDir (c : Nat) (p : Prec) (r : LockedRegs) (s : State) : State :=
  let n := (s.slot c).size
  let x := readBuf p r 0 n s
  writeCpx r 1 2 (realSpectrum n x.1) x.2

/-- The effect of RFFT_DIRC (R201). -/
def effectRfftDirc (c : Nat) (p : Prec) (r : LockedRegs) (s : State) : State :=
  let n := (s.slot c).size
  let z := readCpx p r 0 1 n s
  writeCpx r 2 3 (splitTransform n z.1) z.2

/-- The effect of RFFT_INV (R202). -/
def effectRfftInv (c : Nat) (p : Prec) (r : LockedRegs) (s : State) : State :=
  let n := (s.slot c).size
  let x := readCpx p r 0 1 (n / 2 + 1) s
  writeBuf r 2 (realSignal n x.1) x.2

/-- The effect of RFFT_INVN: each output divided by N, not by M (R203). -/
def effectRfftInvn (c : Nat) (p : Prec) (r : LockedRegs) (s : State) : State :=
  let n := (s.slot c).size
  let x := readCpx p r 0 1 (n / 2 + 1) s
  writeBuf r 2 (scale (realSignal n x.1) n) x.2

/-- RFFT_DIR (R200). -/
def execRfftDir (c : Nat) (p : Prec) (s : State) : Host.Outcome State Fault Refusal :=
  runCommand (encode (.rfftDir c p)) (checkRfftDir c p) (effectRfftDir c p) s

/-- RFFT_DIRC (R201). -/
def execRfftDirc (c : Nat) (p : Prec) (s : State) : Host.Outcome State Fault Refusal :=
  runCommand (encode (.rfftDirc c p)) (checkRfftDirc c p) (effectRfftDirc c p) s

/-- RFFT_INV (R202). -/
def execRfftInv (c : Nat) (p : Prec) (s : State) : Host.Outcome State Fault Refusal :=
  runCommand (encode (.rfftInv c p)) (checkRfftInv c p) (effectRfftInv c p) s

/-- RFFT_INVN (R203). -/
def execRfftInvn (c : Nat) (p : Prec) (s : State) : Host.Outcome State Fault Refusal :=
  runCommand (encode (.rfftInvn c p)) (checkRfftInvn c p) (effectRfftInvn c p) s

end Sys2Proof.Machine
end

