-- ==== Sys2Proof/Machine/Dispatch.lean ====
section
/-! DEFINITION. The meaning of each command, one arm per constructor (R94). At an IDLE engine `exec i s` is the host's write of
the command's word to CMD (R243); at the BUSY engine that captured it, the completion step (R244). -/

namespace Sys2Proof.Machine

def exec (i : Instr) (s : State) : Host.Outcome State Fault Refusal :=
  match i with
  | .cfgFft c p => Sys2Proof.Machine.execCfgFft c p s
  | .cfgRfft c p => Sys2Proof.Machine.execCfgRfft c p s
  | .cfgGz c p => Sys2Proof.Machine.execCfgGz c p s
  | .cfgDht c p => Sys2Proof.Machine.execCfgDht c p s
  | .fftDir c p => Sys2Proof.Machine.execFftDir c p s
  | .fftInv c p => Sys2Proof.Machine.execFftInv c p s
  | .fftInvn c p => Sys2Proof.Machine.execFftInvn c p s
  | .fftShift p => Sys2Proof.Machine.execFftShift p s
  | .rfftDir c p => Sys2Proof.Machine.execRfftDir c p s
  | .rfftDirc c p => Sys2Proof.Machine.execRfftDirc c p s
  | .rfftInv c p => Sys2Proof.Machine.execRfftInv c p s
  | .rfftInvn c p => Sys2Proof.Machine.execRfftInvn c p s
  | .gzDir c p => Sys2Proof.Machine.execGzDir c p s
  | .dhtDir c p => Sys2Proof.Machine.execDhtDir c p s
  | .dhtInvn c p => Sys2Proof.Machine.execDhtInvn c p s

end Sys2Proof.Machine
end

