-- ==== Sys2Proof/Machine/Registers.lean ====
section
/-! DEFINITION. The register file (R21 to R37): where each register lies, what it reads as, and what a host write does to it. A
write to CMD while IDLE issues a command and stands in Bus.lean. -/

namespace Sys2Proof.Machine

/-- The registers of R21; every other offset of the REG region is reserved. -/
inductive Reg where
  | id
  | version
  | caps
  | dmemSize
  | ctrl
  | status
  | cmd
  | arg0
  | bBase (k : Fin 4)
  | bLen (k : Fin 4)
  | resReLo
  | resReHi
  | resImLo
  | resImHi
  | ctxCfg (c : Nat)
  | ctxN (c : Nat)
  deriving DecidableEq, Repr

/-- The offset of a register in the REG region (R21). -/
def Reg.offset : Reg → Nat
  | .id       => 0x000
  | .version  => 0x004
  | .caps     => 0x008
  | .dmemSize => 0x00C
  | .ctrl     => 0x010
  | .status   => 0x014
  | .cmd      => 0x018
  | .arg0     => 0x01C
  | .bBase k  => 0x020 + 8 * k.val
  | .bLen k   => 0x024 + 8 * k.val
  | .resReLo  => 0x040
  | .resReHi  => 0x044
  | .resImLo  => 0x048
  | .resImHi  => 0x04C
  | .ctxCfg c => 0x080 + 8 * c
  | .ctxN c   => 0x084 + 8 * c

/-- The register at an offset, if there is one (R21); a context the engine does not have is reserved. -/
def Reg.ofOffset (q : Params) (off : Nat) : Option Reg :=
  if off = 0x000 then some .id
  else if off = 0x004 then some .version
  else if off = 0x008 then some .caps
  else if off = 0x00C then some .dmemSize
  else if off = 0x010 then some .ctrl
  else if off = 0x014 then some .status
  else if off = 0x018 then some .cmd
  else if off = 0x01C then some .arg0
  else if off = 0x020 then some (.bBase 0)
  else if off = 0x024 then some (.bLen 0)
  else if off = 0x028 then some (.bBase 1)
  else if off = 0x02C then some (.bLen 1)
  else if off = 0x030 then some (.bBase 2)
  else if off = 0x034 then some (.bLen 2)
  else if off = 0x038 then some (.bBase 3)
  else if off = 0x03C then some (.bLen 3)
  else if off = 0x040 then some .resReLo
  else if off = 0x044 then some .resReHi
  else if off = 0x048 then some .resImLo
  else if off = 0x04C then some .resImHi
  else if 0x080 ≤ off ∧ (off - 0x080) / 8 < q.nctx ∧ off % 8 = 0 then some (.ctxCfg ((off - 0x080) / 8))
  else if 0x080 ≤ off ∧ (off - 0x080) / 8 < q.nctx ∧ off % 8 = 4 then some (.ctxN ((off - 0x080) / 8))
  else none

/-- KIND as the three-bit field holds it (R30). -/
def Kind.code : Kind → Nat
  | .empty => 0
  | .fft   => 1
  | .rfft  => 2
  | .gz    => 3
  | .dht   => 4

/-- CTXc_CFG (R31): VALID in bit 0, KIND in bits 3..1, PREC in bit 4. -/
def Slot.cfgWord (x : Slot) : Word := BitVec.ofNat 32 (bit x.valid + 2 * x.kind.code + 16 * x.prec.bit)

/-- CAPS (R23): LOG2_NMAX in bits 4..0, NCTX in bits 12..8, HAS_F64 in bit 16, HAS_F32 in bit 17. -/
def capsWord (q : Params) : Word := BitVec.ofNat 32 (q.log2Nmax + 256 * q.nctx + 65536 + 131072)

/-- What a register reads as. A read has no side effect (R68). -/
def readReg (s : State) : Reg → Word
  | .id       => 0x5446574E
  | .version  => 0x00000001
  | .caps     => capsWord s.params
  | .dmemSize => BitVec.ofNat 32 s.params.dmemBytes
  | .ctrl     => s.ctrlWord
  | .status   => s.statusWord
  | .cmd      => s.locked.cmd
  | .arg0     => s.locked.arg0
  | .bBase k  => (s.locked.desc k).base
  | .bLen k   => (s.locked.desc k).len
  | .resReLo  => s.res.reLo
  | .resReHi  => s.res.reHi
  | .resImLo  => s.res.imLo
  | .resImHi  => s.res.imHi
  | .ctxCfg c => (s.slot c).cfgWord
  | .ctxN c   => (s.slot c).n

/-- A read of the REG region: a reserved offset reads 0 (R67). -/
def readOffset (s : State) (off : Nat) : Word :=
  match Reg.ofOffset s.params off with
  | some r => readReg s r
  | none   => 0

/-- Replacing descriptor `k`. -/
def LockedRegs.setDesc (r : LockedRegs) (k : Fin 4) (d : Desc) : LockedRegs :=
  match k with
  | 0 => { r with b0 := d }
  | 1 => { r with b1 := d }
  | 2 => { r with b2 := d }
  | 3 => { r with b3 := d }

/-- A write to a locked register (R37): stored while IDLE; while BUSY ignored, and OVR is set. -/
def writeLocked (s : State) (r : LockedRegs) : State :=
  if s.engine.isBusy then s.setStatus s.status.overrun else s.setLocked r

/-- A host write of `v` to a register, but for a CMD write that issues a command: CTRL takes bit 0 (R25), STATUS clears (R26), ARG0
and the descriptors are locked registers (R28, R29, R37), and read-only registers ignore it (R68). -/
def writeReg (v : Word) (s : State) : Reg → State
  | .ctrl    => s.setIe (v.getLsbD 0)
  | .status  => writeStatus v s
  | .cmd     => writeLocked s { s.locked with cmd := v }
  | .arg0    => writeLocked s { s.locked with arg0 := v }
  | .bBase k => writeLocked s (s.locked.setDesc k { s.locked.desc k with base := v })
  | .bLen k  => writeLocked s (s.locked.setDesc k { s.locked.desc k with len := v })
  | .id | .version | .caps | .dmemSize => s
  | .resReLo | .resReHi | .resImLo | .resImHi => s
  | .ctxCfg _ | .ctxN _ => s

end Sys2Proof.Machine
end

