-- ==== Sys2Proof/Machine/Bus.lean ====
section
/-! DEFINITION. The bus port (R61, R66 to R72, R75, R250): what one host transaction does, the CMD write (R243), the reset input
(R280, R281), and the two kinds of step, a host step and the engine's completion step (R253). -/

namespace Sys2Proof.Machine

/-- A region of the block's address map (R61). -/
inductive Region where
  | reg
  | dmem (a : Nat)
  | reserved
  deriving DecidableEq, Repr

/-- The block offset of the DMEM window (R61). -/
def dmemWindow : Nat := 0x1000000

/-- The region of a block offset (R61); in the DMEM window, with the DMEM offset. -/
def regionOf (q : Params) (off : Nat) : Region :=
  if off < 0x1000 then .reg
  else if dmemWindow ≤ off ∧ off < dmemWindow + q.dmemBytes then .dmem (off - dmemWindow)
  else .reserved

/-- The block offset of a host address, when the platform parameter BLOCK_BASE (R61, left open) is `blockBase`; an address below it
is none of the block's. -/
def blockOffset (blockBase hostAddress : Nat) : Option Nat :=
  if blockBase ≤ hostAddress then some (hostAddress - blockBase) else none

/-- REG accesses are 32 bits wide and 4-byte aligned (R66). -/
def regAccessOk (off width : Nat) : Bool := decide (width = 4 ∧ off % 4 = 0)

/-- DMEM accesses are 1, 2, 4 or 8 bytes wide, naturally aligned, with their last byte in DMEM (R70). -/
def dmemAccessOk (q : Params) (a width : Nat) : Bool :=
  decide ((width = 1 ∨ width = 2 ∨ width = 4 ∨ width = 8) ∧ a % width = 0 ∧ a + width ≤ q.dmemBytes)

/-- Answering a transaction. -/
def State.reply (s : State) (x : BusAnswer) : State := s.setAnswer (some x)

/-- The CMD write (R243): ignored with OVR set while BUSY; an illegal word ends with ILLEGAL (R97); a legal word is its
command's to issue. -/
def writeCmd (v : Word) (s : State) : Host.Outcome State Fault Refusal :=
  match s.engine with
  | .busy _ _ => .next (writeReg v s .cmd)
  | .idle =>
    match decodeWord v with
    | .ok i    => exec i s
    | .error _ => .next (issueCommand v (some ⟨.illegal, 0, 0⟩) s)

/-- A write to the REG region: a reserved offset ignores it (R67). -/
def writeOffset (off : Nat) (v : Word) (s : State) : Host.Outcome State Fault Refusal :=
  match Reg.ofOffset s.params off with
  | some .cmd => writeCmd v s
  | some r    => .next (writeReg v s r)
  | none      => .next s

/-- One bus transaction, answered at once (R75). A refused access changes nothing but the answer (R250). -/
def transact (op : BusOp) (s : State) : Host.Outcome State Fault Refusal :=
  match op with
  | .read off width =>
    match regionOf s.params off with
    | .reg =>
      if regAccessOk off width then .next (s.reply (.value ((readOffset s off).setWidth 64)))
      else .next (s.reply .busError)
    | .dmem a =>
      if dmemAccessOk s.params a width then
        .next ((s.setDraws (s.draws + width)).reply (.value (BitVec.ofNat 64 (s.dmem.load width a s.draws))))
      else .next (s.reply .busError)
    | .reserved => .next (s.reply .busError)
  | .write off width v =>
    match regionOf s.params off with
    | .reg =>
      if regAccessOk off width then writeOffset off (v.setWidth 32) (s.reply .written)
      else .next (s.reply .busError)
    | .dmem a =>
      if dmemAccessOk s.params a width then .next ((s.setDmem (s.dmem.store width a v.toNat)).reply .written)
      else .next (s.reply .busError)
    | .reserved => .next (s.reply .busError)

/-- The block offset of a transaction. -/
def BusOp.offset : BusOp → Nat
  | .read off _    => off
  | .write off _ _ => off

/-- A host DMEM access is held while BUSY (R72). -/
def HostEvent.held (q : Params) : HostEvent → Bool
  | .bus op =>
    match regionOf q op.offset with
    | .dmem _   => true
    | .reg      => false
    | .reserved => false
  | .wait   => false
  | .reset  => false

/-- The reset input (R280): every piece of the block's state takes its reset value, whatever the block was doing (R281). The
parameters are hardwired; the host's later transactions and the count of draws are not the block's. -/
def resetBlock (s : State) : State := ((State.resetWith s.params).setHost s.host).setDraws s.draws

/-- What the host does next, `rest` being what comes after it. A `WAIT` reads STATUS and is over when the value read has DONE
set (R102). -/
def hostStep (ev : HostEvent) (rest : List HostEvent) (s : State) : Host.Outcome State Fault Refusal :=
  match ev with
  | .bus op => transact op (s.setHost rest)
  | .wait   =>
    let s' := s.reply (.value (s.statusWord.setWidth 64))
    .next (if s.status.done then s'.setHost rest else s')
  | .reset  => .next (resetBlock (s.setHost rest))

/-- The engine's one step while BUSY, the completion (R244): the captured word's command runs to its end. -/
def completionStep (regs : LockedRegs) (s : State) : Host.Outcome State Fault Refusal :=
  match decodeWord regs.cmd with
  | .ok i    => exec i s
  | .error _ => .fault .acceptanceBroken

/-- One host step passes before the completion (R286). -/
def Engine.pass : Engine → Engine
  | .idle      => .idle
  | .busy r n  => .busy r (n - 1)

/-- Whose step is next while BUSY (R253, R286): the engine's, when no host step remains before the completion, when the host's
next access is held (R72), or when the host does nothing. DESIGN CHOICE (log entries 2 and 6): the spec does not say what becomes of
a held access when reset is asserted; here a reset that stands in the queue behind a held access never overtakes it, so the
completion comes first, then the access and its answer, then the reset. -/
def engineIsNext (s : State) (hostSteps : Nat) : Bool :=
  match s.host with
  | []      => true
  | ev :: _ => decide (hostSteps = 0) || ev.held s.params

/-- One step of the block and its host (R253): a host transaction, a completion, or, when the engine is IDLE and the host does
nothing, no change. -/
def blockStep (s : State) : Host.Outcome State Fault Refusal :=
  match s.engine with
  | .idle =>
    match s.host with
    | []         => .next s
    | ev :: rest => hostStep ev rest s
  | .busy regs n =>
    if engineIsNext s n then completionStep regs s
    else
      match s.host with
      | []         => .next s
      | ev :: rest => hostStep ev rest (s.setEngine s.engine.pass)

/-- Presenting a command word to the block: the engine IDLE, and the host's next transaction the write of the word to CMD. -/
def presentWord (v : Word) (s : State) : State :=
  (s.setEngine .idle).setHost (.bus (.write 0x018 4 (v.setWidth 64)) :: s.host)

end Sys2Proof.Machine
end

