-- ==== Sys2Proof/Machine/Step.lean ====
section
/-! DEFINITION. The step of the machine (R253), and how a command word is put where the next step takes it. -/

namespace Sys2Proof.Machine

/-- One step: one host transaction, or the engine's completion of the command it runs (R253). -/
def step (s : State) : Host.Outcome State Fault Refusal := blockStep s

/-- The state whose next step runs the command whose table bits are `w`: the block fetches nothing (R39), so the word is presented
as the host's next bus transaction, a write to CMD, at an IDLE engine. -/
def State.withFetchWord (s : State) (nbits w : Nat) : State := presentWord (BitVec.ofNat 32 (w % 2 ^ nbits)) s

end Sys2Proof.Machine
end

