-- ==== Sys2Proof/Machine/Program.lean ====
section
/-! DEFINITION. Host programs (R101 to R103): a program is a list of host events, and each pseudo-instruction is the list of bus
operations it expands to. -/

namespace Sys2Proof.Machine

/-- `WR <reg>, <value>` (R101). -/
def wr (r : Reg) (v : Word) : List HostEvent := [.bus (.write r.offset 4 (v.setWidth 64))]

/-- `RD <reg>` (R101). -/
def rd (r : Reg) : List HostEvent := [.bus (.read r.offset 4)]

/-- `WRM.<8·width> <off>, <value>`: DMEM offset `off` is block offset `0x1000000 + off` (R101). -/
def wrm (width off : Nat) (v : BitVec 64) : List HostEvent := [.bus (.write (0x1000000 + off) width v)]

/-- `RDM.<8·width> <off>` (R101). -/
def rdm (width off : Nat) : List HostEvent := [.bus (.read (0x1000000 + off) width)]

/-- `ISSUE <command>` (R102). -/
def issue (i : Instr) : List HostEvent := wr .cmd (encode i)

/-- `WAIT` (R102). -/
def wait : List HostEvent := [.wait]

/-- `CLEAR` (R102). -/
def clear : List HostEvent := wr .status 0x0000000E

/-- `BUF k, <base>, <len>` (R102). -/
def buf (k : Fin 4) (base len : Word) : List HostEvent := wr (.bBase k) base ++ wr (.bLen k) len

/-- `CFG.<KIND>.<P> c<n>, <N>` (R102), `i` the configuration command. -/
def cfg (i : Instr) (n : Word) : List HostEvent := wr .arg0 n ++ issue i ++ wait

/-- `RUN <command>` (R102). -/
def run (i : Instr) : List HostEvent := issue i ++ wait

/-- `FILL.<P> <off>, v0, v1, ...` (R102): one WRM.64 or WRM.32 for each value. -/
def fill (p : Prec) (off : Nat) : List (Fp p) → List HostEvent
  | []      => []
  | v :: vs => wrm (elemBytes p) off (BitVec.ofNat 64 v.toNat) ++ fill p (off + elemBytes p) vs

/-- The state in which the host is about to perform a program (R103). -/
def State.withProgram (s : State) (prog : List HostEvent) : State := s.setHost prog

end Sys2Proof.Machine
end

