-- ==== Sys2Proof/Machine/Acceptance.lean ====
section
/-! DEFINITION. The checks and the effect of a command as functions of the command, for the invariant and for claims about all
commands. Each names the same definitions the command's meaning names. -/

namespace Sys2Proof.Machine

/-- The checks a command makes at the CMD write (R243, R247), over the locked registers `r`. -/
def checkOf (i : Instr) (r : LockedRegs) (s : State) : Option CmdError :=
  match i with
  | .cfgFft c _   => checkCfgFft c r s
  | .cfgRfft c _  => checkCfgRfft c r s
  | .cfgGz c _    => checkCfgGz c r s
  | .cfgDht c _   => checkCfgDht c r s
  | .fftDir c p   => checkFftDir c p r s
  | .fftInv c p   => checkFftInv c p r s
  | .fftInvn c p  => checkFftInvn c p r s
  | .fftShift p   => checkFftShift p r s
  | .rfftDir c p  => checkRfftDir c p r s
  | .rfftDirc c p => checkRfftDirc c p r s
  | .rfftInv c p  => checkRfftInv c p r s
  | .rfftInvn c p => checkRfftInvn c p r s
  | .gzDir c p    => checkGzDir c p r s
  | .dhtDir c p   => checkDhtDir c p r s
  | .dhtInvn c p  => checkDhtInvn c p r s

/-- The "at completion" part of a command's rule (R244), over the captured registers `r`. -/
def effectOf (i : Instr) (r : LockedRegs) (s : State) : State :=
  match i with
  | .cfgFft c p   => configure c .fft p r s
  | .cfgRfft c p  => configure c .rfft p r s
  | .cfgGz c p    => configure c .gz p r s
  | .cfgDht c p   => configure c .dht p r s
  | .fftDir c p   => effectFftDir c p r s
  | .fftInv c p   => effectFftInv c p r s
  | .fftInvn c p  => effectFftInvn c p r s
  | .fftShift p   => effectFftShift p r s
  | .rfftDir c p  => effectRfftDir c p r s
  | .rfftDirc c p => effectRfftDirc c p r s
  | .rfftInv c p  => effectRfftInv c p r s
  | .rfftInvn c p => effectRfftInvn c p r s
  | .gzDir c p    => effectGzDir c p r s
  | .dhtDir c p   => effectDhtDir c p r s
  | .dhtInvn c p  => effectDhtInvn c p r s

/-- The descriptors a command writes, with the number of elements it writes to each (R96). -/
def writesOf (i : Instr) (r : LockedRegs) (s : State) : Uses :=
  let n := (s.slot i.ctx).size
  match i with
  | .cfgFft _ _ | .cfgRfft _ _ | .cfgGz _ _ | .cfgDht _ _ | .gzDir _ _ => []
  | .fftDir _ _ | .fftInv _ _ | .fftInvn _ _ => [(0, n), (1, n)]
  | .fftShift _ => [(0, r.b0.len.toNat)]
  | .rfftDir _ _ => [(1, n / 2 + 1), (2, n / 2 + 1)]
  | .rfftDirc _ _ => [(2, n), (3, n)]
  | .rfftInv _ _ | .rfftInvn _ _ => [(2, n)]
  | .dhtDir _ _ | .dhtInvn _ _ => [(0, n)]

/-- The configuration commands (R164, R166). -/
def isConfig : Instr → Bool
  | .cfgFft _ _ | .cfgRfft _ _ | .cfgGz _ _ | .cfgDht _ _ => true
  | .fftDir _ _ | .fftInv _ _ | .fftInvn _ _ | .fftShift _ => false
  | .rfftDir _ _ | .rfftDirc _ _ | .rfftInv _ _ | .rfftInvn _ _ => false
  | .gzDir _ _ | .dhtDir _ _ | .dhtInvn _ _ => false

/-- GZ_DIR is the one command that writes the result registers (R35). -/
def isGoertzel : Instr → Bool
  | .gzDir _ _ => true
  | .cfgFft _ _ | .cfgRfft _ _ | .cfgGz _ _ | .cfgDht _ _ | .fftDir _ _ | .fftInv _ _ | .fftInvn _ _ | .fftShift _ => false
  | .rfftDir _ _ | .rfftDirc _ _ | .rfftInv _ _ | .rfftInvn _ _ | .dhtDir _ _ | .dhtInvn _ _ => false

end Sys2Proof.Machine
end

