-- ==== Sys2Proof/Machine/Ideal.lean ====
section
/-! DEFINITION. The dataflow of the datapath units over any arithmetic. The rules R137 and R147 (and R185, R206, R222, R227, which
follow from them) say what the units compute WITH EXACT COEFFICIENTS AND EXACT OPERATIONS, and that the engine's results
approximate it. So the dataflow of each unit stands here once more with its arithmetic as an argument: at `roundedArith` it is the
engine's unit (`cascade_eq_flow` and the lemmas beside it in Laws/Ideal.lean), at `exactArith` (Safety.lean) it is the ideal one.
No meaning rests on this file. -/

namespace Sys2Proof.Machine

/-- What a dataflow is made of: the constants and operations on real values `α` (R14), and complex values `γ` as pairs of them
(R15). -/
structure Arith (α γ : Type) where
  zero : α
  two  : α
  add  : α → α → α
  sub  : α → α → α
  mul  : α → α → α
  neg  : α → α
  half : α → α
  cpx  : α → α → γ
  re   : γ → α
  im   : γ → α

/-- The engine's arithmetic: every operation rounded once (R14, R125). -/
def roundedArith (p : Prec) : Arith (Fp p) (Cpx p) :=
  { zero := 0, two := twoP p, add := fadd, sub := fsub, mul := fmul, neg := fneg, half := half, cpx := Cpx.mk, re := Cpx.re,
    im := Cpx.im }

variable {α γ : Type}

/-- The complex 0, and element `i` of a list of real and of complex values. -/
def Arith.czero (A : Arith α γ) : γ := A.cpx A.zero A.zero
def Arith.nth (A : Arith α γ) (a : List α) (i : Nat) : α := a.getD i A.zero
def Arith.cnth (A : Arith α γ) (z : List γ) (i : Nat) : γ := z.getD i A.czero

/-- The complex multiplier (R132) and the conjugate (R15). -/
def Arith.cmul (A : Arith α γ) (x y : γ) : γ :=
  A.cpx (A.sub (A.mul (A.re x) (A.re y)) (A.mul (A.im x) (A.im y))) (A.add (A.mul (A.re x) (A.im y)) (A.mul (A.im x) (A.re y)))
def Arith.conj (A : Arith α γ) (x : γ) : γ := A.cpx (A.re x) (A.neg (A.im x))

/-- The twiddle of R134, from the coefficients `tr k N` (TRIG of R120). -/
def flowTwiddle (A : Arith α γ) (tr : Nat → Nat → γ) (dir : Dir) (k n : Nat) : γ :=
  match dir with
  | .fwd => A.conj (tr k n)
  | .inv => tr k n

/-- The butterfly (R133). -/
def flowBfly (A : Arith α γ) (u v w : γ) : γ × γ :=
  let t := A.cmul v w
  (A.cpx (A.add (A.re u) (A.re t)) (A.add (A.im u) (A.im t)), A.cpx (A.sub (A.re u) (A.re t)) (A.sub (A.im u) (A.im t)))

/-- One stage of the cascade, and the cascade (R135). -/
def flowCascadeStage (A : Arith α γ) (tr : Nat → Nat → γ) (dir : Dir) (n s : Nat) (z : List γ) : List γ :=
  (List.range n).map fun i =>
    let j := i % 2 ^ s
    if j < 2 ^ (s - 1) then
      (flowBfly A (A.cnth z i) (A.cnth z (i + 2 ^ (s - 1))) (flowTwiddle A tr dir (j * (n / 2 ^ s)) n)).1
    else
      (flowBfly A (A.cnth z (i - 2 ^ (s - 1))) (A.cnth z i) (flowTwiddle A tr dir ((j - 2 ^ (s - 1)) * (n / 2 ^ s)) n)).2
def flowCascade (A : Arith α γ) (tr : Nat → Nat → γ) (dir : Dir) (n : Nat) (z : List γ) : List γ :=
  (List.range (Nat.log2 n)).foldl (fun z t => flowCascadeStage A tr dir n (t + 1) z)
    ((List.range n).map fun i => A.cnth z (bitrev (Nat.log2 n) i))

/-- PACK (R139). -/
def flowPack (A : Arith α γ) (x : List α) (n : Nat) : List γ :=
  (List.range (n / 2)).map fun i => A.cpx (A.nth x (2 * i)) (A.nth x (2 * i + 1))

/-- UNPACK (R140): one bin between 0 and M, and all of them. -/
def flowUnpackBin (A : Arith α γ) (a b t : γ) : γ :=
  let rs := A.half (A.add (A.re a) (A.re b))
  let is := A.half (A.add (A.im a) (A.im b))
  let rd := A.half (A.sub (A.re a) (A.re b))
  let id := A.half (A.sub (A.im a) (A.im b))
  A.cpx (A.sub (A.add rs (A.mul (A.re t) is)) (A.mul (A.im t) rd)) (A.sub (A.sub id (A.mul (A.re t) rd)) (A.mul (A.im t) is))
def flowUnpack (A : Arith α γ) (tr : Nat → Nat → γ) (n : Nat) (z : List γ) : List γ :=
  (List.range (n / 2 + 1)).map fun k =>
    if k = 0 then A.cpx (A.add (A.re (A.cnth z 0)) (A.im (A.cnth z 0))) A.zero
    else if k = n / 2 then A.cpx (A.sub (A.re (A.cnth z 0)) (A.im (A.cnth z 0))) A.zero
    else flowUnpackBin A (A.cnth z k) (A.cnth z (n / 2 - k)) (tr k n)

/-- REPACK (R141): one value, and all of them. -/
def flowRepackBin (A : Arith α γ) (x y t : γ) : γ :=
  let sr := A.add (A.re x) (A.re y)
  let di := A.sub (A.im x) (A.im y)
  let dr := A.sub (A.re x) (A.re y)
  let si := A.add (A.im x) (A.im y)
  A.cpx (A.sub (A.sub sr (A.mul dr (A.im t))) (A.mul si (A.re t))) (A.sub (A.add di (A.mul dr (A.re t))) (A.mul si (A.im t)))
def flowRepack (A : Arith α γ) (tr : Nat → Nat → γ) (n : Nat) (x : List γ) : List γ :=
  (List.range (n / 2)).map fun k => flowRepackBin A (A.cnth x k) (A.cnth x (n / 2 - k)) (tr k n)

/-- UNZIP (R142). -/
def flowUnzip (A : Arith α γ) (z : List γ) (n : Nat) : List α :=
  (List.range n).map fun i => if i % 2 = 0 then A.re (A.cnth z (i / 2)) else A.im (A.cnth z (i / 2))

/-- GSOS (R143). -/
def flowGsos (A : Arith α γ) (tr : Nat → Nat → γ) (n : Nat) (x : List α) (k : Nat) : γ :=
  let t := tr k n
  let s := x.foldl (fun s x => (A.sub (A.add x (A.mul (A.mul A.two (A.re t)) s.1)) s.2, s.1)) (A.zero, A.zero)
  A.cpx (A.sub (A.mul (A.re t) s.1) s.2) (A.mul (A.im t) s.1)

/-- One stage of HCASCADE, and HCASCADE (R144). -/
def flowHartleyStage (A : Arith α γ) (tr : Nat → Nat → γ) (n s : Nat) (a : List α) : List α :=
  (List.range n).map fun i =>
    let hlf := 2 ^ (s - 1)
    let g := i / 2 ^ s * 2 ^ s
    let k := i % 2 ^ s % hlf
    let w := tr (k * (n / 2 ^ s)) n
    let t := A.add (A.mul (A.nth a (g + hlf + k)) (A.re w)) (A.mul (A.nth a (g + hlf + (hlf - k) % hlf)) (A.im w))
    if i % 2 ^ s < hlf then A.add (A.nth a (g + k)) t else A.sub (A.nth a (g + k)) t
def flowHcascade (A : Arith α γ) (tr : Nat → Nat → γ) (n : Nat) (a : List α) : List α :=
  (List.range (Nat.log2 n)).foldl (fun a t => flowHartleyStage A tr n (t + 1) a)
    ((List.range n).map fun i => A.nth a (bitrev (Nat.log2 n) i))

/-- HDIRECT (R145), from the coefficients `cs m N` (CAS of R122). -/
def flowHdirect (A : Arith α γ) (cs : Nat → Nat → α) (n : Nat) (a : List α) : List α :=
  (List.range n).map fun k =>
    (List.range n).foldl (fun acc i => A.add acc (A.mul (A.nth a i) (cs (i * k % n) n))) A.zero

end Sys2Proof.Machine
end

