-- ==== Sys2Proof/Safety.lean ====
section
/-! DEFINITION. What claims call a good state: the invariants of the engine, in the spec's terms. -/

namespace Sys2Proof.Machine

/-- A slot meets the size constraint of its kind (R33). -/
abbrev Slot.sizeOk (q : Params) (x : Slot) : Prop :=
  1 ≤ x.size ∧ x.size ≤ q.nmax ∧
    match x.kind with
    | .empty => False
    | .fft   => isPow2 x.size = true
    | .rfft  => isPow2 x.size = true ∧ 2 ≤ x.size
    | .gz    => True
    | .dht   => True

/-- The invariant of a slot (R33); an invalid slot is still as reset left it (R31, R32: only a successful configuration command,
which sets VALID, changes a slot). -/
abbrev Slot.Inv (q : Params) (x : Slot) : Prop := if x.valid then x.sizeOk q else x = .empty

/-- What a BUSY engine is (R36, R243, R244): the captured registers equal the registers, they spell a command that passes its
checks, and the status is as the CMD write left it. -/
abbrev EngineInv (s : State) : Prop :=
  match s.engine with
  | .idle        => True
  | .busy regs _ =>
    regs = s.locked ∧
      (match decodeWord regs.cmd with
        | .ok i    => checkOf i regs s = none
        | .error _ => False) ∧
      s.status.done = false ∧ s.status.err = false ∧ s.status.errCode = .ok

/-- An error flag stands with a code (R240, R248). -/
abbrev StatusInv (x : Status) : Prop := x.err = true → x.errCode ≠ .ok

/-- The invariant of the whole machine. -/
structure State.Inv (s : State) : Prop where
  /-- The parameters are in the ranges of R9. -/
  params  : s.params.Legal
  /-- There are NCTX slots (R30). -/
  nslots  : s.ctxs.length = s.params.nctx
  /-- Every slot satisfies R33. -/
  slots   : ∀ x ∈ s.ctxs, x.Inv s.params
  /-- DMEM is in canonical form. -/
  memWf   : s.dmem.wf
  /-- DMEM holds no byte beyond its size (R60). -/
  memSize : s.dmem.within s.params.dmemBytes
  /-- A BUSY engine is running a command it accepted (R36, R244). -/
  engine  : EngineInv s
  /-- ERR stands with its code (R248). -/
  status  : StatusInv s.status

/-- Reading one byte of DMEM for claims about memory: the written byte, or none where nothing has been written. -/
def State.byte? (s : State) (a : Nat) : Option Byte := s.dmem.byteAt? a

/-- An address lies in the first `n` elements of descriptor `k` (R64). -/
abbrev inSpan (r : LockedRegs) (p : Prec) (k : Fin 4) (n a : Nat) : Prop :=
  (r.desc k).start ≤ a ∧ a < (r.desc k).start + elemBytes p * n

/-! ### Terms of the claims about commands -/

/-- The state a failed command leaves (R240): STATUS and CMD are written, and nothing else. -/
def failedState (w : Word) (e : CmdError) (s : State) : State :=
  { s with
    locked := { s.locked with cmd := w }
    status := { done := true, err := true, ovr := s.status.ovr, errCode := e.code, errA := BitVec.ofNat 4 e.a,
                errB := BitVec.ofNat 4 e.b } }

/-- The state an accepted command leaves (R243): CMD is written, the status is cleared but for OVR, the engine is BUSY with the
registers captured; `Config.freeLatency` is the free value of log entry 2. -/
def acceptedState (w : Word) (s : State) : State :=
  { s with
    locked := { s.locked with cmd := w }
    status := { done := false, err := false, ovr := s.status.ovr, errCode := .ok, errA := 0, errB := 0 }
    engine := .busy { s.locked with cmd := w } (Config.freeLatency s.draws)
    draws  := s.draws + 1 }

/-- The state a completed command leaves, but for the command's own effect (R244): IDLE, DONE set, ERR and ERRCODE clear. -/
def completedState (w : Word) (s : State) : State :=
  { s with
    locked := { s.locked with cmd := w }
    status := { done := true, err := false, ovr := s.status.ovr, errCode := .ok, errA := 0, errB := 0 }
    engine := .idle
    draws  := s.draws + 1 }

/-- A command that passes its checks in `s` is accepted, and its completion from there gives `t`. -/
def RunsTo (i : Instr) (s t : State) : Prop :=
  exec i s = .next (acceptedState (encode i) s) ∧ exec i (acceptedState (encode i) s) = .next t

/-- Slot `c` exists and holds a valid instance of this kind, precision and size (R246). -/
abbrev ContextIs (s : State) (c : Nat) (kind : Kind) (p : Prec) (n : Nat) : Prop :=
  c < s.params.nctx ∧ (s.slot c).valid = true ∧ (s.slot c).kind = kind ∧ (s.slot c).prec = p ∧ (s.slot c).size = n

/-- Descriptor `k` names `n` elements, aligned and within DMEM (R64, R242). -/
abbrev BufferIs (s : State) (p : Prec) (k : Fin 4) (n : Nat) : Prop :=
  (s.locked.desc k).len.toNat = n ∧ (s.locked.desc k).start % elemBytes p = 0 ∧
    (s.locked.desc k).start + elemBytes p * n ≤ s.params.dmemBytes

/-- The spans of descriptors `k` and `l` share no byte; an empty span shares none (R65). -/
abbrev Apart (s : State) (p : Prec) (k l : Fin 4) : Prop :=
  (s.locked.desc k).len.toNat = 0 ∨ (s.locked.desc l).len.toNat = 0 ∨
    (s.locked.desc k).start + elemBytes p * (s.locked.desc k).len.toNat ≤ (s.locked.desc l).start ∨
    (s.locked.desc l).start + elemBytes p * (s.locked.desc l).len.toNat ≤ (s.locked.desc k).start

/-- The elements of a buffer as draws from `t` on would read them (R64). -/
def bufferOf (s : State) (p : Prec) (k : Fin 4) (n t : Nat) : List (Fp p) :=
  s.dmem.loadElems p (s.locked.desc k).start n t

/-- DMEM after a list is stored in descriptor `k` (R64). -/
def stored (s : State) (k : Fin 4) {p : Prec} (v : List (Fp p)) (m : Memory) : Memory :=
  m.storeElems (s.locked.desc k).start v

/-- It is the host's turn: the engine is IDLE, or BUSY with a host step to pass before its completion (R286). -/
abbrev HostTurn (s : State) : Prop :=
  match s.engine with
  | .idle     => True
  | .busy _ n => n ≠ 0

/-- A register of the register file of an engine with these parameters (R21). -/
abbrev Reg.inFile (q : Params) : Reg → Prop
  | .ctxCfg c => c < q.nctx
  | .ctxN c   => c < q.nctx
  | _         => True

/-! ### Terms of the claims about numbers -/

/-- The exponent of the last place of the largest finite value of a format, and that value, in smallest subnormals (R124). -/
def topExp (p : Prec) : Nat := 2 ^ expBits p - 3
def maxMag (p : Prec) : Nat := (2 ^ (fracBits p + 1) - 1) * 2 ^ topExp p

/-- roundTiesToEven (R125): `v` is the format's value for the exact `±num / den` smallest subnormals. It is ∞ from half a last
place above the largest finite value on; below that it is finite, no finite value is nearer, and of two equally near it has an
even last bit. -/
def RoundsTo (p : Prec) (neg : Bool) (num den : Nat) (v : Fp p) : Prop :=
  if den * (2 * maxMag p + 2 ^ topExp p) ≤ 2 * num then classify v = .inf neg
  else
    ∃ m, classify v = .fin neg m ∧
      ∀ (w : Fp p) (neg' : Bool) (m' : Nat), classify w = .fin neg' m' →
        ((num : Int) - m * den).natAbs ≤ ((num : Int) - m' * den).natAbs ∧
          (((num : Int) - m * den).natAbs = ((num : Int) - m' * den).natAbs → m' ≠ m → v.toNat % 2 = 0)

/-! ### Terms of the claims about ideal results -/

/-- Exact arithmetic: real numbers, no rounding (R137, R147). -/
noncomputable def exactArith : Arith ℝ ℂ :=
  { zero := 0, two := 2, add := fun x y => x + y, sub := fun x y => x - y, mul := fun x y => x * y, neg := fun x => -x
    half := fun x => x / 2, cpx := Complex.mk, re := Complex.re, im := Complex.im }

/-- The exact coefficients that TRIG_P and CAS_P round (R120, R122). -/
noncomputable def exactTrig (k n : Nat) : ℂ := ⟨Real.cos (2 * Real.pi * k / n), Real.sin (2 * Real.pi * k / n)⟩
noncomputable def exactCas (m n : Nat) : ℝ := Real.cos (2 * Real.pi * m / n) + Real.sin (2 * Real.pi * m / n)

/-- Output `k` of the DFT of size `n` (R137): `Σ x[i]·e^(-j2πki/n)` forward, `Σ x[i]·e^(+j2πki/n)` inverse. -/
noncomputable def dftBin (dir : Dir) (n : Nat) (x : List ℂ) (k : Nat) : ℂ :=
  ∑ i ∈ Finset.range n, x.getD i 0 *
    Complex.exp ((match dir with | .fwd => -1 | .inv => 1) * (2 * Real.pi * k * i / n) * Complex.I)
noncomputable def dft (dir : Dir) (n : Nat) (x : List ℂ) : List ℂ := (List.range n).map (dftBin dir n x)

/-- The discrete Hartley transform of size `n` (R147): `H[k] = Σ x[i]·cas(2πik/n)`. -/
noncomputable def dht (n : Nat) (x : List ℝ) : List ℝ :=
  (List.range n).map fun k => ∑ i ∈ Finset.range n, x.getD i 0 * exactCas (i * k) n

end Sys2Proof.Machine
end

