-- ==== Sys2Proof/Certificates/Slice0/Obligations.lean ====
section
/-! DEFINITION. The statements for the provers. Each docstring names the rules of spec/ it rests on. A statement about a free
value (`Config.freeByte`, `Config.freeLatency`: log entries 1 and 2) holds whatever that value is. What is the model's own and no
rule's, wherever it stands in a statement: the counter `draws`, and with it the draws that `acceptedState`, `completedState` and
`bufferOf` name (log entries 1, 2); the count of host steps in a BUSY engine, `Engine.pass`, `HostTurn` and `engineIsNext` (log
entries 2, 6); the scaled values the coefficients are rounded from (log entry 3); the parameters as data (log entry 4); the queue
`host`, the `answer` and `withFetchWord` (log entry 5); reset as an event of the queue (log entry 6); which accesses are held (log
entry 7); `WAIT` as one event of the queue (log entry 12); `exec` as both the CMD write and the completion (log entry 13); programs
as data (log entry 15). -/

namespace Sys2Proof.Machine

/-! ## Terms of single statements -/

/-- The descriptors a command uses with the lengths they must have, in the order of its rule (R96); `n` is the context's size. -/
def specUses (i : Instr) (n : Nat) (s : State) : List (Fin 4 × Nat) :=
  match i with
  | .cfgFft _ _ | .cfgRfft _ _ | .cfgGz _ _ | .cfgDht _ _ => []
  | .fftDir _ _ | .fftInv _ _ | .fftInvn _ _ => [(0, n), (1, n)]
  | .fftShift _ => [(0, s.locked.b0.len.toNat)]
  | .rfftDir _ _ => [(0, n), (1, n / 2 + 1), (2, n / 2 + 1)]
  | .rfftDirc _ _ => [(0, n), (1, n), (2, n), (3, n)]
  | .rfftInv _ _ | .rfftInvn _ _ => [(0, n / 2 + 1), (1, n / 2 + 1), (2, n)]
  | .gzDir _ _ | .dhtDir _ _ | .dhtInvn _ _ => [(0, n)]

/-- The pairs (x, y) of a list with x before y, in increasing order. -/
def pairsOf {α : Type} : List α → List (α × α)
  | []      => []
  | x :: xs => xs.map (fun y => (x, y)) ++ pairsOf xs

/-- The buffer errors of R242 in the order they are tested, each with whether its condition holds. -/
def bufferErrors (p : Prec) (s : State) (u : List (Fin 4 × Nat)) : List (Bool × CmdError) :=
  u.map (fun x => (decide ((s.locked.desc x.1).len.toNat ≠ x.2), ⟨.len, x.1, 0⟩)) ++
    u.map (fun x => (decide ((s.locked.desc x.1).base.toNat % elemBytes p ≠ 0), ⟨.align, x.1, 0⟩)) ++
    u.map (fun x => (decide (s.params.dmemBytes <
      (s.locked.desc x.1).base.toNat + elemBytes p * (s.locked.desc x.1).len.toNat), ⟨.range, x.1, 0⟩)) ++
    (pairsOf u).map (fun x => (decide (¬ Apart s p x.1.1 x.2.1), ⟨.overlap, x.1.1, x.2.1⟩))

/-- The kind of context a transform command requires (R96). -/
def specKind : Instr → Kind
  | .cfgFft _ _ | .fftDir _ _ | .fftInv _ _ | .fftInvn _ _ => .fft
  | .cfgRfft _ _ | .rfftDir _ _ | .rfftDirc _ _ | .rfftInv _ _ | .rfftInvn _ _ => .rfft
  | .cfgGz _ _ | .gzDir _ _ => .gz
  | .cfgDht _ _ | .dhtDir _ _ | .dhtInvn _ _ => .dht
  | .fftShift _ => .empty

/-- A size a kind does not accept (R160 to R163). -/
def badSize (kind : Kind) (q : Params) (n : Nat) : Bool :=
  decide (n = 0) || decide (2 ^ q.log2Nmax < n) ||
    match kind with
    | .fft         => !isPow2 n
    | .rfft        => !isPow2 n || !isPow2 (n / 2)
    | .gz          => false
    | .dht         => false
    | .empty       => false

/-- Every error a command can report, in the order R247 tests them, each with whether its condition holds. -/
def specErrors (i : Instr) (s : State) : List (Bool × CmdError) :=
  let n := (s.slot i.ctx).size
  let ctxRange : Bool × CmdError := (decide (s.params.nctx ≤ i.ctx), ⟨.ctxRange, 0, 0⟩)
  let context : List (Bool × CmdError) :=
    [ctxRange, (!(s.slot i.ctx).valid, ⟨.notConfigured, 0, 0⟩),
      (decide ((s.slot i.ctx).kind ≠ specKind i), ⟨.kind, 0, 0⟩), (decide ((s.slot i.ctx).prec ≠ i.prec), ⟨.prec, 0, 0⟩)]
  let buffers := bufferErrors i.prec s (specUses i n s)
  match i with
  | .cfgFft _ _ | .cfgRfft _ _ | .cfgGz _ _ | .cfgDht _ _ =>
    [ctxRange, (badSize (specKind i) s.params s.locked.arg0.toNat, ⟨.size, 0, 0⟩)]
  | .fftShift _ => (decide (s.locked.b0.len.toNat % 2 = 1), ⟨.parity, 0, 0⟩) :: buffers
  | .gzDir _ _ => context ++ (decide (n ≤ s.locked.arg0.toNat), ⟨.bin, 0, 0⟩) :: buffers
  | .fftDir _ _ | .fftInv _ _ | .fftInvn _ _ | .rfftDir _ _ | .rfftDirc _ _ | .rfftInv _ _ | .rfftInvn _ _ | .dhtDir _ _
  | .dhtInvn _ _ => context ++ buffers

/-- The registers a host write finds locked while BUSY: CMD, ARG0, and every Bk_BASE and Bk_LEN (R37). -/
abbrev lockedOffset (off : Nat) : Prop := 0x018 ≤ off ∧ off ≤ 0x03C ∧ off % 4 = 0

/-- The word of a command: the OP of R94, CTX from bit 8 up, PREC in bit 12 (R99). -/
def specWord : Instr → Nat
  | .cfgFft c p   => 0x01 + 2 ^ 8 * c + precBit p
  | .cfgRfft c p  => 0x02 + 2 ^ 8 * c + precBit p
  | .cfgGz c p    => 0x03 + 2 ^ 8 * c + precBit p
  | .cfgDht c p   => 0x04 + 2 ^ 8 * c + precBit p
  | .fftDir c p   => 0x05 + 2 ^ 8 * c + precBit p
  | .fftInv c p   => 0x06 + 2 ^ 8 * c + precBit p
  | .fftInvn c p  => 0x07 + 2 ^ 8 * c + precBit p
  | .fftShift p   => 0x08 + precBit p
  | .rfftDir c p  => 0x09 + 2 ^ 8 * c + precBit p
  | .rfftDirc c p => 0x0A + 2 ^ 8 * c + precBit p
  | .rfftInv c p  => 0x0B + 2 ^ 8 * c + precBit p
  | .rfftInvn c p => 0x0C + 2 ^ 8 * c + precBit p
  | .gzDir c p    => 0x0D + 2 ^ 8 * c + precBit p
  | .dhtDir c p   => 0x0E + 2 ^ 8 * c + precBit p
  | .dhtInvn c p  => 0x0F + 2 ^ 8 * c + precBit p
where
  precBit : Prec → Nat
    | .f32 => 0
    | .f64 => 2 ^ 12

/-- The offset of every register, as the map of R21 lists it. -/
def specOffset : Reg → Nat
  | .id       => 0x000
  | .version  => 0x004
  | .caps     => 0x008
  | .dmemSize => 0x00C
  | .ctrl     => 0x010
  | .status   => 0x014
  | .cmd      => 0x018
  | .arg0     => 0x01C
  | .bBase 0  => 0x020
  | .bLen 0   => 0x024
  | .bBase 1  => 0x028
  | .bLen 1   => 0x02C
  | .bBase 2  => 0x030
  | .bLen 2   => 0x034
  | .bBase 3  => 0x038
  | .bLen 3   => 0x03C
  | .resReLo  => 0x040
  | .resReHi  => 0x044
  | .resImLo  => 0x048
  | .resImHi  => 0x04C
  | .ctxCfg c => 0x080 + 8 * c
  | .ctxN c   => 0x084 + 8 * c

/-- The error codes of R241. -/
def specErrCode : ErrCode → Nat
  | .ok            => 0x00
  | .illegal       => 0x01
  | .ctxRange      => 0x02
  | .size          => 0x03
  | .notConfigured => 0x04
  | .kind          => 0x05
  | .prec          => 0x06
  | .len           => 0x07
  | .align         => 0x08
  | .range         => 0x09
  | .overlap       => 0x0A
  | .parity        => 0x0B
  | .bin           => 0x0C

/-- The values of KIND (R30). -/
def specKindCode : Kind → Nat
  | .empty => 0
  | .fft   => 1
  | .rfft  => 2
  | .gz    => 3
  | .dht   => 4

/-- `ES(P)`, the bytes of an element (R63). -/
def specElemBytes : Prec → Nat
  | .f32 => 4
  | .f64 => 8

/-- The patterns of 1, 2 and 0.5 (R124). -/
def specOne : (p : Prec) → Fp p
  | .f32 => (0x3F800000 : BitVec 32)
  | .f64 => (0x3FF0000000000000 : BitVec 64)
def specTwo : (p : Prec) → Fp p
  | .f32 => (0x40000000 : BitVec 32)
  | .f64 => (0x4000000000000000 : BitVec 64)
def specHalf : (p : Prec) → Fp p
  | .f32 => (0x3F000000 : BitVec 32)
  | .f64 => (0x3FE0000000000000 : BitVec 64)

/-- One butterfly of the cascade's loop (R132 to R135), in place on the pair (p, q) = (g + j, g + j + half). -/
def loopButterfly {p : Prec} (dir : Dir) (n stride hlf g : Nat) (z : List (Cpx p)) (j : Nat) : List (Cpx p) :=
  let c := (trig p (j * stride) n).re
  let sn :=
    match dir with
    | .fwd => fneg (trig p (j * stride) n).im
    | .inv => (trig p (j * stride) n).im
  let u := cat0 z (g + j)
  let v := cat0 z (g + j + hlf)
  let tr := fsub (fmul v.re c) (fmul v.im sn)
  let ti := fadd (fmul v.re sn) (fmul v.im c)
  (z.set (g + j) ⟨fadd u.re tr, fadd u.im ti⟩).set (g + j + hlf) ⟨fsub u.re tr, fsub u.im ti⟩

/-- One stage of the loop (R135): groups in order, butterflies of a group in order, each in place. -/
def loopStage {p : Prec} (dir : Dir) (n s : Nat) (z : List (Cpx p)) : List (Cpx p) :=
  (List.range (n / 2 ^ s)).foldl (fun z t =>
    (List.range (2 ^ (s - 1))).foldl (loopButterfly dir n (n / 2 ^ s) (2 ^ (s - 1)) (t * 2 ^ s)) z) z

/-- The loop of R135. -/
def loopCascade {p : Prec} (dir : Dir) (n : Nat) (z : List (Cpx p)) : List (Cpx p) :=
  (List.range (Nat.log2 n)).foldl (fun z t => loopStage dir n (t + 1) z) (bitrevCpx z n)

/-- One step of the Hartley loop (R144): reads the previous stage `a`, writes the new one `b`. -/
def loopHartleyPair {p : Prec} (n stride hlf g : Nat) (a b : List (Fp p)) (k : Nat) : List (Fp p) :=
  let kk := (hlf - k) % hlf
  let w := trig p (k * stride) n
  let t := fadd (fmul (at0 a (g + hlf + k)) w.re) (fmul (at0 a (g + hlf + kk)) w.im)
  (b.set (g + k) (fadd (at0 a (g + k)) t)).set (g + hlf + k) (fsub (at0 a (g + k)) t)

/-- One stage of the loop of R144. -/
def loopHartleyStage {p : Prec} (n s : Nat) (a : List (Fp p)) : List (Fp p) :=
  (List.range (n / 2 ^ s)).foldl (fun b t =>
    (List.range (2 ^ (s - 1))).foldl (loopHartleyPair n (n / 2 ^ s) (2 ^ (s - 1)) (t * 2 ^ s) a) b) a

/-- The loop of R144. -/
def loopHartley {p : Prec} (n : Nat) (a : List (Fp p)) : List (Fp p) :=
  (List.range (Nat.log2 n)).foldl (fun a t => loopHartleyStage n (t + 1) a) (bitrevList a n)

/-- The loop of R143 over the samples, and its closing form. -/
def loopGoertzel {p : Prec} (n : Nat) (x : List (Fp p)) (k : Nat) : Cpx p :=
  let w := trig p k n
  let s := (List.range n).foldl (fun (s : Fp p × Fp p) i =>
    (fsub (fadd (at0 x i) (fmul (fmul (specTwo p) w.re) s.1)) s.2, s.1)) (0, 0)
  ⟨fsub (fmul w.re s.1) s.2, fmul w.im s.1⟩

/-- Bin `k`, `0 < k < M`, of the loop of R140, from `Z[k]`, `Z[M-k]` and `TRIG_P(k, N)`. -/
def loopUnpackBin {p : Prec} (a b w : Cpx p) : Cpx p :=
  let rs := fmul (specHalf p) (fadd a.re b.re)
  let is := fmul (specHalf p) (fadd a.im b.im)
  let rd := fmul (specHalf p) (fsub a.re b.re)
  let id := fmul (specHalf p) (fsub a.im b.im)
  ⟨fsub (fadd rs (fmul w.re is)) (fmul w.im rd), fsub (fsub id (fmul w.re rd)) (fmul w.im is)⟩

/-- Element `k` of the loop of R141, from bins `k` and `M-k` and `TRIG_P(k, N)`. -/
def loopRepackBin {p : Prec} (x y w : Cpx p) : Cpx p :=
  ⟨fsub (fsub (fadd x.re y.re) (fmul (fsub x.re y.re) w.im)) (fmul (fadd x.im y.im) w.re),
    fsub (fadd (fsub x.im y.im) (fmul (fsub x.re y.re) w.re)) (fmul (fadd x.im y.im) w.im)⟩

end Sys2Proof.Machine

open Sys2Proof Sys2Proof.Machine

/-! ## Encoding -/

/-- R90, R94, R99: the decoder gives back every well-formed command from its word, and from its four bytes whatever follows. -/
def Obligations.DecodeOfEncodeIsTheCommand : Prop :=
  ∀ (i : Instr) (rest : List Byte), i.WellFormed →
    decodeWord (encode i) = .ok i ∧ decode (bytesOfWord (encode i) ++ rest) = .ok (i, rest)

/-- R95, R99: a word that decodes is the word of the command it decodes to, and that command is well formed: no two words spell
one command and no bit of a legal word is dropped. -/
def Obligations.EncodeOfDecodeIsTheWord : Prop :=
  ∀ (w : Word) (i : Instr), decodeWord w = .ok i → encode i = w ∧ i.WellFormed

/-- R97, R243: exactly the legal words decode, and writing any other word to CMD while not BUSY completes at once with ILLEGAL and
changes nothing else; over the bus, once the transaction has left the host's queue and been answered (the queue is the model's:
log entry 5). -/
def Obligations.ExactlyTheLegalWordsAreCommands : Prop :=
  ∀ w : Word,
    ((∃ i, decodeWord w = .ok i) ↔
      w.extractLsb' 5 3 = 0 ∧ w.extractLsb' 13 19 = 0 ∧ 1 ≤ (w.extractLsb' 0 5).toNat ∧ (w.extractLsb' 0 5).toNat ≤ 15 ∧
        ((w.extractLsb' 0 5).toNat ≠ 8 ∨ w.extractLsb' 8 4 = 0)) ∧
    ((∀ i, decodeWord w ≠ .ok i) → ∀ s : State, s.engine = .idle →
      writeCmd w s = .next (failedState w ⟨.illegal, 0, 0⟩ s) ∧
        (failedState w ⟨.illegal, 0, 0⟩ s).statusWord.extractLsb' 8 8 = 0x01 ∧
        ∀ (v : BitVec 64) (rest : List HostEvent), v.setWidth 32 = w → s.host = .bus (.write 0x018 4 v) :: rest →
          step s = .next (failedState w ⟨.illegal, 0, 0⟩ { s with host := rest, answer := some .written }))

/-- R95: a word selects the row of the opcode table that its decoding names, and no other word selects it. -/
def Obligations.MaskAndPatternSelectTheCommand : Prop :=
  ∀ (w : Word) (m : String),
    (∃ i, decodeWord w = .ok i ∧ i.mnemonic = m) ↔ ∃ row ∈ opTable, row.mnemonic = m ∧ w &&& row.mask = row.pattern

/-- R99, R94, R100 to R102: the worked encodings decode to the commands they stand for, and the illegal words are rejected by name; the
word of every command is `OP | CTX << 8 | PREC << 12`, which the assembler emits, rejecting a context above 15; and what each bus
operation and pseudo-instruction of a program is, a program being the model's list of host events (log entries 12, 15). -/
def Obligations.WorkedEncodingsAndExpansions : Prop :=
  (∀ i : Instr, (i.WellFormed → (encode i).toNat = specWord i ∧ assemble i = some (encode i)) ∧
      (15 < i.ctx → assemble i = none)) ∧
    (∀ (x : Reg) (v : Word), wr x v = [.bus (.write (specOffset x) 4 (v.setWidth 64))] ∧
      rd x = [.bus (.read (specOffset x) 4)]) ∧
    (∀ (width off : Nat) (v : BitVec 64), wrm width off v = [.bus (.write (0x1000000 + off) width v)] ∧
      rdm width off = [.bus (.read (0x1000000 + off) width)]) ∧
    (∀ (i : Instr) (n : Word), issue i = [.bus (.write 0x018 4 ((encode i).setWidth 64))] ∧ run i = issue i ++ [.wait] ∧
      cfg i n = .bus (.write 0x01C 4 (n.setWidth 64)) :: issue i ++ [.wait]) ∧
    wait = [.wait] ∧ clear = [.bus (.write 0x014 4 0x0000000E)] ∧
    (∀ (k : Fin 4) (base len : Word), buf k base len =
      [.bus (.write (specOffset (.bBase k)) 4 (base.setWidth 64)), .bus (.write (specOffset (.bLen k)) 4 (len.setWidth 64))]) ∧
    (∀ (p : Prec) (off : Nat) (v : List (Fp p)), (fill p off v).length = v.length ∧
      ∀ i < v.length, (fill p off v)[i]? =
        some (.bus (.write (0x1000000 + (off + specElemBytes p * i)) (specElemBytes p) (BitVec.setWidth 64 (at0 v i))))) ∧
  decodeWord 0x00000001 = .ok (.cfgFft 0 .f32) ∧ decodeWord 0x00001001 = .ok (.cfgFft 0 .f64) ∧
    decodeWord 0x00001005 = .ok (.fftDir 0 .f64) ∧ decodeWord 0x00001105 = .ok (.fftDir 1 .f64) ∧
    decodeWord 0x00000207 = .ok (.fftInvn 2 .f32) ∧ decodeWord 0x00001008 = .ok (.fftShift .f64) ∧
    decodeWord 0x00001309 = .ok (.rfftDir 3 .f64) ∧ decodeWord 0x0000010D = .ok (.gzDir 1 .f32) ∧
    decodeWord 0x0000100F = .ok (.dhtInvn 0 .f64) ∧ decodeWord 0x00000000 = .error (.reservedOp 0) ∧
    decodeWord 0x00000010 = .error (.reservedOp 16) ∧ decodeWord 0x00000025 = .error .rsv0NotZero ∧
    decodeWord 0x00002005 = .error .rsv1NotZero ∧ decodeWord 0x00000108 = .error .shiftCtxNotZero

/-! ## Reset, invariants, steps -/

/-- R280: what reset leaves, read through the register file, for every choice of the parameters. -/
def Obligations.ResetValuesOfEveryRegister : Prop :=
  ∀ q : Params,
    let s := State.resetWith q
    readReg s .id = 0x5446574E ∧ readReg s .version = 1 ∧ readReg s .caps = capsWord q ∧
      readReg s .dmemSize = BitVec.ofNat 32 q.dmemBytes ∧ readReg s .ctrl = 0 ∧ readReg s .status = 0 ∧
      readReg s .cmd = 0 ∧ readReg s .arg0 = 0 ∧ (∀ k, readReg s (.bBase k) = 0 ∧ readReg s (.bLen k) = 0) ∧
      readReg s .resReLo = 0 ∧ readReg s .resReHi = 0 ∧ readReg s .resImLo = 0 ∧ readReg s .resImHi = 0 ∧
      (∀ c, readReg s (.ctxCfg c) = 0 ∧ readReg s (.ctxN c) = 0) ∧ s.engine = .idle ∧ s.irq = false ∧
      (∀ a, s.byte? a = none)

/-- R280, R281: the reset input, when it comes in the host's turn and whatever the engine is doing, leaves the reset state of the
engine's parameters; a command that was running is gone, and DONE is not set for it. The model's choice, log entry 6: reset is one
event of the host's queue, the rest of the queue and the count of draws are kept, and the answer becomes none. A reset at the head
of the queue in the engine's turn is not this statement's: the completion comes first. -/
def Obligations.ResetAbandonsTheRunningCommand : Prop :=
  ∀ (s : State) (rest : List HostEvent), HostTurn s → s.host = .reset :: rest →
    step s = .next { State.resetWith s.params with host := rest, draws := s.draws }

/-- The reset state meets the invariant, for every legal choice of the parameters (R9, R32, R33, R280). -/
def Obligations.ResetStateMeetsTheInvariant : Prop := ∀ q : Params, q.Legal → (State.resetWith q).Inv

/-- THE INVARIANT: from every state that meets it, reached or not, every step leads to a state that meets it. It holds the legal
parameters, the slot constraints of R33, the canonical form and the size of DMEM, and what a BUSY engine is (R36, R244). -/
def Obligations.EveryStepKeepsTheInvariant : Prop :=
  ∀ s t : State, s.Inv → step s = .next t → t.Inv

/-- R244, R245: a state that meets the invariant never stops: no step of it faults or is refused. -/
def Obligations.GoodStatesAlwaysStep : Prop :=
  ∀ s : State, s.Inv → ∃ t, step s = .next t

/-- A step runs the decoded command: the write of a legal word to CMD at an IDLE engine is exec of its command, once the
transaction has left the queue and been answered (R243); the completion step of a BUSY engine is exec of the command whose word it
captured (R244); and the step of `s.withFetchWord nbits w`, which sets the engine IDLE and puts the write of the word to CMD at the
head of the queue, is exec of the command that word decodes to. The model's choice: the queue and `withFetchWord` (log entry 5), and
that exec is both the CMD write and the completion (log entry 13). -/
def Obligations.StepRunsTheDecodedCommand : Prop :=
  (∀ (s : State) (v : BitVec 64) (rest : List HostEvent) (i : Instr), s.engine = .idle →
    s.host = .bus (.write 0x018 4 v) :: rest → decodeWord (v.setWidth 32) = .ok i →
    step s = exec i { s with host := rest, answer := some .written }) ∧
  (∀ (s : State) (r : LockedRegs) (n : Nat) (i : Instr), s.engine = .busy r n → engineIsNext s n = true →
    decodeWord r.cmd = .ok i → step s = exec i s) ∧
  (∀ (s : State) (nbits w : Nat) (i : Instr), nbits ≤ 32 → decodeTableWord nbits w = some i →
    step (s.withFetchWord nbits w) = exec i { s with engine := .idle, answer := some .written })

/-- R245, R286: every command the engine is running completes, or is abandoned by a reset: after at most one more step than the
host steps its latency lets pass the engine is IDLE, whatever the host does and whatever the latency is. -/
def Obligations.EveryAcceptedCommandCompletes : Prop :=
  ∀ (s : State) (r : LockedRegs) (n : Nat), s.Inv → s.engine = .busy r n →
    ∃ k t, k ≤ n + 1 ∧ Host.Core.run core k s = .next t ∧ t.engine = .idle

/-! ## Checks and failures -/

/-- R247, R246, R242: at an IDLE engine an illegal word reports ILLEGAL, and a command the first error, in the order of these
rules, whose condition holds; then only STATUS and CMD change (R240). When no condition holds the command is accepted (R243; the
latency it is accepted with is the free value of log entry 2). Over the bus the transaction has left the host's queue and been
answered (log entry 5); StepRunsTheDecodedCommand says so of the legal words. -/
def Obligations.FirstFailingCheckIsReported : Prop :=
  ∀ s : State, s.engine = .idle →
    (∀ w, (∀ i, decodeWord w ≠ .ok i) → writeCmd w s = .next (failedState w ⟨.illegal, 0, 0⟩ s)) ∧
    (∀ (v : BitVec 64) (rest : List HostEvent), (∀ i, decodeWord (v.setWidth 32) ≠ .ok i) →
      s.host = .bus (.write 0x018 4 v) :: rest →
      step s = .next (failedState (v.setWidth 32) ⟨.illegal, 0, 0⟩ { s with host := rest, answer := some .written })) ∧
    ∀ i, exec i s =
      .next (match (specErrors i s).find? (fun x => x.1) with
        | some x => failedState (encode i) x.2 s
        | none   => acceptedState (encode i) s)

/-- R165: no command but a configuration command ever fails with SIZE. -/
def Obligations.TransformsNeverFailWithSize : Prop :=
  ∀ (i : Instr) (s t : State), s.engine = .idle → isConfig i = false → exec i s = .next t → t.status.errCode ≠ .size

/-! ## The commands: what each does when its checks pass -/

/-- R160 to R164: each configuration command whose slot exists and whose size its kind accepts completes, and its whole effect is
the new content of its slot. -/
def Obligations.ConfigurationCommandsSetTheirSlot : Prop :=
  ∀ (c : Nat) (p : Prec) (s : State), s.engine = .idle → c < s.params.nctx → 1 ≤ s.locked.arg0.toNat →
    s.locked.arg0.toNat ≤ 2 ^ s.params.log2Nmax →
    let slot := fun kind => s.ctxs.set c { valid := true, kind := kind, prec := p, n := s.locked.arg0 }
    ((∃ b, s.locked.arg0.toNat = 2 ^ b) →
      RunsTo (.cfgFft c p) s { completedState (encode (.cfgFft c p)) s with ctxs := slot .fft }) ∧
    ((∃ b, s.locked.arg0.toNat = 2 ^ (b + 1)) →
      RunsTo (.cfgRfft c p) s { completedState (encode (.cfgRfft c p)) s with ctxs := slot .rfft }) ∧
    RunsTo (.cfgGz c p) s { completedState (encode (.cfgGz c p)) s with ctxs := slot .gz } ∧
    RunsTo (.cfgDht c p) s { completedState (encode (.cfgDht c p)) s with ctxs := slot .dht }

/-- R180 to R182: FFT_DIR, FFT_INV and FFT_INVN complete when the context is a valid FFT slot of their precision and B0 and B1 name
two separate buffers of its size; each replaces the two buffers by its transform of them and changes nothing else. -/
def Obligations.ComplexFftCommandsTransformInPlace : Prop :=
  ∀ (c : Nat) (p : Prec) (n : Nat) (s : State), s.engine = .idle → ContextIs s c .fft p n → BufferIs s p 0 n →
    BufferIs s p 1 n → Apart s p 0 1 →
    let z := List.zipWith Cpx.mk (bufferOf s p 0 n (s.draws + 1)) (bufferOf s p 1 n (s.draws + 1 + elemBytes p * n))
    let after := fun (i : Instr) (y : List (Cpx p)) =>
      { completedState (encode i) s with
        dmem := stored s 1 (y.map Cpx.im) (stored s 0 (y.map Cpx.re) s.dmem)
        draws := s.draws + 1 + elemBytes p * n + elemBytes p * n }
    let inverse := cascade .inv n z
    RunsTo (.fftDir c p) s (after (.fftDir c p) (cascade .fwd n z)) ∧
      RunsTo (.fftInv c p) s (after (.fftInv c p) inverse) ∧
      RunsTo (.fftInvn c p) s (after (.fftInvn c p)
        (inverse.map fun v => ⟨fdiv v.re (ofNatP p n), fdiv v.im (ofNatP p n)⟩))

/-- R183: FFT_SHIFT completes when B0 names an even number of elements, aligned and in range; it swaps the two halves of the
array and changes nothing else, and needs no context. -/
def Obligations.FftShiftSwapsTheHalves : Prop :=
  ∀ (p : Prec) (h : Nat) (s : State), s.engine = .idle → BufferIs s p 0 (2 * h) →
    let a := bufferOf s p 0 (2 * h) (s.draws + 1)
    RunsTo (.fftShift p) s
      { completedState (encode (.fftShift p)) s with
        dmem := stored s 0 (a.drop h ++ a.take h) s.dmem
        draws := s.draws + 1 + elemBytes p * (2 * h) }

/-- R200: RFFT_DIR writes the one-sided spectrum of B0 to B1 (real parts) and B2 (imaginary parts), and changes nothing else. -/
def Obligations.RfftDirWritesTheOneSidedSpectrum : Prop :=
  ∀ (c : Nat) (p : Prec) (n : Nat) (s : State), s.engine = .idle → ContextIs s c .rfft p n → BufferIs s p 0 n →
    BufferIs s p 1 (n / 2 + 1) → BufferIs s p 2 (n / 2 + 1) → Apart s p 0 1 → Apart s p 0 2 → Apart s p 1 2 →
    let x := unpack n (cascade .fwd (n / 2) (pack (bufferOf s p 0 n (s.draws + 1)) n))
    RunsTo (.rfftDir c p) s
      { completedState (encode (.rfftDir c p)) s with
        dmem := stored s 2 (x.map Cpx.im) (stored s 1 (x.map Cpx.re) s.dmem)
        draws := s.draws + 1 + elemBytes p * n }

/-- R201: RFFT_DIRC writes to B2 and B3 the combination of the half-size transforms of the even and the odd elements of the complex
sequence in B0 and B1, and changes nothing else. -/
def Obligations.RfftDircCombinesTheHalfTransforms : Prop :=
  ∀ (c : Nat) (p : Prec) (n : Nat) (s : State), s.engine = .idle → ContextIs s c .rfft p n → BufferIs s p 0 n →
    BufferIs s p 1 n → BufferIs s p 2 n → BufferIs s p 3 n → Apart s p 0 1 → Apart s p 0 2 → Apart s p 0 3 →
    Apart s p 1 2 → Apart s p 1 3 → Apart s p 2 3 →
    let z := List.zipWith Cpx.mk (bufferOf s p 0 n (s.draws + 1)) (bufferOf s p 1 n (s.draws + 1 + elemBytes p * n))
    let y := combineHalves n (cascade .fwd (n / 2) (evens z (n / 2))) (cascade .fwd (n / 2) (odds z (n / 2)))
    RunsTo (.rfftDirc c p) s
      { completedState (encode (.rfftDirc c p)) s with
        dmem := stored s 3 (y.map Cpx.im) (stored s 2 (y.map Cpx.re) s.dmem)
        draws := s.draws + 1 + elemBytes p * n + elemBytes p * n }

/-- R202, R203: RFFT_INV and RFFT_INVN write to B2 the real signal of the one-sided spectrum in B0 and B1, unscaled and divided by
N, and change nothing else. -/
def Obligations.RealInverseCommandsWriteTheSignal : Prop :=
  ∀ (c : Nat) (p : Prec) (n : Nat) (s : State), s.engine = .idle → ContextIs s c .rfft p n → BufferIs s p 0 (n / 2 + 1) →
    BufferIs s p 1 (n / 2 + 1) → BufferIs s p 2 n → Apart s p 0 1 → Apart s p 0 2 → Apart s p 1 2 →
    let m := n / 2 + 1
    let x := List.zipWith Cpx.mk (bufferOf s p 0 m (s.draws + 1)) (bufferOf s p 1 m (s.draws + 1 + elemBytes p * m))
    let out := unzip (cascade .inv (n / 2) (repack n x)) n
    let after := fun (i : Instr) (y : List (Fp p)) =>
      { completedState (encode i) s with
        dmem := stored s 2 y s.dmem
        draws := s.draws + 1 + elemBytes p * m + elemBytes p * m }
    RunsTo (.rfftInv c p) s (after (.rfftInv c p) out) ∧
      RunsTo (.rfftInvn c p) s (after (.rfftInvn c p) (out.map fun v => fdiv v (ofNatP p n)))

/-- R220, R221: GZ_DIR writes the bin ARG0 of B0 to the result registers, two words a part for F64, the high words 0 for F32, and
changes nothing else: no byte of DMEM and no context. -/
def Obligations.GzDirWritesTheResultRegisters : Prop :=
  ∀ (c n : Nat) (s : State), s.engine = .idle → s.locked.arg0.toNat < n →
    (ContextIs s c .gz .f32 n → BufferIs s .f32 0 n →
      let y := gsos n (bufferOf s .f32 0 n (s.draws + 1)) s.locked.arg0.toNat
      RunsTo (.gzDir c .f32) s
        { completedState (encode (.gzDir c .f32)) s with
          res := { reLo := y.re, reHi := 0, imLo := y.im, imHi := 0 }
          draws := s.draws + 1 + 4 * n }) ∧
    (ContextIs s c .gz .f64 n → BufferIs s .f64 0 n →
      let y := gsos n (bufferOf s .f64 0 n (s.draws + 1)) s.locked.arg0.toNat
      RunsTo (.gzDir c .f64) s
        { completedState (encode (.gzDir c .f64)) s with
          res := { reLo := y.re.extractLsb' 0 32, reHi := y.re.extractLsb' 32 32,
                   imLo := y.im.extractLsb' 0 32, imHi := y.im.extractLsb' 32 32 }
          draws := s.draws + 1 + 8 * n })

/-- R224, R225, R226: DHT_DIR and DHT_INVN replace B0 by its Hartley transform, the butterfly for a power of two and the direct
evaluator otherwise; DHT_INVN divides each element by N; nothing else changes. -/
def Obligations.HartleyCommandsTransformInPlace : Prop :=
  ∀ (c : Nat) (p : Prec) (n : Nat) (s : State), s.engine = .idle → ContextIs s c .dht p n → BufferIs s p 0 n →
    let a := bufferOf s p 0 n (s.draws + 1)
    let after := fun (i : Instr) (y : List (Fp p)) =>
      { completedState (encode i) s with
        dmem := stored s 0 y s.dmem
        draws := s.draws + 1 + elemBytes p * n }
    ((∃ b, n = 2 ^ b) →
      RunsTo (.dhtDir c p) s (after (.dhtDir c p) (hcascade n a)) ∧
        RunsTo (.dhtInvn c p) s (after (.dhtInvn c p) ((hcascade n a).map fun v => fdiv v (ofNatP p n)))) ∧
    ((¬ ∃ b, n = 2 ^ b) →
      RunsTo (.dhtDir c p) s (after (.dhtDir c p) (hdirect n a)) ∧
        RunsTo (.dhtInvn c p) s (after (.dhtInvn c p) ((hdirect n a).map fun v => fdiv v (ofNatP p n))))

/-! ## Frames and whole-machine rules -/

/-- R73, R96: whatever the command, its completion leaves every byte of DMEM outside the elements of the buffers it writes: the
in-place buffers of FFT_DIR, FFT_INV, FFT_INVN, FFT_SHIFT, DHT_DIR and DHT_INVN; B1 and B2 of RFFT_DIR; B2 and B3 of RFFT_DIRC; B2
of RFFT_INV and RFFT_INVN; none of the configuration commands and GZ_DIR. -/
def Obligations.CompletionWritesOnlyItsOutputBuffers : Prop :=
  ∀ (i : Instr) (s t : State) (r : LockedRegs) (m : Nat) (a : Nat), s.engine = .busy r m → exec i s = .next t →
    let n := (s.slot i.ctx).size
    (match i with
      | .cfgFft _ _ | .cfgRfft _ _ | .cfgGz _ _ | .cfgDht _ _ | .gzDir _ _ => True
      | .fftDir _ p | .fftInv _ p | .fftInvn _ p => ¬ inSpan r p 0 n a ∧ ¬ inSpan r p 1 n a
      | .fftShift p => ¬ inSpan r p 0 r.b0.len.toNat a
      | .rfftDir _ p => ¬ inSpan r p 1 (n / 2 + 1) a ∧ ¬ inSpan r p 2 (n / 2 + 1) a
      | .rfftDirc _ p => ¬ inSpan r p 2 n a ∧ ¬ inSpan r p 3 n a
      | .rfftInv _ p | .rfftInvn _ p => ¬ inSpan r p 2 n a
      | .dhtDir _ p | .dhtInvn _ p => ¬ inSpan r p 0 n a) →
    t.byte? a = s.byte? a

/-- The frame of every command. Issuing it changes only CMD, STATUS, the engine and the draws (R240, R243); completing it changes,
of the registers, only STATUS.DONE, the slot of a configuration command and the result registers of GZ_DIR (R244, R31, R35). -/
def Obligations.CommandsLeaveEveryOtherRegister : Prop :=
  ∀ (i : Instr) (s t : State), exec i s = .next t →
    t.params = s.params ∧ t.ie = s.ie ∧ t.status.ovr = s.status.ovr ∧ t.host = s.host ∧ t.answer = s.answer ∧
      t.locked.arg0 = s.locked.arg0 ∧ (∀ k, t.locked.desc k = s.locked.desc k) ∧
      (s.engine = .idle → t.ctxs = s.ctxs ∧ t.res = s.res ∧ t.dmem = s.dmem ∧ t.locked.cmd = encode i) ∧
      (s.engine ≠ .idle → t.locked = s.locked ∧ t.status = { s.status with done := true } ∧ t.engine = .idle ∧
        (isConfig i = false → t.ctxs = s.ctxs) ∧ (∀ c, c ≠ i.ctx → t.slot c = s.slot c) ∧
        (isGoertzel i = false → t.res = s.res))

/-- R31, R164, R166: the context file changes only by the completion of a configuration command, which sets its own slot from the
captured ARG0, and by reset. -/
def Obligations.SlotsChangeOnlyByConfigurationOrReset : Prop :=
  ∀ s t : State, step s = .next t → t.ctxs ≠ s.ctxs →
    (∃ r n i, s.engine = .busy r n ∧ decodeWord r.cmd = .ok i ∧ isConfig i = true ∧
      t.ctxs = s.ctxs.set i.ctx { valid := true, kind := specKind i, prec := i.prec, n := r.arg0 }) ∨
    (∃ rest, s.host = .reset :: rest)

/-- R35: the result registers change only by the completion of a GZ_DIR and by reset. -/
def Obligations.ResultsChangeOnlyByGoertzelOrReset : Prop :=
  ∀ s t : State, step s = .next t → t.res ≠ s.res →
    (∃ r n c p, s.engine = .busy r n ∧ decodeWord r.cmd = .ok (.gzDir c p)) ∨ (∃ rest, s.host = .reset :: rest)

/-- R60, R69, R73: a byte of DMEM changes only by a host write to the DMEM window that covers it, by the completion of a command
that writes a buffer it lies in, and by reset. -/
def Obligations.DmemChangesOnlyByItsWriters : Prop :=
  ∀ (s t : State) (a : Nat), step s = .next t → t.byte? a ≠ s.byte? a →
    (∃ off width v rest, s.host = .bus (.write off width v) :: rest ∧ 0x1000000 ≤ off ∧
      off - 0x1000000 ≤ a ∧ a < off - 0x1000000 + width) ∨
    (∃ r n i k m, s.engine = .busy r n ∧ decodeWord r.cmd = .ok i ∧ (k, m) ∈ writesOf i r s ∧ inSpan r i.prec k m a) ∨
    (∃ rest, s.host = .reset :: rest)

/-- R26: DONE, ERR and OVR are cleared only by a STATUS write that writes their bit as 1, by reset and, DONE and ERR only, by a CMD
write. -/
def Obligations.FlagsAreClearedOnlyAsTheSpecSays : Prop :=
  ∀ s t : State, step s = .next t →
    let statusWrite := fun (n : Nat) =>
      ∃ v rest, s.host = .bus (.write 0x014 4 v) :: rest ∧ v.getLsbD n = true
    let cmdWrite := ∃ v rest, s.host = .bus (.write 0x018 4 v) :: rest ∧ s.engine = .idle
    let reset := ∃ rest, s.host = .reset :: rest
    (s.status.done = true → t.status.done = false → statusWrite 1 ∨ cmdWrite ∨ reset) ∧
      (s.status.err = true → t.status.err = false → statusWrite 2 ∨ cmdWrite ∨ reset) ∧
      (s.status.ovr = true → t.status.ovr = false → statusWrite 3 ∨ reset)

/-- R37: while BUSY, in the host's turn, a write to CMD, ARG0, a Bk_BASE or a Bk_LEN leaves the register as it is and sets OVR; it
changes nothing else. -/
def Obligations.LockedWritesWhileBusySetOverrun : Prop :=
  ∀ (s : State) (r : LockedRegs) (n off : Nat) (v : BitVec 64) (rest : List HostEvent),
    s.engine = .busy r (n + 1) → lockedOffset off → s.host = .bus (.write off 4 v) :: rest →
    step s = .next { s with
      engine := .busy r n
      status := { s.status with ovr := true }
      host := rest
      answer := some .written }

/-- R37, R41: OVR is set by nothing but a write to a locked register while BUSY. -/
def Obligations.OverrunIsSetOnlyByLockedWrites : Prop :=
  ∀ s t : State, step s = .next t → s.status.ovr = false → t.status.ovr = true →
    ∃ r n off v rest, s.engine = .busy r n ∧ lockedOffset off ∧ s.host = .bus (.write off 4 v) :: rest

/-- R72, R79: while BUSY a host step other than reset changes no byte of DMEM, no slot, no result register, none of the
registers the command runs on, and not the command it runs; it only lets one host step pass. -/
def Obligations.HostCannotDisturbARunningCommand : Prop :=
  ∀ (s t : State) (r : LockedRegs) (n : Nat), s.engine = .busy r n → engineIsNext s n = false →
    (∀ rest, s.host ≠ .reset :: rest) → step s = .next t →
    t.dmem = s.dmem ∧ t.ctxs = s.ctxs ∧ t.res = s.res ∧ t.locked = s.locked ∧ t.params = s.params ∧
      t.engine = .busy r (n - 1)

/-! ## STATUS, the interrupt and the bus -/

/-- R26, R36, R241: the bits of the value STATUS reads as, ERRCODE among them with the codes of R241. -/
def Obligations.StatusReadsAsItsFields : Prop :=
  ∀ s : State,
    s.statusWord.getLsbD 0 = s.engine.isBusy ∧ s.statusWord.getLsbD 1 = s.status.done ∧
      s.statusWord.getLsbD 2 = s.status.err ∧ s.statusWord.getLsbD 3 = s.status.ovr ∧ s.statusWord.extractLsb' 4 4 = 0 ∧
      (s.statusWord.extractLsb' 8 8).toNat = specErrCode s.status.errCode ∧ s.statusWord.extractLsb' 16 4 = s.status.errA ∧
      s.statusWord.extractLsb' 20 4 = s.status.errB ∧ s.statusWord.extractLsb' 24 8 = 0

/-- R26: a STATUS write, over the bus and in the host's turn, BUSY or not, clears each of DONE, ERR and OVR whose written bit is 1
and leaves every other bit of STATUS and every other register. -/
def Obligations.StatusWriteClearsOnlyWrittenOnes : Prop :=
  ∀ (s : State) (v : BitVec 64) (rest : List HostEvent), HostTurn s → s.host = .bus (.write 0x014 4 v) :: rest →
    ∃ x, step s = .next { s with engine := s.engine.pass, status := x, host := rest, answer := some .written } ∧
      ∀ n, (x.word s.engine.isBusy).getLsbD n =
        (s.statusWord.getLsbD n && !(decide (n = 1 ∨ n = 2 ∨ n = 3) && v.getLsbD n))

/-- R38, R252: in every state the interrupt line is CTRL.IE AND STATUS.DONE as the two registers read, so it is low while either is 0
and falls when either is cleared; it drives the input IRQ_LINE of the interrupt controller (log entry 10) and no other. When a
command ends, completed or failed, DONE is set and the line is at the level of CTRL.IE. -/
def Obligations.EndOfCommandDrivesTheInterruptLine : Prop :=
  (∀ s : State, s.irq = ((readReg s .ctrl).getLsbD 0 && (readReg s .status).getLsbD 1) ∧
    ∀ line n : Nat, s.irqInput line n = (decide (n = line) && s.irq)) ∧
  ∀ (i : Instr) (s t : State), exec i s = .next t → t.engine = .idle → t.status.done = true ∧ t.irq = s.ie

/-- R21, R68: in the host's turn, BUSY or not, a 32-bit read of a register's offset answers the register's value and changes
nothing else. R102: `WAIT` reads STATUS until DONE is 1; as an event of the model's queue (log entry 12) it answers the STATUS value
read, leaves the queue exactly when that value has DONE set, and changes nothing else. -/
def Obligations.RegisterReadsAnswerTheRegister : Prop :=
  ∀ (s : State) (rest : List HostEvent), HostTurn s →
    (∀ x : Reg, s.params.Legal → x.inFile s.params → s.host = .bus (.read (specOffset x) 4) :: rest →
      step s = .next { s with
        engine := s.engine.pass
        host := rest
        answer := some (.value ((readReg s x).setWidth 64)) }) ∧
    (s.host = .wait :: rest →
      step s = .next { s with
        engine := s.engine.pass
        host := if (readReg s .status).getLsbD 1 then rest else .wait :: rest
        answer := some (.value ((readReg s .status).setWidth 64)) })

/-- R22 to R31, R35: what every register reads as: the fields of the identity, capability and context registers (the KIND values of
R30), CTRL as IE alone, STATUS as its value, and CMD, ARG0, the descriptors and the results as the words they hold. -/
def Obligations.RegistersReadAsTheirFields : Prop :=
  ∀ s : State, s.params.Legal →
    readReg s .id = 0x5446574E ∧ readReg s .version = 0x00000001 ∧
      ((readReg s .caps).extractLsb' 0 5).toNat = s.params.log2Nmax ∧ (readReg s .caps).extractLsb' 5 3 = 0 ∧
      ((readReg s .caps).extractLsb' 8 5).toNat = s.params.nctx ∧ (readReg s .caps).extractLsb' 13 3 = 0 ∧
      (readReg s .caps).getLsbD 16 = true ∧ (readReg s .caps).getLsbD 17 = true ∧
      (readReg s .caps).extractLsb' 18 14 = 0 ∧ (readReg s .dmemSize).toNat = s.params.dmemBytes ∧
      (readReg s .ctrl).getLsbD 0 = s.ie ∧ (readReg s .ctrl).extractLsb' 1 31 = 0 ∧ readReg s .status = s.statusWord ∧
      readReg s .cmd = s.locked.cmd ∧ readReg s .arg0 = s.locked.arg0 ∧
      readReg s (.bBase 0) = s.locked.b0.base ∧ readReg s (.bLen 0) = s.locked.b0.len ∧
      readReg s (.bBase 1) = s.locked.b1.base ∧ readReg s (.bLen 1) = s.locked.b1.len ∧
      readReg s (.bBase 2) = s.locked.b2.base ∧ readReg s (.bLen 2) = s.locked.b2.len ∧
      readReg s (.bBase 3) = s.locked.b3.base ∧ readReg s (.bLen 3) = s.locked.b3.len ∧
      readReg s .resReLo = s.res.reLo ∧ readReg s .resReHi = s.res.reHi ∧
      readReg s .resImLo = s.res.imLo ∧ readReg s .resImHi = s.res.imHi ∧
      ∀ c, (∀ x, s.ctxs[c]? = some x → s.slot c = x) ∧
        (readReg s (.ctxCfg c)).getLsbD 0 = (s.slot c).valid ∧
        ((readReg s (.ctxCfg c)).extractLsb' 1 3).toNat = specKindCode (s.slot c).kind ∧
        (readReg s (.ctxCfg c)).getLsbD 4 = decide ((s.slot c).prec = .f64) ∧
        (readReg s (.ctxCfg c)).extractLsb' 5 27 = 0 ∧ readReg s (.ctxN c) = (s.slot c).n

/-- R25, R28, R29: a write to CTRL, in the host's turn, takes bit 0 as IE, BUSY or not; a write to ARG0 or a descriptor register at
an IDLE engine stores the value. Nothing else changes. -/
def Obligations.RegisterWritesStoreTheValue : Prop :=
  ∀ (s : State) (v : BitVec 64) (rest : List HostEvent),
    (HostTurn s → s.host = .bus (.write 0x010 4 v) :: rest →
      step s = .next { s with engine := s.engine.pass, ie := v.getLsbD 0, host := rest, answer := some .written }) ∧
    (s.engine = .idle →
      let t := { s with host := rest, answer := some .written }
      let w := v.setWidth 32
      (s.host = .bus (.write 0x01C 4 v) :: rest → step s = .next { t with locked := { s.locked with arg0 := w } }) ∧
      (s.host = .bus (.write 0x020 4 v) :: rest →
        step s = .next { t with locked := { s.locked with b0 := { s.locked.b0 with base := w } } }) ∧
      (s.host = .bus (.write 0x024 4 v) :: rest →
        step s = .next { t with locked := { s.locked with b0 := { s.locked.b0 with len := w } } }) ∧
      (s.host = .bus (.write 0x028 4 v) :: rest →
        step s = .next { t with locked := { s.locked with b1 := { s.locked.b1 with base := w } } }) ∧
      (s.host = .bus (.write 0x02C 4 v) :: rest →
        step s = .next { t with locked := { s.locked with b1 := { s.locked.b1 with len := w } } }) ∧
      (s.host = .bus (.write 0x030 4 v) :: rest →
        step s = .next { t with locked := { s.locked with b2 := { s.locked.b2 with base := w } } }) ∧
      (s.host = .bus (.write 0x034 4 v) :: rest →
        step s = .next { t with locked := { s.locked with b2 := { s.locked.b2 with len := w } } }) ∧
      (s.host = .bus (.write 0x038 4 v) :: rest →
        step s = .next { t with locked := { s.locked with b3 := { s.locked.b3 with base := w } } }) ∧
      (s.host = .bus (.write 0x03C 4 v) :: rest →
        step s = .next { t with locked := { s.locked with b3 := { s.locked.b3 with len := w } } }))

/-- R67: a 32-bit aligned read of a reserved offset of the REG region answers 0 and a write to one is ignored: neither is a bus
error, and neither changes any state of the block. -/
def Obligations.ReservedOffsetsReadZeroAndIgnoreWrites : Prop :=
  ∀ (s : State) (off : Nat) (v : BitVec 64) (rest : List HostEvent), HostTurn s → off % 4 = 0 →
    (0x050 ≤ off ∧ off < 0x080 ∨ 0x080 + 8 * s.params.nctx ≤ off ∧ off < 0x1000) →
    (s.host = .bus (.read off 4) :: rest →
      step s = .next { s with engine := s.engine.pass, host := rest, answer := some (.value 0) }) ∧
    (s.host = .bus (.write off 4 v) :: rest →
      step s = .next { s with engine := s.engine.pass, host := rest, answer := some .written })

/-- R68: a write to a read-only register is ignored, BUSY or not, and does not set OVR (R37). -/
def Obligations.ReadOnlyRegistersIgnoreWrites : Prop :=
  ∀ (s : State) (x : Reg) (v : BitVec 64) (rest : List HostEvent), s.params.Legal → HostTurn s → x.inFile s.params →
    (match x with
      | .id | .version | .caps | .dmemSize | .resReLo | .resReHi | .resImLo | .resImHi | .ctxCfg _ | .ctxN _ => True
      | .ctrl | .status | .cmd | .arg0 | .bBase _ | .bLen _ => False) →
    s.host = .bus (.write (specOffset x) 4 v) :: rest →
    step s = .next { s with engine := s.engine.pass, host := rest, answer := some .written }

/-- R61, R66, R70, R250: an access to the REG region of the wrong width or alignment, or to a reserved region, answers a bus error
and changes nothing else, in the host's turn, BUSY or not; so does, at an IDLE engine, an access to the DMEM window of the wrong
width or alignment or past the end of DMEM. (While BUSY an access to the DMEM window is held first: R72, log entry 7.) -/
def Obligations.BadAccessesAnswerABusError : Prop :=
  ∀ (s : State) (off width : Nat) (v : BitVec 64) (rest : List HostEvent),
    (s.host = .bus (.read off width) :: rest ∨ s.host = .bus (.write off width v) :: rest) →
    (HostTurn s →
      (off < 0x1000 ∧ (width ≠ 4 ∨ off % 4 ≠ 0) ∨ 0x1000 ≤ off ∧ off < 0x1000000 ∨ 0x1000000 + s.params.dmemBytes ≤ off) →
      step s = .next { s with engine := s.engine.pass, host := rest, answer := some .busError }) ∧
    (s.engine = .idle → 0x1000000 ≤ off → off < 0x1000000 + s.params.dmemBytes →
      (¬ (width = 1 ∨ width = 2 ∨ width = 4 ∨ width = 8) ∨ (off - 0x1000000) % width ≠ 0 ∨
        s.params.dmemBytes < off - 0x1000000 + width) →
      step s = .next { s with host := rest, answer := some .busError })

/-- R13, R62, R63, R64: element i of a buffer is the ES(P) bytes of DMEM from BASE + ES(P)·i up, least significant first, for both
precisions. Storing a list puts byte j of its element i there and leaves every byte outside the list's span; loading reads element i
from there, and a byte nothing has written is the free value of its own draw (R74; the draws are the model's: log entry 1). For F64
the low 32-bit word lies at the element's offset and the high word four bytes up. -/
def Obligations.ElementsAreLittleEndian : Prop :=
  (∀ (m : Memory) (p : Prec) (base : Nat) (v : List (Fp p)),
    (∀ i x j, v[i]? = some x → j < specElemBytes p →
      (m.storeElems base v).byteAt? (base + specElemBytes p * i + j) = some (BitVec.extractLsb' (8 * j) 8 x)) ∧
    ∀ a, a < base ∨ base + specElemBytes p * v.length ≤ a → (m.storeElems base v).byteAt? a = m.byteAt? a) ∧
  (∀ (m : Memory) (p : Prec) (base n t : Nat),
    (m.loadElems p base n t).length = n ∧
      ∀ i x j, (m.loadElems p base n t)[i]? = some x → j < specElemBytes p →
        BitVec.extractLsb' (8 * j) 8 x =
          match m.byteAt? (base + specElemBytes p * i + j) with
          | some b => b
          | none   => Config.freeByte (t + specElemBytes p * i + j)) ∧
  (∀ (m : Memory) (a t : Nat) (v : Fp .f64),
    let m' := m.storeElems a [v]
    m'.load 4 a t = v.toNat % 2 ^ 32 ∧ m'.load 4 (a + 4) t = v.toNat / 2 ^ 32) ∧
  ∀ (s : State) (p : Prec) (n t : Nat) (v : List (Fp p)) (m : Memory), ∀ x ∈ [((0 : Fin 4), s.locked.b0), (1, s.locked.b1),
      (2, s.locked.b2), (3, s.locked.b3)],
    bufferOf s p x.1 n t = s.dmem.loadElems p x.2.base.toNat n t ∧ stored s x.1 v m = m.storeElems x.2.base.toNat v

/-- R72: while BUSY a host DMEM access, read or write, is held until the completion, after which it is still the host's next
transaction and is performed on the DMEM the command left. The model's choice: that the next step is the completion, whatever stands
in the queue behind the held access, a reset among it (log entry 6), and however many host steps the latency still lets pass (log
entry 2). -/
def Obligations.DmemAccessesAreHeldUntilCompletion : Prop :=
  ∀ (s t : State) (r : LockedRegs) (n off width : Nat) (v : BitVec 64) (rest : List HostEvent), s.Inv →
    s.engine = .busy r n → 0x1000000 ≤ off → off - 0x1000000 + width ≤ s.params.dmemBytes →
    (width = 1 ∨ width = 2 ∨ width = 4 ∨ width = 8) → (off - 0x1000000) % width = 0 → step s = .next t →
    (s.host = .bus (.read off width) :: rest ∨ s.host = .bus (.write off width v) :: rest →
      completionStep r s = .next t ∧ t.engine = .idle ∧ t.host = s.host) ∧
    (s.host = .bus (.read off width) :: rest →
      step t = .next { t with
        host := rest
        draws := t.draws + width
        answer := some (.value (BitVec.ofNat 64 (t.dmem.load width (off - 0x1000000) t.draws))) }) ∧
    (s.host = .bus (.write off width v) :: rest →
      step t = .next { t with
        host := rest
        dmem := t.dmem.store width (off - 0x1000000) v.toNat
        answer := some .written })

/-- R74: a host read of a byte nothing has written since reset answers the free value of its own draw, and the next read is
another draw. -/
def Obligations.UnwrittenByteReadsAsItsOwnDraw : Prop :=
  ∀ (s : State) (a : Nat) (rest : List HostEvent), s.engine = .idle → a < s.params.dmemBytes → s.byte? a = none →
    s.host = .bus (.read (0x1000000 + a) 1) :: rest →
    step s = .next { s with
      host := rest
      draws := s.draws + 1
      answer := some (.value ((Config.freeByte s.draws).setWidth 64)) }

/-! ## Numbers -/

/-- R124: what each pattern of the two formats stands for; the value of `fin neg m` is `±m` smallest subnormals, 2^-149 and
2^-1074. -/
def Obligations.PatternsStandForTheirValues : Prop :=
  (∀ v : Fp .f32,
    let e := (v.extractLsb' 23 8).toNat
    let f := (v.extractLsb' 0 23).toNat
    (e = 255 → f = 0 → classify v = .inf v.msb) ∧ (e = 255 → f ≠ 0 → classify v = .nan) ∧
      (e = 0 → classify v = .fin v.msb f) ∧
      (e ≠ 0 → e ≠ 255 → ∃ m, classify v = .fin v.msb m ∧
        (m : ℚ) / 2 ^ 149 = (1 + (f : ℚ) / 2 ^ 23) * (2 : ℚ) ^ ((e : ℤ) - 127))) ∧
  (∀ v : Fp .f64,
    let e := (v.extractLsb' 52 11).toNat
    let f := (v.extractLsb' 0 52).toNat
    (e = 2047 → f = 0 → classify v = .inf v.msb) ∧ (e = 2047 → f ≠ 0 → classify v = .nan) ∧
      (e = 0 → classify v = .fin v.msb f) ∧
      (e ≠ 0 → e ≠ 2047 → ∃ m, classify v = .fin v.msb m ∧
        (m : ℚ) / 2 ^ 1074 = (1 + (f : ℚ) / 2 ^ 52) * (2 : ℚ) ^ ((e : ℤ) - 1023)))

/-- R125, R126: on finite operands each of fadd, fsub, fmul and fdiv is its exact result rounded once, to nearest, ties to even,
with gradual underflow and with overflow to infinity. (An exact zero sum is R128's.) -/
def Obligations.ArithmeticRoundsTheExactResultOnce : Prop :=
  ∀ (p : Prec) (a b : Fp p) (na nb : Bool) (ma mb : Nat), classify a = .fin na ma → classify b = .fin nb mb →
    let sum := signedMag na ma + signedMag nb mb
    let dif := signedMag na ma - signedMag nb mb
    (sum ≠ 0 → RoundsTo p (decide (sum < 0)) sum.natAbs 1 (fadd a b)) ∧
      (dif ≠ 0 → RoundsTo p (decide (dif < 0)) dif.natAbs 1 (fsub a b)) ∧
      RoundsTo p (na ^^ nb) (ma * mb) (2 ^ unitExp p) (fmul a b) ∧
      (mb ≠ 0 → RoundsTo p (na ^^ nb) (ma * 2 ^ unitExp p) mb (fdiv a b))

/-- R127: every NaN that fadd, fsub, fmul or fdiv gives is the canonical quiet NaN with sign 0; fneg flips the sign bit only; the
moves give elements of their input, bit for bit. -/
def Obligations.ArithmeticNaNsAreCanonical : Prop :=
  canonicalNaN .f32 = 0x7FC00000 ∧ canonicalNaN .f64 = 0x7FF8000000000000 ∧
    ∀ (p : Prec) (a b : Fp p),
      (classify (fadd a b) = .nan → fadd a b = canonicalNaN p) ∧ (classify (fsub a b) = .nan → fsub a b = canonicalNaN p) ∧
        (classify (fmul a b) = .nan → fmul a b = canonicalNaN p) ∧ (classify (fdiv a b) = .nan → fdiv a b = canonicalNaN p) ∧
        ((classify a = .nan ∨ classify b = .nan) → fadd a b = canonicalNaN p ∧ fsub a b = canonicalNaN p ∧
          fmul a b = canonicalNaN p ∧ fdiv a b = canonicalNaN p) ∧
        (∀ i, (fneg a).getLsbD i = (a.getLsbD i ^^ decide (i = fpWidth p - 1))) ∧
        (∀ (x : List (Fp p)) (n : Nat), 0 < n → x.length = n →
          (∀ v ∈ shiftPerm x n, v ∈ x) ∧ (∀ b, n = 2 ^ b → ∀ v ∈ bitrevList x n, v ∈ x) ∧
            (∀ z ∈ pack x n, z.re ∈ x ∧ z.im ∈ x)) ∧
        (∀ (z : List (Cpx p)) (n b : Nat), z.length = n → n = 2 ^ b → ∀ v ∈ bitrevCpx z n, v ∈ z)

/-- R128: the signed zeros, the infinities and the invalid operations, of fadd, fsub, fmul and fdiv; a - b is a + (-b) for every
pair of patterns. -/
def Obligations.SpecialOperandsFollowIeee754 : Prop :=
  ∀ (p : Prec) (a b : Fp p) (na nb : Bool) (ma mb : Nat),
    let zero := fun n => withSign p n 0
    let inf := fun n => withSign p n (infBits p)
    classify (zero na) = .fin na 0 ∧ classify (inf na) = .inf na ∧ fsub a b = fadd a (fneg b) ∧
      (classify a = .fin na ma → fadd a (fneg a) = zero false ∧ fsub a a = zero false) ∧
      fadd (zero false) (zero true) = zero false ∧ fadd (zero true) (zero false) = zero false ∧
      fadd (zero false) (zero false) = zero false ∧ fadd (zero true) (zero true) = zero true ∧
      fsub (zero false) (zero false) = zero false ∧ fsub (zero true) (zero true) = zero false ∧
      fsub (zero true) (zero false) = zero true ∧ fsub (zero false) (zero true) = zero false ∧
      (classify a = .fin na ma → classify b = .fin nb mb → ma = 0 ∨ mb = 0 → fmul a b = zero (na ^^ nb)) ∧
      (classify b = .fin nb mb → fadd (inf na) b = inf na ∧ fadd b (inf na) = inf na ∧ fsub (inf na) b = inf na ∧
        fsub b (inf na) = inf (!na) ∧ fdiv b (inf na) = zero (na ^^ nb) ∧ fdiv (inf na) b = inf (na ^^ nb)) ∧
      (classify b = .fin nb mb → mb ≠ 0 → fmul (inf na) b = inf (na ^^ nb) ∧ fmul b (inf na) = inf (na ^^ nb)) ∧
      (classify b = .fin nb 0 → fmul (inf na) b = canonicalNaN p ∧ fmul b (inf na) = canonicalNaN p) ∧
      fadd (inf na) (inf na) = inf na ∧ fadd (inf na) (inf (!na)) = canonicalNaN p ∧
      fsub (inf na) (inf (!na)) = inf na ∧ fsub (inf na) (inf na) = canonicalNaN p ∧
      fmul (inf na) (inf nb) = inf (na ^^ nb) ∧ fdiv (inf na) (inf nb) = canonicalNaN p

/-- R138: SCALE divides each element by N, N converts exactly, and dividing by a power of two equals multiplying by its inverse, for
every value: both are the same real, rounded once. (The result is not exact where the quotient is subnormal: R182.) -/
def Obligations.ScalingByAPowerOfTwoMultipliesByTheInverse : Prop :=
  ∀ (p : Prec) (b : Nat), b ≤ 20 →
    (∀ (a : List (Fp p)) (n : Nat), scale a n = a.map fun v => fdiv v (ofNatP p n)) ∧
    (∀ n, n ≤ 2 ^ 20 → classify (ofNatP p n) = .fin false (n * 2 ^ unitExp p)) ∧
      ∀ v : Fp p, fdiv v (ofNatP p (2 ^ b)) = fmul v (BitVec.ofNat _ ((bias p - b) * 2 ^ fracBits p))

/-! ## Units -/

/-- R130: bit reversal is the sum of the rule, a bijection of the indices below 2^b and its own inverse. R131's index map: BITREV, on
real and on complex values, puts element bitrev_b(i) at position i, unchanged. -/
def Obligations.BitReversalIsItsOwnInverse : Prop :=
  ∀ b : Nat,
    (∀ i, i < 2 ^ b → bitrev b i = ((List.range b).map fun t => i / 2 ^ t % 2 * 2 ^ (b - 1 - t)).sum) ∧
      (∀ i, i < 2 ^ b → bitrev b i < 2 ^ b ∧ bitrev b (bitrev b i) = i) ∧
      (∀ i j, i < 2 ^ b → j < 2 ^ b → bitrev b i = bitrev b j → i = j) ∧
      (∀ (p : Prec) (a : List (Fp p)), a.length = 2 ^ b →
        (bitrevList a (2 ^ b)).length = 2 ^ b ∧ ∀ i < 2 ^ b, (bitrevList a (2 ^ b))[i]? = a[bitrev b i]?) ∧
      (∀ (p : Prec) (z : List (Cpx p)), z.length = 2 ^ b →
        (bitrevCpx z (2 ^ b)).length = 2 ^ b ∧ ∀ i < 2 ^ b, (bitrevCpx z (2 ^ b))[i]? = z[bitrev b i]?)

/-- R142, R139: which element each of PACK and UNZIP puts where, and that they are inverses, both ways. -/
def Obligations.UnzipInvertsPack : Prop :=
  ∀ (p : Prec) (m : Nat),
    (∀ x : List (Fp p), x.length = 2 * m →
      (pack x (2 * m)).length = m ∧ (∀ i < m, cat0 (pack x (2 * m)) i = ⟨at0 x (2 * i), at0 x (2 * i + 1)⟩) ∧
        unzip (pack x (2 * m)) (2 * m) = x) ∧
      (∀ z : List (Cpx p), z.length = m →
        (∀ i < m, at0 (unzip z (2 * m)) (2 * i) = (cat0 z i).re ∧ at0 (unzip z (2 * m)) (2 * i + 1) = (cat0 z i).im) ∧
          pack (unzip z (2 * m)) (2 * m) = z)

/-- R135, R136: a cascade whose stages are lists of outputs is the loop of R135, butterfly by butterfly in place. -/
def Obligations.CascadeIsTheInPlaceLoop : Prop :=
  ∀ (p : Prec) (dir : Dir) (b : Nat) (z : List (Cpx p)), z.length = 2 ^ b →
    cascade dir (2 ^ b) z = loopCascade dir (2 ^ b) z

/-- R140, R141, R143, R144, R145: UNPACK, REPACK, the Goertzel section, the Hartley cascade and the direct evaluator are the loops of
their rules, operation by operation. -/
def Obligations.RealUnitsAreTheirLoops : Prop :=
  (∀ (p : Prec) (b : Nat) (a : List (Fp p)), a.length = 2 ^ b → hcascade (2 ^ b) a = loopHartley (2 ^ b) a) ∧
  (∀ (p : Prec) (n : Nat) (a : List (Fp p)), a.length = n →
    (hdirect n a).length = n ∧ (∀ k < n, (hdirect n a)[k]? = some
      ((List.range n).foldl (fun acc i => fadd acc (fmul (at0 a i) (cas p (i * k % n) n))) 0)) ∧
    ∀ k < n, gsos n a k = loopGoertzel n a k) ∧
  (∀ (p : Prec) (m : Nat) (z : List (Cpx p)), 1 ≤ m → z.length = m →
    let x := unpack (2 * m) z
    x.length = m + 1 ∧ x[0]? = some ⟨fadd (cat0 z 0).re (cat0 z 0).im, 0⟩ ∧
      x[m]? = some ⟨fsub (cat0 z 0).re (cat0 z 0).im, 0⟩ ∧
      ∀ k, 1 ≤ k → k < m → x[k]? = some (loopUnpackBin (cat0 z k) (cat0 z (m - k)) (trig p k (2 * m)))) ∧
  (∀ (p : Prec) (m : Nat) (x : List (Cpx p)), 1 ≤ m → x.length = m + 1 →
    (repack (2 * m) x).length = m ∧
      ∀ k < m, (repack (2 * m) x)[k]? = some (loopRepackBin (cat0 x k) (cat0 x (m - k)) (trig p k (2 * m))))

/-- R204: the transform of RFFT_DIRC through the half-size decomposition is the N-point forward cascade, bit for bit. -/
def Obligations.SplitTransformIsTheCascade : Prop :=
  ∀ (p : Prec) (b : Nat) (z : List (Cpx p)), z.length = 2 ^ (b + 1) →
    combineHalves (2 ^ (b + 1)) (cascade .fwd (2 ^ b) (evens z (2 ^ b))) (cascade .fwd (2 ^ b) (odds z (2 ^ b))) =
      cascade .fwd (2 ^ (b + 1)) z

/-! ## Coefficients -/

/-- R120, R123 (a), (c), (d), (e), R122: the exact values at the quarter points, the value of a multiplied fraction, and the two
symmetries; the exact values of CAS_P. -/
def Obligations.CoefficientsHaveTheListedSymmetries : Prop :=
  ∀ (p : Prec) (k n : Nat), 1 ≤ n →
    let one := specOne p
    (4 * (k % n) = 0 → trig p k n = ⟨one, 0⟩ ∧ cas p k n = one) ∧
      (4 * (k % n) = n → trig p k n = ⟨0, one⟩ ∧ cas p k n = one) ∧
      (4 * (k % n) = 2 * n → trig p k n = ⟨fneg one, 0⟩ ∧ cas p k n = fneg one) ∧
      (4 * (k % n) = 3 * n → trig p k n = ⟨0, fneg one⟩ ∧ cas p k n = fneg one) ∧
      (8 * (k % n) = 3 * n ∨ 8 * (k % n) = 7 * n → cas p k n = 0) ∧
      trig p (k % n) n = trig p k n ∧
      (∀ m, 1 ≤ m → trig p (k * m) (n * m) = trig p k n) ∧
      (0 < k → k < n → (trig p k n).im ≠ 0 → trig p (n - k) n = conj (trig p k n)) ∧
      (n % 4 = 0 → k ≤ n / 4 → (trig p (n / 4 - k) n).re = (trig p k n).im)

/-- R123 (b): every component of TRIG_P is finite, at most 1 in magnitude, and zero or normal, for every N up to 2^20. -/
def Obligations.TwiddleComponentsAreAtMostOneAndNormal : Prop :=
  ∀ (p : Prec) (k n : Nat), 1 ≤ n → n ≤ 2 ^ 20 →
    ∀ v, v = (trig p k n).re ∨ v = (trig p k n).im →
      ∃ neg m, classify v = .fin neg m ∧ m ≤ 2 ^ unitExp p ∧ (m = 0 ∨ 2 ^ fracBits p ≤ m)

/-- R121: the ROM entry a cascade of power-of-two size reads, at stride NMAX/N, is its twiddle, so no result depends on NMAX. -/
def Obligations.RomEntryIsTheTwiddle : Prop :=
  ∀ (q : Params) (p : Prec) (b k : Nat), 2 ^ b ≤ 2 ^ q.log2Nmax → k < 2 ^ b / 2 →
    k * (2 ^ q.log2Nmax / 2 ^ b) < 2 ^ q.log2Nmax / 2 ∧
      romEntry q p (k * (2 ^ q.log2Nmax / 2 ^ b)) = trig p k (2 ^ b)

/-- The scaled 256-bit values that the model rounds its coefficients from, which are the model's choice and no rule's (log entry 3),
are the exact cosine and sine of 2πk/N that R120 rounds, within 2^-250. -/
def Obligations.ScaledCoefficientsAreCosineAndSine : Prop :=
  ∀ (k n : Nat), 1 ≤ n →
    |((circleFix k n).1 : ℝ) / 2 ^ 256 - Real.cos (2 * Real.pi * k / n)| ≤ 1 / 2 ^ 250 ∧
      |((circleFix k n).2 : ℝ) / 2 ^ 256 - Real.sin (2 * Real.pi * k / n)| ≤ 1 / 2 ^ 250

/-- Each component of TRIG_P, and CAS_P but for its exact zeros, is the model's scaled value rounded once to the format (R14); the
sum that CAS_P rounds is not rounded before. The model's choice, log entry 3: R120 and R122 round the exact real, and the model its
scaled value, which could differ in the last bit where the exact real lies within 2^-252 of a midpoint. -/
def Obligations.CoefficientsAreRoundedOnce : Prop :=
  ∀ (p : Prec) (k n : Nat), 1 ≤ n →
    let rounds := fun (x : Int) (v : Fp p) => RoundsTo p (decide (x < 0)) (x.natAbs * 2 ^ unitExp p) (2 ^ 256) v
    rounds (circleFix k n).1 (trig p k n).re ∧ rounds (circleFix k n).2 (trig p k n).im ∧
      (8 * (k % n) ≠ 3 * n → 8 * (k % n) ≠ 7 * n → rounds ((circleFix k n).1 + (circleFix k n).2) (cas p k n))

/-! ## Host accesses to DMEM -/

/-- R62, R70: at an IDLE engine a permitted host write to the DMEM window stores its bytes, the least significant at the lowest
offset, leaves every other byte, and answers written; a permitted host read answers the bytes in the same order, zero-extended. A
byte that nothing has written answers the free value of its own draw (R74, log entry 1). -/
def Obligations.HostDmemAccessesMoveLittleEndianBytes : Prop :=
  ∀ (s : State) (a width : Nat) (v : BitVec 64) (rest : List HostEvent), s.engine = .idle →
    (width = 1 ∨ width = 2 ∨ width = 4 ∨ width = 8) → a % width = 0 → a + width ≤ s.params.dmemBytes →
    (s.host = .bus (.write (0x1000000 + a) width v) :: rest →
      ∃ m : Memory, step s = .next { s with dmem := m, host := rest, answer := some .written } ∧
        (∀ i < width, m.byteAt? (a + i) = some (v.extractLsb' (8 * i) 8)) ∧
        ∀ b, b < a ∨ a + width ≤ b → m.byteAt? b = s.byte? b) ∧
    (s.host = .bus (.read (0x1000000 + a) width) :: rest →
      ∃ x : BitVec 64, step s = .next { s with host := rest, draws := s.draws + width, answer := some (.value x) } ∧
        x.toNat < 2 ^ (8 * width) ∧
        ∀ i < width, x.extractLsb' (8 * i) 8 =
          match s.byte? (a + i) with
          | some b => b
          | none   => Config.freeByte (s.draws + i))

/-! ## Ideal results -/

/-- R137, R147: with exact coefficients and exact operations the engine's own dataflow computes the ideal transforms. The engine's
units are the dataflow of Machine/Ideal.lean at `roundedArith`; at `exactArith` the cascade gives the DFT and the unscaled inverse
DFT; the inverse after the forward one gives N times the input (R185); both Hartley units give the DHT, and the DHT twice gives N
times the input; PACK, the half-size cascade and UNPACK give bins 0 to N/2 of the DFT (R206), and REPACK, the half-size inverse and
UNZIP give N times the samples back; the Goertzel section gives its bin of the DFT, for every N, and so the cascade's output for a
power of two (R222). How near the rounded results come, the spec does not bound. -/
def Obligations.ExactArithmeticGivesTheIdealResults : Prop :=
  (∀ (p : Prec) (dir : Dir) (n k : Nat) (x : List (Fp p)) (z : List (Cpx p)),
    let R := roundedArith p
    cascade dir n z = flowCascade R (trig p) dir n z ∧ pack x n = flowPack R x n ∧
      unpack n z = flowUnpack R (trig p) n z ∧ repack n z = flowRepack R (trig p) n z ∧ unzip z n = flowUnzip R z n ∧
      gsos n x k = flowGsos R (trig p) n x k ∧ hcascade n x = flowHcascade R (trig p) n x ∧
      hdirect n x = flowHdirect R (cas p) n x) ∧
  (∀ (b : Nat) (z : List ℂ), z.length = 2 ^ b →
    flowCascade exactArith exactTrig .fwd (2 ^ b) z = dft .fwd (2 ^ b) z ∧
      flowCascade exactArith exactTrig .inv (2 ^ b) z = dft .inv (2 ^ b) z ∧
      flowCascade exactArith exactTrig .inv (2 ^ b) (flowCascade exactArith exactTrig .fwd (2 ^ b) z) =
        z.map fun v => ((2 ^ b : Nat) : ℂ) * v) ∧
  (∀ (b : Nat) (x : List ℝ), x.length = 2 ^ b → flowHcascade exactArith exactTrig (2 ^ b) x = dht (2 ^ b) x) ∧
  (∀ (n : Nat) (x : List ℝ), 1 ≤ n → x.length = n →
    flowHdirect exactArith exactCas n x = dht n x ∧ dht n (dht n x) = x.map fun v => (n : ℝ) * v) ∧
  (∀ (b : Nat) (x : List ℝ), x.length = 2 ^ (b + 1) →
    let n := 2 ^ (b + 1)
    let spectrum := flowUnpack exactArith exactTrig n (flowCascade exactArith exactTrig .fwd (2 ^ b) (flowPack exactArith x n))
    spectrum = (List.range (2 ^ b + 1)).map (dftBin .fwd n (x.map Complex.ofReal)) ∧
      flowUnzip exactArith (flowCascade exactArith exactTrig .inv (2 ^ b) (flowRepack exactArith exactTrig n spectrum)) n =
        x.map fun v => (n : ℝ) * v) ∧
  (∀ (n k : Nat) (x : List ℝ), k < n → x.length = n →
    flowGsos exactArith exactTrig n x k = dftBin .fwd n (x.map Complex.ofReal) k ∧
      ∀ b, n = 2 ^ b →
        (flowCascade exactArith exactTrig .fwd n (x.map Complex.ofReal))[k]? = some (flowGsos exactArith exactTrig n x k))
end

