-- ==== Sys2Proof/Laws/Memory.lean ====
section
/-! SUPPORT. The laws of DMEM: read after write, what a write leaves alone, and that every memory operation keeps the canonical
form and the size of DMEM. -/

namespace Sys2Proof.Machine

namespace Memory

@[simp] theorem byteAt?_nil (a : Nat) : byteAt? [] a = none := rfl

theorem byteAt?_put (m : Memory) (a x : Nat) (b : Byte) :
    byteAt? (put m a b) x = if x = a then some b else byteAt? m x := by
  induction m with
  | nil => by_cases h : a = x <;> simp [put, byteAt?, h, eq_comm]
  | cons e m ih =>
    obtain ⟨k, c⟩ := e
    by_cases h1 : a < k
    · rw [show put ((k, c) :: m) a b = (a, b) :: (k, c) :: m by simp [put, h1]]
      by_cases hx : a = x <;> simp [byteAt?, hx, eq_comm]
    · by_cases h2 : a = k
      · subst h2
        by_cases hx : a = x <;> simp [put, byteAt?, hx, eq_comm]
      · by_cases hk : k = x
        · subst hk
          simp [put, byteAt?, h1, h2, Ne.symm h2]
        · simp [put, byteAt?, h1, h2, hk, ih]

@[simp] theorem byteAt?_put_self (m : Memory) (a : Nat) (b : Byte) : byteAt? (put m a b) a = some b := by
  simp [byteAt?_put]

theorem byteAt?_put_of_ne (m : Memory) {a x : Nat} (b : Byte) (h : x ≠ a) :
    byteAt? (put m a b) x = byteAt? m x := by
  simp [byteAt?_put, h]

theorem mem_put {m : Memory} {a : Nat} {b : Byte} {e : Host.Cell} (h : e ∈ put m a b) : e = (a, b) ∨ e ∈ m := by
  induction m with
  | nil => simpa [put] using h
  | cons e0 m ih =>
    obtain ⟨k, c⟩ := e0
    by_cases h1 : a < k
    · simpa [put, h1] using h
    · by_cases h2 : a = k
      · rw [show put ((k, c) :: m) a b = (a, b) :: m by simp [put, h2]] at h
        rcases List.mem_cons.1 h with h | h
        · exact .inl h
        · exact .inr (List.mem_cons_of_mem _ h)
      · rw [show put ((k, c) :: m) a b = (k, c) :: put m a b by simp [put, h1, h2]] at h
        rcases List.mem_cons.1 h with h | h
        · exact .inr (h ▸ List.mem_cons_self ..)
        · exact (ih h).imp id (List.mem_cons_of_mem _)

/-- Writing a byte keeps the canonical form. -/
theorem put_wf {m : Memory} (h : wf m) (a : Nat) (b : Byte) : wf (put m a b) := by
  induction m with
  | nil => simp [put, wf]
  | cons e m ih =>
    obtain ⟨k, c⟩ := e
    obtain ⟨hk, hm⟩ := List.pairwise_cons.1 h
    by_cases h1 : a < k
    · rw [show put ((k, c) :: m) a b = (a, b) :: (k, c) :: m by simp [put, h1]]
      refine List.pairwise_cons.2 ⟨fun e he => ?_, h⟩
      rcases List.mem_cons.1 he with rfl | he
      · exact h1
      · exact lt_trans h1 (hk e he)
    · by_cases h2 : a = k
      · rw [show put ((k, c) :: m) a b = (a, b) :: m by simp [put, h2]]
        exact List.pairwise_cons.2 ⟨fun e he => h2 ▸ hk e he, hm⟩
      · rw [show put ((k, c) :: m) a b = (k, c) :: put m a b by simp [put, h1, h2]]
        refine List.pairwise_cons.2 ⟨fun e he => ?_, ih hm⟩
        rcases mem_put he with rfl | he
        · exact lt_of_le_of_ne (not_lt.1 h1) (Ne.symm h2)
        · exact hk e he

/-- Writing a byte below `size` keeps the memory within `size`. -/
theorem put_within {m : Memory} {size a : Nat} (h : within m size) (ha : a < size) (b : Byte) : within (put m a b) size := by
  intro e he
  rcases mem_put he with rfl | he
  · exact ha
  · exact h e he

theorem store_wf {m : Memory} (h : wf m) (n a v : Nat) : wf (store m n a v) := by
  induction n generalizing m a v with
  | zero => exact h
  | succ n ih => exact ih (put_wf h _ _) _ _

theorem store_within {m : Memory} {size : Nat} (n a v : Nat) (h : within m size) (ha : a + n ≤ size) :
    within (store m n a v) size := by
  induction n generalizing m a v with
  | zero => exact h
  | succ n ih => exact ih _ _ (put_within h (by omega) _) (by omega)

/-- A store leaves every byte outside its own alone. -/
theorem byteAt?_store_outside (m : Memory) (n a v x : Nat) (h : x < a ∨ a + n ≤ x) :
    byteAt? (store m n a v) x = byteAt? m x := by
  induction n generalizing m a v with
  | zero => rfl
  | succ n ih =>
    rw [store, ih _ _ _ (by omega), byteAt?_put_of_ne _ _ (by omega)]

/-- Byte `i` of a store is byte `i` of the value, counted from the least significant. -/
theorem byteAt?_store_inside (m : Memory) (n a v i : Nat) (h : i < n) :
    byteAt? (store m n a v) (a + i) = some (BitVec.ofNat 8 (v / 256 ^ i)) := by
  induction n generalizing m a v i with
  | zero => omega
  | succ n ih =>
    cases i with
    | zero =>
      rw [store, byteAt?_store_outside _ _ _ _ _ (by omega)]
      simp
    | succ i =>
      have := ih (put m a (BitVec.ofNat 8 v)) (a + 1) (v / 256) i (by omega)
      rw [store, show a + (i + 1) = a + 1 + i by omega, this, Nat.div_div_eq_div_mul, pow_succ, mul_comm (256 ^ i)]

/-- A read of a written byte is that byte, whatever the draw. -/
theorem read_of_some {m : Memory} {a : Nat} {b : Byte} (h : byteAt? m a = some b) (t : Nat) : read m a t = b := by
  simp [read, h]

/-- Loading bytes that have been written gives them, little-endian, whatever the draw. -/
theorem load_of_bytes (m : Memory) (n a t v : Nat)
    (h : ∀ i < n, byteAt? m (a + i) = some (BitVec.ofNat 8 (v / 256 ^ i))) : load m n a t = v % 256 ^ n := by
  induction n generalizing a t v with
  | zero => simp [load, Nat.mod_one]
  | succ n ih =>
    have h0 : read m a t = BitVec.ofNat 8 v := read_of_some (by simpa using h 0 (by omega)) t
    have hs := ih (a + 1) (t + 1) (v / 256) (fun i hi => by
      have := h (i + 1) (by omega)
      rwa [show a + (i + 1) = a + 1 + i by omega, pow_succ, mul_comm (256 ^ i), ← Nat.div_div_eq_div_mul] at this)
    rw [load, h0, hs, BitVec.toNat_ofNat, show 256 ^ (n + 1) = 256 * 256 ^ n by ring, Nat.mod_mul]

/-- Reading back what was stored. -/
theorem load_store_same (m : Memory) (n a t v : Nat) : load (store m n a v) n a t = v % 256 ^ n :=
  load_of_bytes _ _ _ _ _ fun i hi => byteAt?_store_inside m n a v i hi

/-- A load of `n` bytes is below `256^n`. -/
theorem load_lt (m : Memory) (n a t : Nat) : load m n a t < 256 ^ n := by
  induction n generalizing a t with
  | zero => simp [load]
  | succ n ih =>
    have h0 := (read m a t).isLt
    have h1 := ih (a + 1) (t + 1)
    rw [load, show 256 ^ (n + 1) = 256 * 256 ^ n by ring]
    omega

/-- Byte `i` of a load, counted from the least significant, is the read of address `a + i` as draw `t + i`. -/
theorem load_byte (m : Memory) (n a t i : Nat) (h : i < n) :
    load m n a t / 256 ^ i % 256 = (read m (a + i) (t + i)).toNat := by
  induction n generalizing a t i with
  | zero => omega
  | succ n ih =>
    have h0 : (read m a t).toNat < 256 := (read m a t).isLt
    rw [load]
    cases i with
    | zero => simp only [pow_zero, Nat.div_one, Nat.add_zero]; omega
    | succ i =>
      rw [show 256 ^ (i + 1) = 256 * 256 ^ i by ring, ← Nat.div_div_eq_div_mul,
        show ((read m a t).toNat + 256 * load m n (a + 1) (t + 1)) / 256 = load m n (a + 1) (t + 1) by omega,
        ih _ _ _ (by omega), show a + 1 + i = a + (i + 1) by omega, show t + 1 + i = t + (i + 1) by omega]

/-- A load depends only on the bytes it reads. -/
theorem load_congr {m m' : Memory} (n a t : Nat) (h : ∀ x, a ≤ x → x < a + n → byteAt? m x = byteAt? m' x) :
    load m n a t = load m' n a t := by
  induction n generalizing a t with
  | zero => rfl
  | succ n ih =>
    have h0 : read m a t = read m' a t := by simp only [read, h a (le_refl _) (by omega)]
    rw [load, load, h0, ih (a + 1) (t + 1) (fun x h1 h2 => h x (by omega) (by omega))]

@[simp] theorem length_loadElems (m : Memory) (p : Prec) (base n t : Nat) : (loadElems m p base n t).length = n := by
  simp [loadElems]

theorem storeElems_wf {m : Memory} {p : Prec} (h : wf m) (base : Nat) (vs : List (Fp p)) : wf (storeElems m base vs) := by
  induction vs generalizing m base with
  | nil => exact h
  | cons v vs ih => exact ih (store_wf h _ _ _) _

theorem storeElems_within {m : Memory} {p : Prec} {size : Nat} (base : Nat) (vs : List (Fp p)) (h : within m size)
    (hb : base + elemBytes p * vs.length ≤ size) : within (storeElems m base vs) size := by
  induction vs generalizing m base with
  | nil => exact h
  | cons v vs ih =>
    rw [List.length_cons, Nat.mul_succ] at hb
    exact ih _ (store_within _ _ _ h (by omega)) (by omega)

/-- Storing elements leaves every byte outside their span alone. -/
theorem byteAt?_storeElems_outside (m : Memory) {p : Prec} (base : Nat) (vs : List (Fp p)) (x : Nat)
    (h : x < base ∨ base + elemBytes p * vs.length ≤ x) : byteAt? (storeElems m base vs) x = byteAt? m x := by
  induction vs generalizing m base with
  | nil => rfl
  | cons v vs ih =>
    rw [List.length_cons, Nat.mul_succ] at h
    rw [storeElems, ih _ _ (by omega), byteAt?_store_outside _ _ _ _ _ (by omega)]

theorem fp_toNat_lt {p : Prec} (v : Fp p) : v.toNat < 256 ^ elemBytes p := by
  have := v.isLt
  cases p <;> simpa [fpWidth, elemBytes] using this

/-- Elements read back after they are stored, whatever the draws. -/
theorem loadElems_storeElems (m : Memory) {p : Prec} (base t : Nat) (vs : List (Fp p)) :
    loadElems (storeElems m base vs) p base vs.length t = vs := by
  have key : ∀ (m : Memory) (base : Nat) (vs : List (Fp p)) (i : Nat) (hi : i < vs.length) (t : Nat),
      load (storeElems m base vs) (elemBytes p) (base + elemBytes p * i) t = (vs[i]'hi).toNat := by
    intro m base vs
    induction vs generalizing m base with
    | nil => intro i hi; simp at hi
    | cons v vs ih =>
      intro i hi t
      cases i with
      | zero =>
        rw [storeElems, Nat.mul_zero, Nat.add_zero,
          load_congr _ _ _ (fun x h1 h2 => byteAt?_storeElems_outside _ _ vs x (.inl h2)), load_store_same]
        exact Nat.mod_eq_of_lt (fp_toNat_lt v)
      | succ i =>
        rw [storeElems, Nat.mul_succ, show base + (elemBytes p * i + elemBytes p) = base + elemBytes p + elemBytes p * i by omega]
        exact ih _ _ i (by simpa using hi) t
  refine List.ext_getElem (by simp) fun i h1 h2 => ?_
  have := key m base vs i h2 (t + elemBytes p * i)
  simp [loadElems, this]

end Memory

/-- Reset's memory is in canonical form. -/
theorem reset_memory_wf : State.reset.dmem.wf := by decide

end Sys2Proof.Machine
end

