-- ==== Sys2Proof/Laws/State.lean ====
section
/-! SUPPORT. One lemma per field per update of State: what each update leaves and what it sets. -/

namespace Sys2Proof.Machine

@[simp] theorem State.setIe_params (s : State) (x : Bool) : (s.setIe x).params = s.params := rfl
@[simp] theorem State.setIe_ie (s : State) (x : Bool) : (s.setIe x).ie = x := rfl
@[simp] theorem State.setIe_status (s : State) (x : Bool) : (s.setIe x).status = s.status := rfl
@[simp] theorem State.setIe_locked (s : State) (x : Bool) : (s.setIe x).locked = s.locked := rfl
@[simp] theorem State.setIe_res (s : State) (x : Bool) : (s.setIe x).res = s.res := rfl
@[simp] theorem State.setIe_ctxs (s : State) (x : Bool) : (s.setIe x).ctxs = s.ctxs := rfl
@[simp] theorem State.setIe_dmem (s : State) (x : Bool) : (s.setIe x).dmem = s.dmem := rfl
@[simp] theorem State.setIe_engine (s : State) (x : Bool) : (s.setIe x).engine = s.engine := rfl
@[simp] theorem State.setIe_host (s : State) (x : Bool) : (s.setIe x).host = s.host := rfl
@[simp] theorem State.setIe_answer (s : State) (x : Bool) : (s.setIe x).answer = s.answer := rfl
@[simp] theorem State.setIe_draws (s : State) (x : Bool) : (s.setIe x).draws = s.draws := rfl

@[simp] theorem State.setStatus_params (s : State) (x : Status) : (s.setStatus x).params = s.params := rfl
@[simp] theorem State.setStatus_ie (s : State) (x : Status) : (s.setStatus x).ie = s.ie := rfl
@[simp] theorem State.setStatus_status (s : State) (x : Status) : (s.setStatus x).status = x := rfl
@[simp] theorem State.setStatus_locked (s : State) (x : Status) : (s.setStatus x).locked = s.locked := rfl
@[simp] theorem State.setStatus_res (s : State) (x : Status) : (s.setStatus x).res = s.res := rfl
@[simp] theorem State.setStatus_ctxs (s : State) (x : Status) : (s.setStatus x).ctxs = s.ctxs := rfl
@[simp] theorem State.setStatus_dmem (s : State) (x : Status) : (s.setStatus x).dmem = s.dmem := rfl
@[simp] theorem State.setStatus_engine (s : State) (x : Status) : (s.setStatus x).engine = s.engine := rfl
@[simp] theorem State.setStatus_host (s : State) (x : Status) : (s.setStatus x).host = s.host := rfl
@[simp] theorem State.setStatus_answer (s : State) (x : Status) : (s.setStatus x).answer = s.answer := rfl
@[simp] theorem State.setStatus_draws (s : State) (x : Status) : (s.setStatus x).draws = s.draws := rfl

@[simp] theorem State.setLocked_params (s : State) (x : LockedRegs) : (s.setLocked x).params = s.params := rfl
@[simp] theorem State.setLocked_ie (s : State) (x : LockedRegs) : (s.setLocked x).ie = s.ie := rfl
@[simp] theorem State.setLocked_status (s : State) (x : LockedRegs) : (s.setLocked x).status = s.status := rfl
@[simp] theorem State.setLocked_locked (s : State) (x : LockedRegs) : (s.setLocked x).locked = x := rfl
@[simp] theorem State.setLocked_res (s : State) (x : LockedRegs) : (s.setLocked x).res = s.res := rfl
@[simp] theorem State.setLocked_ctxs (s : State) (x : LockedRegs) : (s.setLocked x).ctxs = s.ctxs := rfl
@[simp] theorem State.setLocked_dmem (s : State) (x : LockedRegs) : (s.setLocked x).dmem = s.dmem := rfl
@[simp] theorem State.setLocked_engine (s : State) (x : LockedRegs) : (s.setLocked x).engine = s.engine := rfl
@[simp] theorem State.setLocked_host (s : State) (x : LockedRegs) : (s.setLocked x).host = s.host := rfl
@[simp] theorem State.setLocked_answer (s : State) (x : LockedRegs) : (s.setLocked x).answer = s.answer := rfl
@[simp] theorem State.setLocked_draws (s : State) (x : LockedRegs) : (s.setLocked x).draws = s.draws := rfl

@[simp] theorem State.setRes_params (s : State) (x : Results) : (s.setRes x).params = s.params := rfl
@[simp] theorem State.setRes_ie (s : State) (x : Results) : (s.setRes x).ie = s.ie := rfl
@[simp] theorem State.setRes_status (s : State) (x : Results) : (s.setRes x).status = s.status := rfl
@[simp] theorem State.setRes_locked (s : State) (x : Results) : (s.setRes x).locked = s.locked := rfl
@[simp] theorem State.setRes_res (s : State) (x : Results) : (s.setRes x).res = x := rfl
@[simp] theorem State.setRes_ctxs (s : State) (x : Results) : (s.setRes x).ctxs = s.ctxs := rfl
@[simp] theorem State.setRes_dmem (s : State) (x : Results) : (s.setRes x).dmem = s.dmem := rfl
@[simp] theorem State.setRes_engine (s : State) (x : Results) : (s.setRes x).engine = s.engine := rfl
@[simp] theorem State.setRes_host (s : State) (x : Results) : (s.setRes x).host = s.host := rfl
@[simp] theorem State.setRes_answer (s : State) (x : Results) : (s.setRes x).answer = s.answer := rfl
@[simp] theorem State.setRes_draws (s : State) (x : Results) : (s.setRes x).draws = s.draws := rfl

@[simp] theorem State.setCtxs_params (s : State) (x : List Slot) : (s.setCtxs x).params = s.params := rfl
@[simp] theorem State.setCtxs_ie (s : State) (x : List Slot) : (s.setCtxs x).ie = s.ie := rfl
@[simp] theorem State.setCtxs_status (s : State) (x : List Slot) : (s.setCtxs x).status = s.status := rfl
@[simp] theorem State.setCtxs_locked (s : State) (x : List Slot) : (s.setCtxs x).locked = s.locked := rfl
@[simp] theorem State.setCtxs_res (s : State) (x : List Slot) : (s.setCtxs x).res = s.res := rfl
@[simp] theorem State.setCtxs_ctxs (s : State) (x : List Slot) : (s.setCtxs x).ctxs = x := rfl
@[simp] theorem State.setCtxs_dmem (s : State) (x : List Slot) : (s.setCtxs x).dmem = s.dmem := rfl
@[simp] theorem State.setCtxs_engine (s : State) (x : List Slot) : (s.setCtxs x).engine = s.engine := rfl
@[simp] theorem State.setCtxs_host (s : State) (x : List Slot) : (s.setCtxs x).host = s.host := rfl
@[simp] theorem State.setCtxs_answer (s : State) (x : List Slot) : (s.setCtxs x).answer = s.answer := rfl
@[simp] theorem State.setCtxs_draws (s : State) (x : List Slot) : (s.setCtxs x).draws = s.draws := rfl

@[simp] theorem State.setDmem_params (s : State) (x : Memory) : (s.setDmem x).params = s.params := rfl
@[simp] theorem State.setDmem_ie (s : State) (x : Memory) : (s.setDmem x).ie = s.ie := rfl
@[simp] theorem State.setDmem_status (s : State) (x : Memory) : (s.setDmem x).status = s.status := rfl
@[simp] theorem State.setDmem_locked (s : State) (x : Memory) : (s.setDmem x).locked = s.locked := rfl
@[simp] theorem State.setDmem_res (s : State) (x : Memory) : (s.setDmem x).res = s.res := rfl
@[simp] theorem State.setDmem_ctxs (s : State) (x : Memory) : (s.setDmem x).ctxs = s.ctxs := rfl
@[simp] theorem State.setDmem_dmem (s : State) (x : Memory) : (s.setDmem x).dmem = x := rfl
@[simp] theorem State.setDmem_engine (s : State) (x : Memory) : (s.setDmem x).engine = s.engine := rfl
@[simp] theorem State.setDmem_host (s : State) (x : Memory) : (s.setDmem x).host = s.host := rfl
@[simp] theorem State.setDmem_answer (s : State) (x : Memory) : (s.setDmem x).answer = s.answer := rfl
@[simp] theorem State.setDmem_draws (s : State) (x : Memory) : (s.setDmem x).draws = s.draws := rfl

@[simp] theorem State.setEngine_params (s : State) (x : Engine) : (s.setEngine x).params = s.params := rfl
@[simp] theorem State.setEngine_ie (s : State) (x : Engine) : (s.setEngine x).ie = s.ie := rfl
@[simp] theorem State.setEngine_status (s : State) (x : Engine) : (s.setEngine x).status = s.status := rfl
@[simp] theorem State.setEngine_locked (s : State) (x : Engine) : (s.setEngine x).locked = s.locked := rfl
@[simp] theorem State.setEngine_res (s : State) (x : Engine) : (s.setEngine x).res = s.res := rfl
@[simp] theorem State.setEngine_ctxs (s : State) (x : Engine) : (s.setEngine x).ctxs = s.ctxs := rfl
@[simp] theorem State.setEngine_dmem (s : State) (x : Engine) : (s.setEngine x).dmem = s.dmem := rfl
@[simp] theorem State.setEngine_engine (s : State) (x : Engine) : (s.setEngine x).engine = x := rfl
@[simp] theorem State.setEngine_host (s : State) (x : Engine) : (s.setEngine x).host = s.host := rfl
@[simp] theorem State.setEngine_answer (s : State) (x : Engine) : (s.setEngine x).answer = s.answer := rfl
@[simp] theorem State.setEngine_draws (s : State) (x : Engine) : (s.setEngine x).draws = s.draws := rfl

@[simp] theorem State.setHost_params (s : State) (x : List HostEvent) : (s.setHost x).params = s.params := rfl
@[simp] theorem State.setHost_ie (s : State) (x : List HostEvent) : (s.setHost x).ie = s.ie := rfl
@[simp] theorem State.setHost_status (s : State) (x : List HostEvent) : (s.setHost x).status = s.status := rfl
@[simp] theorem State.setHost_locked (s : State) (x : List HostEvent) : (s.setHost x).locked = s.locked := rfl
@[simp] theorem State.setHost_res (s : State) (x : List HostEvent) : (s.setHost x).res = s.res := rfl
@[simp] theorem State.setHost_ctxs (s : State) (x : List HostEvent) : (s.setHost x).ctxs = s.ctxs := rfl
@[simp] theorem State.setHost_dmem (s : State) (x : List HostEvent) : (s.setHost x).dmem = s.dmem := rfl
@[simp] theorem State.setHost_engine (s : State) (x : List HostEvent) : (s.setHost x).engine = s.engine := rfl
@[simp] theorem State.setHost_host (s : State) (x : List HostEvent) : (s.setHost x).host = x := rfl
@[simp] theorem State.setHost_answer (s : State) (x : List HostEvent) : (s.setHost x).answer = s.answer := rfl
@[simp] theorem State.setHost_draws (s : State) (x : List HostEvent) : (s.setHost x).draws = s.draws := rfl

@[simp] theorem State.setAnswer_params (s : State) (x : Option BusAnswer) : (s.setAnswer x).params = s.params := rfl
@[simp] theorem State.setAnswer_ie (s : State) (x : Option BusAnswer) : (s.setAnswer x).ie = s.ie := rfl
@[simp] theorem State.setAnswer_status (s : State) (x : Option BusAnswer) : (s.setAnswer x).status = s.status := rfl
@[simp] theorem State.setAnswer_locked (s : State) (x : Option BusAnswer) : (s.setAnswer x).locked = s.locked := rfl
@[simp] theorem State.setAnswer_res (s : State) (x : Option BusAnswer) : (s.setAnswer x).res = s.res := rfl
@[simp] theorem State.setAnswer_ctxs (s : State) (x : Option BusAnswer) : (s.setAnswer x).ctxs = s.ctxs := rfl
@[simp] theorem State.setAnswer_dmem (s : State) (x : Option BusAnswer) : (s.setAnswer x).dmem = s.dmem := rfl
@[simp] theorem State.setAnswer_engine (s : State) (x : Option BusAnswer) : (s.setAnswer x).engine = s.engine := rfl
@[simp] theorem State.setAnswer_host (s : State) (x : Option BusAnswer) : (s.setAnswer x).host = s.host := rfl
@[simp] theorem State.setAnswer_answer (s : State) (x : Option BusAnswer) : (s.setAnswer x).answer = x := rfl
@[simp] theorem State.setAnswer_draws (s : State) (x : Option BusAnswer) : (s.setAnswer x).draws = s.draws := rfl

@[simp] theorem State.setDraws_params (s : State) (x : Nat) : (s.setDraws x).params = s.params := rfl
@[simp] theorem State.setDraws_ie (s : State) (x : Nat) : (s.setDraws x).ie = s.ie := rfl
@[simp] theorem State.setDraws_status (s : State) (x : Nat) : (s.setDraws x).status = s.status := rfl
@[simp] theorem State.setDraws_locked (s : State) (x : Nat) : (s.setDraws x).locked = s.locked := rfl
@[simp] theorem State.setDraws_res (s : State) (x : Nat) : (s.setDraws x).res = s.res := rfl
@[simp] theorem State.setDraws_ctxs (s : State) (x : Nat) : (s.setDraws x).ctxs = s.ctxs := rfl
@[simp] theorem State.setDraws_dmem (s : State) (x : Nat) : (s.setDraws x).dmem = s.dmem := rfl
@[simp] theorem State.setDraws_engine (s : State) (x : Nat) : (s.setDraws x).engine = s.engine := rfl
@[simp] theorem State.setDraws_host (s : State) (x : Nat) : (s.setDraws x).host = s.host := rfl
@[simp] theorem State.setDraws_answer (s : State) (x : Nat) : (s.setDraws x).answer = s.answer := rfl
@[simp] theorem State.setDraws_draws (s : State) (x : Nat) : (s.setDraws x).draws = x := rfl

end Sys2Proof.Machine
end

