-- ==== Sys2Proof/Laws/Units.lean ====
section
/-! SUPPORT. The lengths of the datapath units' outputs, the elements of the moves, and the value of is_pow2. -/

namespace Sys2Proof.Machine

variable {p : Prec}

@[simp] theorem length_zipCpx (re im : List (Fp p)) : (zipCpx re im).length = min re.length im.length := by
  simp [zipCpx]

@[simp] theorem length_bitrevList (a : List (Fp p)) (n : Nat) : (bitrevList a n).length = n := by simp [bitrevList]

@[simp] theorem length_bitrevCpx (z : List (Cpx p)) (n : Nat) : (bitrevCpx z n).length = n := by simp [bitrevCpx]

@[simp] theorem length_shiftPerm (a : List (Fp p)) (n : Nat) : (shiftPerm a n).length = n := by simp [shiftPerm]

@[simp] theorem length_cascadeStage (dir : Dir) (n s : Nat) (z : List (Cpx p)) : (cascadeStage dir n s z).length = n := by
  simp [cascadeStage]

/-- A fold of steps that each give a list of length `n` gives one, from a list of length `n`. -/
theorem length_foldl_stage {α β : Type} (f : List α → β → List α) (n : Nat) (hf : ∀ z t, (f z t).length = n) (ts : List β)
    (z : List α) (hz : z.length = n) : (ts.foldl f z).length = n := by
  induction ts generalizing z with
  | nil => exact hz
  | cons t ts ih => exact ih _ (hf z t)

@[simp] theorem length_cascade (dir : Dir) (n : Nat) (z : List (Cpx p)) : (cascade dir n z).length = n :=
  length_foldl_stage _ n (fun _ _ => length_cascadeStage ..) _ _ (length_bitrevCpx z n)

@[simp] theorem length_scale (a : List (Fp p)) (n : Nat) : (scale a n).length = a.length := by simp [scale]

@[simp] theorem length_scaleCpx (z : List (Cpx p)) (n : Nat) : (scaleCpx z n).length = z.length := by simp [scaleCpx]

@[simp] theorem length_pack (x : List (Fp p)) (n : Nat) : (pack x n).length = n / 2 := by simp [pack]

@[simp] theorem length_unpack (n : Nat) (z : List (Cpx p)) : (unpack n z).length = n / 2 + 1 := by simp [unpack]

@[simp] theorem length_repack (n : Nat) (z : List (Cpx p)) : (repack n z).length = n / 2 := by simp [repack]

@[simp] theorem length_unzip (z : List (Cpx p)) (n : Nat) : (unzip z n).length = n := by simp [unzip]

@[simp] theorem length_combineHalves (n : Nat) (e o : List (Cpx p)) : (combineHalves n e o).length = n := by
  simp [combineHalves]

@[simp] theorem length_realSpectrum (n : Nat) (x : List (Fp p)) : (realSpectrum n x).length = n / 2 + 1 := by
  simp [realSpectrum]

@[simp] theorem length_splitTransform (n : Nat) (z : List (Cpx p)) : (splitTransform n z).length = n := by
  simp [splitTransform]

@[simp] theorem length_realSignal (n : Nat) (x : List (Cpx p)) : (realSignal n x).length = n := by simp [realSignal]

@[simp] theorem length_hartleyStage (n s : Nat) (a : List (Fp p)) : (hartleyStage n s a).length = n := by
  simp [hartleyStage]

@[simp] theorem length_hcascade (n : Nat) (a : List (Fp p)) : (hcascade n a).length = n :=
  length_foldl_stage _ n (fun _ _ => length_hartleyStage ..) _ _ (length_bitrevList a n)

@[simp] theorem length_hdirect (n : Nat) (a : List (Fp p)) : (hdirect n a).length = n := by simp [hdirect]

@[simp] theorem length_hartley (n : Nat) (a : List (Fp p)) : (hartley n a).length = n := by
  unfold hartley; split <;> simp

/-- Element `i` of a list of outputs computed index by index. -/
theorem at0_map_range (f : Nat → Fp p) {n i : Nat} (h : i < n) : at0 ((List.range n).map f) i = f i := by
  simp [at0, h]

theorem cat0_map_range (f : Nat → Cpx p) {n i : Nat} (h : i < n) : cat0 ((List.range n).map f) i = f i := by
  simp [cat0, h]

/-- is_pow2 says what R12 says it says. -/
theorem isPow2_iff (n : Nat) : isPow2 n = true ↔ ∃ b, n = 2 ^ b := by
  rw [isPow2, decide_eq_true_iff]
  exact ⟨fun h => ⟨_, h.symm⟩, fun ⟨b, hb⟩ => by subst hb; simp [Nat.log2_two_pow]⟩

/-- Every bit-reversed index is below 2^b. -/
theorem bitrev_lt (b i : Nat) : bitrev b i < 2 ^ b := by
  induction b generalizing i with
  | zero => simp [bitrev]
  | succ b ih =>
    have h1 := ih (i / 2)
    have h2 : i % 2 * 2 ^ b ≤ 1 * 2 ^ b := Nat.mul_le_mul_right _ (by omega)
    rw [bitrev, pow_succ]
    omega

end Sys2Proof.Machine
end

