-- ==== Sys2Proof/Laws/Command.lean ====
section
/-! SUPPORT. Once for all commands: exec is the life of a command over its checks and its effect; what the checks say when they
pass; what an effect can change. -/

namespace Sys2Proof.Machine

/-- Every arm of exec is the life of a command (R243, R244) over that command's checks and effect. -/
theorem exec_eq_runCommand (i : Instr) (s : State) : exec i s = runCommand (encode i) (checkOf i) (effectOf i) s := by
  cases i <;> rfl

/-- At an IDLE engine a command is issued (R243). -/
theorem exec_idle {s : State} (h : s.engine = .idle) (i : Instr) :
    exec i s = .next (issueCommand (encode i) (checkOf i s.locked s) s) := by
  simp [exec_eq_runCommand, runCommand, h]

/-- At the BUSY engine that captured it a command completes (R244). -/
theorem exec_busy {s : State} {r : LockedRegs} {n : Nat} (h : s.engine = .busy r n) (i : Instr) :
    exec i s =
      if r.cmd = encode i ∧ checkOf i r s = none then .next (finishCommand (effectOf i r s)) else .fault .acceptanceBroken := by
  simp [exec_eq_runCommand, runCommand, h]

/-! ### What the shared operations change -/

@[simp] theorem startCommand_engine (w : Word) (s : State) : (startCommand w s).engine = s.engine := rfl
@[simp] theorem startCommand_params (w : Word) (s : State) : (startCommand w s).params = s.params := rfl
@[simp] theorem startCommand_ctxs (w : Word) (s : State) : (startCommand w s).ctxs = s.ctxs := rfl
@[simp] theorem startCommand_dmem (w : Word) (s : State) : (startCommand w s).dmem = s.dmem := rfl
@[simp] theorem startCommand_res (w : Word) (s : State) : (startCommand w s).res = s.res := rfl
@[simp] theorem startCommand_host (w : Word) (s : State) : (startCommand w s).host = s.host := rfl
@[simp] theorem startCommand_draws (w : Word) (s : State) : (startCommand w s).draws = s.draws := rfl
@[simp] theorem startCommand_status (w : Word) (s : State) : (startCommand w s).status = s.status.start := rfl
@[simp] theorem startCommand_locked (w : Word) (s : State) : (startCommand w s).locked = { s.locked with cmd := w } := rfl

/-- Issuing a command leaves all of the block but CMD, STATUS, the engine and the draws. -/
theorem issueCommand_frame (w : Word) (e : Option CmdError) (s : State) :
    (issueCommand w e s).params = s.params ∧ (issueCommand w e s).ie = s.ie ∧ (issueCommand w e s).res = s.res ∧
      (issueCommand w e s).ctxs = s.ctxs ∧ (issueCommand w e s).dmem = s.dmem ∧ (issueCommand w e s).host = s.host ∧
      (issueCommand w e s).answer = s.answer := by
  cases e <;> exact ⟨rfl, rfl, rfl, rfl, rfl, rfl, rfl⟩

/-- The checks and effects read nothing of the state but the parameters, the context file, DMEM and the draws. -/
theorem checkOf_congr (i : Instr) (r : LockedRegs) {s t : State} (hp : t.params = s.params) (hc : t.ctxs = s.ctxs) :
    checkOf i r t = checkOf i r s := by
  have hs : ∀ c, t.slot c = s.slot c := fun c => by simp [State.slot, hc]
  cases i <;>
    simp [checkOf, checkCfgFft, checkCfgRfft, checkCfgGz, checkCfgDht, checkConfig, checkFftDir, checkFftInv, checkFftInvn,
      checkComplex, checkFftShift, checkRfftDir, checkRfftDirc, checkRfftInv, checkRfftInvn, checkRealInverse, checkGzDir,
      checkDhtDir, checkDhtInvn, checkHartley, checkCtx, hs, hp]

/-- No check reads CMD. -/
theorem checkOf_cmd (i : Instr) (r : LockedRegs) (w : Word) (s : State) : checkOf i { r with cmd := w } s = checkOf i r s := by
  cases i <;> rfl

/-- An accepted command passes its checks over the registers it captured, in the state its acceptance leaves. -/
theorem checkOf_accepted {i : Instr} {s : State} (h : checkOf i s.locked s = none) (w : Word) :
    checkOf i { s.locked with cmd := w } (issueCommand w none s) = none := by
  exact (checkOf_congr i _ (s := s) rfl rfl).trans ((checkOf_cmd i s.locked w s).trans h)

/-! ### What the checks say when they pass -/

theorem checkCtx_eq_none {c : Nat} {kind : Kind} {p : Prec} {s : State} :
    checkCtx c kind p s = none ↔
      c < s.params.nctx ∧ (s.slot c).valid = true ∧ (s.slot c).kind = kind ∧ (s.slot c).prec = p := by
  unfold checkCtx
  split_ifs <;> simp_all

theorem findSome?_ite_none {α β : Type} (u : List α) (q : α → Prop) [DecidablePred q] (f : α → β) :
    (u.findSome? fun x => if q x then some (f x) else none) = none ↔ ∀ x ∈ u, ¬ q x := by
  simp [List.findSome?_eq_none_iff]

theorem overlapError_eq_none {r : LockedRegs} {p : Prec} {u : Uses} :
    overlapError r p u = none ↔ u.Pairwise fun x y => (r.desc x.1).overlaps (r.desc y.1) p = false := by
  induction u with
  | nil => simp [overlapError]
  | cons x u ih =>
    rw [overlapError, Option.or_eq_none_iff, ih, List.pairwise_cons, findSome?_ite_none]
    simp

/-- check_bufs passes exactly when every used descriptor has its length, is aligned and in range, and no two overlap (R242). -/
theorem checkBufs_eq_none {r : LockedRegs} {p : Prec} {d : Nat} {u : Uses} :
    checkBufs r p d u = none ↔
      (∀ x ∈ u, (r.desc x.1).len.toNat = x.2) ∧ (∀ x ∈ u, (r.desc x.1).aligned p = true) ∧
        (∀ x ∈ u, (r.desc x.1).inRange p d = true) ∧
        u.Pairwise fun x y => (r.desc x.1).overlaps (r.desc y.1) p = false := by
  unfold checkBufs lenError alignError rangeError
  simp only [Option.or_eq_none_iff, findSome?_ite_none, overlapError_eq_none, ne_eq, not_not, Bool.not_eq_false]

/-- A used descriptor of a command that passed its checks ends within DMEM. -/
theorem span_le_of_checkBufs {r : LockedRegs} {p : Prec} {d : Nat} {u : Uses} (h : checkBufs r p d u = none) {k : Fin 4} {n : Nat}
    (hk : (k, n) ∈ u) : (r.desc k).start + elemBytes p * n ≤ d := by
  obtain ⟨h1, -, h3, -⟩ := checkBufs_eq_none.1 h
  have hl : (r.desc k).len.toNat = n := h1 _ hk
  have hr : (r.desc k).stop p ≤ d := of_decide_eq_true (h3 _ hk)
  subst hl
  exact hr

/-- Every buffer a command writes is one whose span its checks have found within DMEM (R64, R73). -/
theorem writes_le_of_check {i : Instr} {r : LockedRegs} {s : State} (h : checkOf i r s = none) {k : Fin 4} {n : Nat}
    (hk : (k, n) ∈ writesOf i r s) : (r.desc k).start + elemBytes i.prec * n ≤ s.params.dmemBytes := by
  cases i <;>
    simp only [checkOf, checkFftDir, checkFftInv, checkFftInvn, checkComplex, checkRfftDir, checkRfftDirc, checkRfftInv,
      checkRfftInvn, checkRealInverse, checkDhtDir, checkDhtInvn, checkHartley, Option.or_eq_none_iff] at h <;>
    simp only [writesOf, List.mem_cons, List.not_mem_nil, or_false] at hk <;>
    first
    | exact hk.elim
    | (refine span_le_of_checkBufs h.2 ?_
       simp_all [Instr.ctx])
    | (simp only [checkFftShift] at h
       split at h
       · simp at h
       · refine span_le_of_checkBufs h ?_
         simp_all)

/-! ### What an effect changes -/

@[simp] theorem readBuf_snd (p : Prec) (r : LockedRegs) (k : Fin 4) (n : Nat) (s : State) :
    (readBuf p r k n s).2 = s.setDraws (s.draws + elemBytes p * n) := rfl

@[simp] theorem readCpx_snd (p : Prec) (r : LockedRegs) (k l : Fin 4) (n : Nat) (s : State) :
    (readCpx p r k l n s).2 = s.setDraws (s.draws + elemBytes p * n + elemBytes p * n) := rfl

@[simp] theorem writeBuf_eq {p : Prec} (r : LockedRegs) (k : Fin 4) (vals : List (Fp p)) (s : State) :
    writeBuf r k vals s = s.setDmem (s.dmem.storeElems (r.desc k).start vals) := rfl

@[simp] theorem writeCpx_eq {p : Prec} (r : LockedRegs) (k l : Fin 4) (z : List (Cpx p)) (s : State) :
    writeCpx r k l z s = (s.setDmem (s.dmem.storeElems (r.desc k).start (z.map Cpx.re))).setDmem
      ((s.dmem.storeElems (r.desc k).start (z.map Cpx.re)).storeElems (r.desc l).start (z.map Cpx.im)) := rfl

@[simp] theorem length_readBuf (p : Prec) (r : LockedRegs) (k : Fin 4) (n : Nat) (s : State) :
    (readBuf p r k n s).1.length = n := by simp [readBuf]

@[simp] theorem length_readCpx (p : Prec) (r : LockedRegs) (k l : Fin 4) (n : Nat) (s : State) :
    (readCpx p r k l n s).1.length = n := by simp [readCpx]

/-- No effect touches the parameters, CTRL, STATUS, the locked registers, the engine, the host or the answer (R244). -/
theorem effectOf_frame (i : Instr) (r : LockedRegs) (s : State) :
    (effectOf i r s).params = s.params ∧ (effectOf i r s).ie = s.ie ∧ (effectOf i r s).status = s.status ∧
      (effectOf i r s).locked = s.locked ∧ (effectOf i r s).engine = s.engine ∧ (effectOf i r s).host = s.host ∧
      (effectOf i r s).answer = s.answer := by
  cases i <;>
    simp [effectOf, effectFftDir, effectFftInv, effectFftInvn, effectFftShift, effectRfftDir, effectRfftDirc, effectRfftInv,
      effectRfftInvn, effectGzDir, effectDhtDir, effectDhtInvn, inPlace, configure, State.setSlot]

theorem effectOf_ctxs {i : Instr} (h : isConfig i = false) (r : LockedRegs) (s : State) : (effectOf i r s).ctxs = s.ctxs := by
  cases i <;>
    simp_all [isConfig, effectOf, effectFftDir, effectFftInv, effectFftInvn, effectFftShift, effectRfftDir, effectRfftDirc,
      effectRfftInv, effectRfftInvn, effectGzDir, effectDhtDir, effectDhtInvn, inPlace]

theorem effectOf_res {i : Instr} (h : isGoertzel i = false) (r : LockedRegs) (s : State) : (effectOf i r s).res = s.res := by
  cases i <;>
    simp_all [isGoertzel, effectOf, effectFftDir, effectFftInv, effectFftInvn, effectFftShift, effectRfftDir, effectRfftDirc,
      effectRfftInv, effectRfftInvn, effectDhtDir, effectDhtInvn, inPlace, configure, State.setSlot]

theorem one_store {p : Prec} {k : Fin 4} {a : List (Fp p)} {n : Nat} (ha : a.length = n) :
    ([(k, a)].map fun x => (x.1, x.2.length)) = [(k, n)] := by simp [ha]

theorem two_stores {p : Prec} {k l : Fin 4} {a b : List (Fp p)} {n : Nat} (ha : a.length = n) (hb : b.length = n) :
    ([(k, a), (l, b)].map fun x => (x.1, x.2.length)) = [(k, n), (l, n)] := by simp [ha, hb]

/-- An effect's DMEM is its old DMEM after the stores of the buffers it writes, each a list of the length `writesOf` gives. -/
theorem effectOf_dmem (i : Instr) (r : LockedRegs) (s : State) :
    ∃ p, p = i.prec ∧ ∃ stores : List (Fin 4 × List (Fp p)),
      (stores.map fun x => (x.1, x.2.length)) = writesOf i r s ∧
        (effectOf i r s).dmem = stores.foldl (fun m x => m.storeElems (r.desc x.1).start x.2) s.dmem := by
  cases i with
  | cfgFft c p | cfgRfft c p | cfgGz c p | cfgDht c p | gzDir c p => exact ⟨p, rfl, [], rfl, rfl⟩
  | fftDir c p =>
    exact ⟨p, rfl, [(0, (cascade .fwd (s.slot c).size (readCpx p r 0 1 (s.slot c).size s).1).map Cpx.re),
      (1, (cascade .fwd (s.slot c).size (readCpx p r 0 1 (s.slot c).size s).1).map Cpx.im)], two_stores (p := p) (by simp [Instr.ctx]) (by simp [Instr.ctx]), rfl⟩
  | fftInv c p =>
    exact ⟨p, rfl, [(0, (cascade .inv (s.slot c).size (readCpx p r 0 1 (s.slot c).size s).1).map Cpx.re),
      (1, (cascade .inv (s.slot c).size (readCpx p r 0 1 (s.slot c).size s).1).map Cpx.im)], two_stores (p := p) (by simp [Instr.ctx]) (by simp [Instr.ctx]), rfl⟩
  | fftInvn c p =>
    exact ⟨p, rfl, [(0, (scaleCpx (cascade .inv (s.slot c).size (readCpx p r 0 1 (s.slot c).size s).1) (s.slot c).size).map Cpx.re),
      (1, (scaleCpx (cascade .inv (s.slot c).size (readCpx p r 0 1 (s.slot c).size s).1) (s.slot c).size).map Cpx.im)],
      two_stores (p := p) (by simp [Instr.ctx]) (by simp [Instr.ctx]), rfl⟩
  | fftShift p => exact ⟨p, rfl, [(0, shiftPerm (readBuf p r 0 r.b0.len.toNat s).1 r.b0.len.toNat)], one_store (p := p) (by simp), rfl⟩
  | rfftDir c p =>
    exact ⟨p, rfl, [(1, (realSpectrum (s.slot c).size (readBuf p r 0 (s.slot c).size s).1).map Cpx.re),
      (2, (realSpectrum (s.slot c).size (readBuf p r 0 (s.slot c).size s).1).map Cpx.im)], two_stores (p := p) (by simp [Instr.ctx]) (by simp [Instr.ctx]), rfl⟩
  | rfftDirc c p =>
    exact ⟨p, rfl, [(2, (splitTransform (s.slot c).size (readCpx p r 0 1 (s.slot c).size s).1).map Cpx.re),
      (3, (splitTransform (s.slot c).size (readCpx p r 0 1 (s.slot c).size s).1).map Cpx.im)],
      two_stores (p := p) (by simp [Instr.ctx]) (by simp [Instr.ctx]), rfl⟩
  | rfftInv c p =>
    exact ⟨p, rfl, [(2, realSignal (s.slot c).size (readCpx p r 0 1 ((s.slot c).size / 2 + 1) s).1)], one_store (p := p) (by simp [Instr.ctx]), rfl⟩
  | rfftInvn c p =>
    exact ⟨p, rfl, [(2, scale (realSignal (s.slot c).size (readCpx p r 0 1 ((s.slot c).size / 2 + 1) s).1) (s.slot c).size)],
      one_store (p := p) (by simp [Instr.ctx]), rfl⟩
  | dhtDir c p =>
    exact ⟨p, rfl, [(0, hartley (s.slot c).size (readBuf p r 0 (s.slot c).size s).1)], one_store (p := p) (by simp [Instr.ctx]), rfl⟩
  | dhtInvn c p =>
    exact ⟨p, rfl, [(0, scale (hartley (s.slot c).size (readBuf p r 0 (s.slot c).size s).1) (s.slot c).size)],
      one_store (p := p) (by simp [Instr.ctx]), rfl⟩

theorem foldl_stores_wf {p : Prec} (r : LockedRegs) (stores : List (Fin 4 × List (Fp p))) {m : Memory} (h : m.wf) :
    (stores.foldl (fun m x => m.storeElems (r.desc x.1).start x.2) m).wf := by
  induction stores generalizing m with
  | nil => exact h
  | cons x xs ih => exact ih (Memory.storeElems_wf h _ _)

theorem foldl_stores_within {p : Prec} (r : LockedRegs) (size : Nat) (stores : List (Fin 4 × List (Fp p)))
    (hs : ∀ x ∈ stores, (r.desc x.1).start + elemBytes p * x.2.length ≤ size) {m : Memory} (h : m.within size) :
    (stores.foldl (fun m x => m.storeElems (r.desc x.1).start x.2) m).within size := by
  induction stores generalizing m with
  | nil => exact h
  | cons x xs ih =>
    exact ih (fun y hy => hs y (List.mem_cons_of_mem _ hy)) (Memory.storeElems_within _ _ h (hs x (List.mem_cons_self ..)))

theorem foldl_stores_outside {p : Prec} (r : LockedRegs) (a : Nat) (stores : List (Fin 4 × List (Fp p)))
    (hs : ∀ x ∈ stores, ¬ inSpan r p x.1 x.2.length a) (m : Memory) :
    (stores.foldl (fun m x => m.storeElems (r.desc x.1).start x.2) m).byteAt? a = m.byteAt? a := by
  induction stores generalizing m with
  | nil => rfl
  | cons x xs ih =>
    rw [List.foldl_cons, ih (fun y hy => hs y (List.mem_cons_of_mem _ hy))]
    have := hs x (List.mem_cons_self ..)
    simp only [inSpan, not_and_or, not_le, not_lt] at this
    exact Memory.byteAt?_storeElems_outside _ _ _ _ this

/-- Every effect keeps DMEM in canonical form. -/
theorem effectOf_wf {s : State} (h : s.dmem.wf) (i : Instr) (r : LockedRegs) : (effectOf i r s).dmem.wf := by
  obtain ⟨_, rfl, stores, -, hd⟩ := effectOf_dmem i r s
  exact hd ▸ foldl_stores_wf r stores h

/-- The effect of a command that passed its checks keeps DMEM within its size. -/
theorem effectOf_within {i : Instr} {r : LockedRegs} {s : State} (hc : checkOf i r s = none)
    (h : s.dmem.within s.params.dmemBytes) : (effectOf i r s).dmem.within s.params.dmemBytes := by
  obtain ⟨_, rfl, stores, hl, hd⟩ := effectOf_dmem i r s
  refine hd ▸ foldl_stores_within r _ stores (fun x hx => writes_le_of_check hc ?_) h
  exact hl ▸ List.mem_map_of_mem (f := fun x => (x.1, x.2.length)) hx

/-- An effect leaves every byte outside the buffers it writes (R73). -/
theorem effectOf_outside (i : Instr) (r : LockedRegs) (s : State) (a : Nat)
    (h : ∀ k n, (k, n) ∈ writesOf i r s → ¬ inSpan r i.prec k n a) :
    (effectOf i r s).dmem.byteAt? a = s.dmem.byteAt? a := by
  obtain ⟨_, rfl, stores, hl, hd⟩ := effectOf_dmem i r s
  refine hd ▸ foldl_stores_outside r a stores (fun x hx => h _ _ ?_) _
  exact hl ▸ List.mem_map_of_mem (f := fun x => (x.1, x.2.length)) hx

/-- A configuration command passes its checks exactly when its slot exists and its size is legal (R160 to R163). -/
theorem checkConfig_eq_none {c : Nat} {ok : Nat → Bool} {r : LockedRegs} {s : State} :
    checkConfig c ok r s = none ↔
      c < s.params.nctx ∧ 1 ≤ r.arg0.toNat ∧ r.arg0.toNat ≤ s.params.nmax ∧ ok r.arg0.toNat = true := by
  unfold checkConfig
  by_cases h1 : s.params.nctx ≤ c
  · simp [h1, Nat.not_lt.2 h1]
  · rw [if_neg h1]
    split
    · rename_i h2
      refine ⟨fun h => by simp at h, fun ⟨_, h3, h4, h5⟩ => ?_⟩
      rcases h2 with h2 | h2 | h2
      · omega
      · omega
      · simp [h2] at h5
    · rename_i h2
      simp only [not_or, not_lt, Bool.not_eq_false] at h2
      exact ⟨fun _ => ⟨by omega, by omega, h2.2.1, h2.2.2⟩, fun _ => rfl⟩

/-- What a configuration command that passed its checks puts in its slot satisfies R33. -/
theorem configured_slot_inv {i : Instr} {r : LockedRegs} {s : State} (hi : isConfig i = true) (h : checkOf i r s = none) :
    ∃ x : Slot, (effectOf i r s).ctxs = s.ctxs.set i.ctx x ∧ x.Inv s.params ∧ i.ctx < s.params.nctx := by
  have two_le : ∀ n, isPow2 (n / 2) = true → 2 ≤ n := by
    intro n h2
    obtain ⟨b, hb⟩ := (isPow2_iff _).1 h2
    have : 0 < 2 ^ b := Nat.two_pow_pos b
    omega
  cases i with
  | cfgFft c p =>
    obtain ⟨h1, h2, h3, h4⟩ := checkConfig_eq_none.1 h
    exact ⟨_, rfl, ⟨h2, h3, h4⟩, h1⟩
  | cfgRfft c p =>
    obtain ⟨h1, h2, h3, h4⟩ := checkConfig_eq_none.1 h
    obtain ⟨h4, h5⟩ := Bool.and_eq_true_iff.1 h4
    exact ⟨_, rfl, ⟨h2, h3, h4, two_le _ h5⟩, h1⟩
  | cfgGz c p =>
    obtain ⟨h1, h2, h3, -⟩ := checkConfig_eq_none.1 h
    exact ⟨_, rfl, ⟨h2, h3, trivial⟩, h1⟩
  | cfgDht c p =>
    obtain ⟨h1, h2, h3, -⟩ := checkConfig_eq_none.1 h
    exact ⟨_, rfl, ⟨h2, h3, trivial⟩, h1⟩
  | fftDir c p | fftInv c p | fftInvn c p | fftShift p | rfftDir c p | rfftDirc c p | rfftInv c p | rfftInvn c p | gzDir c p
  | dhtDir c p | dhtInvn c p => simp [isConfig] at hi

end Sys2Proof.Machine
end

