-- ==== Sys2Proof/Laws/Bus.lean ====
section
/-! SUPPORT. Once for the bus port: everything a host step can do, everything a completion step can do, and the three kinds of
step. -/

namespace Sys2Proof.Machine

@[simp] theorem reply_eq (s : State) (x : BusAnswer) : s.reply x = s.setAnswer (some x) := rfl

theorem of_ite_eq_some {α : Type} {c : Prop} [Decidable c] {a b : Option α} {x : α} (h : (if c then a else b) = some x) :
    c ∧ a = some x ∨ ¬ c ∧ b = some x := by
  by_cases hc : c
  · exact .inl ⟨hc, by rwa [if_pos hc] at h⟩
  · exact .inr ⟨hc, by rwa [if_neg hc] at h⟩

/-- The register at an offset lies at that offset (R21). -/
theorem Reg.ofOffset_offset {q : Params} {off : Nat} {r : Reg} (h : Reg.ofOffset q off = some r) : r.offset = off := by
  unfold Reg.ofOffset at h
  iterate 20
    rcases of_ite_eq_some h with ⟨rfl, h⟩ | ⟨-, h⟩
    · exact (Option.some.inj h) ▸ rfl
  rcases of_ite_eq_some h with ⟨hc, h⟩ | ⟨-, h⟩
  · rw [← Option.some.inj h, Reg.offset]; omega
  rcases of_ite_eq_some h with ⟨hc, h⟩ | ⟨-, h⟩
  · rw [← Option.some.inj h, Reg.offset]; omega
  · cases h

/-- The write of a word to CMD (R243): OVR while BUSY; otherwise the command is issued, or ends with ILLEGAL. -/
theorem writeCmd_cases (v : Word) (s : State) :
    (∃ r n, s.engine = .busy r n ∧ writeCmd v s = .next (s.setStatus s.status.overrun)) ∨
      (s.engine = .idle ∧ ∃ i, decodeWord v = .ok i ∧
        writeCmd v s = .next (issueCommand (encode i) (checkOf i s.locked s) s)) ∨
      (s.engine = .idle ∧ ∃ e, decodeWord v = .error e ∧
        writeCmd v s = .next (issueCommand v (some ⟨.illegal, 0, 0⟩) s)) := by
  cases he : s.engine with
  | busy r n => exact .inl ⟨r, n, rfl, by simp [writeCmd, he, writeReg, writeLocked, Engine.isBusy]⟩
  | idle =>
    cases hd : decodeWord v with
    | ok i => exact .inr (.inl ⟨rfl, i, rfl, by simp [writeCmd, he, hd, exec_idle he]⟩)
    | error e => exact .inr (.inr ⟨rfl, e, rfl, by simp [writeCmd, he, hd]⟩)

/-- The region of an offset in the DMEM window (R61). -/
theorem regionOf_window {q : Params} {off : Nat} (h0 : 0x1000000 ≤ off) (h1 : off < 0x1000000 + q.dmemBytes) :
    regionOf q off = .dmem (off - 0x1000000) := by
  rw [regionOf, if_neg (by omega), if_pos ⟨h0, h1⟩]
  rfl

/-- What a read of the DMEM window does (R62, R70). -/
theorem transact_read_window {s : State} {off : Nat} (h0 : 0x1000000 ≤ off) (h1 : off < 0x1000000 + s.params.dmemBytes)
    (width : Nat) :
    transact (.read off width) s =
      if dmemAccessOk s.params (off - 0x1000000) width then
        .next ((s.setDraws (s.draws + width)).reply (.value (BitVec.ofNat 64 (s.dmem.load width (off - 0x1000000) s.draws))))
      else .next (s.reply .busError) := by
  simp only [transact, regionOf_window h0 h1]

/-- What a write to the DMEM window does (R62, R70). -/
theorem transact_write_window {s : State} {off : Nat} (h0 : 0x1000000 ≤ off) (h1 : off < 0x1000000 + s.params.dmemBytes)
    (width : Nat) (v : BitVec 64) :
    transact (.write off width v) s =
      if dmemAccessOk s.params (off - 0x1000000) width then
        .next ((s.setDmem (s.dmem.store width (off - 0x1000000) v.toNat)).reply .written)
      else .next (s.reply .busError) := by
  simp only [transact, regionOf_window h0 h1]

/-- The state in which a host write is performed: the transaction has left the queue, and its answer is `written`. -/
def afterWrite (rest : List HostEvent) (s : State) : State := (s.setHost rest).reply .written

/-- A step that changes nothing of the block: only the host's queue, the answer and the draws may differ. -/
abbrev SameBlock (s t : State) : Prop :=
  t.params = s.params ∧ t.ie = s.ie ∧ t.status = s.status ∧ t.locked = s.locked ∧ t.res = s.res ∧ t.ctxs = s.ctxs ∧
    t.dmem = s.dmem ∧ t.engine = s.engine

theorem sameBlock_quiet (s : State) (h : List HostEvent) (a : Option BusAnswer) (d : Nat) :
    SameBlock s (((s.setHost h).setAnswer a).setDraws d) := ⟨rfl, rfl, rfl, rfl, rfl, rfl, rfl, rfl⟩

/-- EVERYTHING A HOST STEP CAN DO. It always answers a next state, which is one of: nothing but an answer; a store to DMEM; a
register write; the issue of a legal command, or of an illegal word, at an IDLE engine; a reset. -/
theorem hostStep_cases (ev : HostEvent) (rest : List HostEvent) (s : State) :
    ∃ t, hostStep ev rest s = .next t ∧
      (SameBlock s t ∨
        (∃ off width v, ev = .bus (.write off width v) ∧ regionOf s.params off = .dmem (off - dmemWindow) ∧
          dmemAccessOk s.params (off - dmemWindow) width = true ∧
          t = ((s.setHost rest).setDmem (s.dmem.store width (off - dmemWindow) v.toNat)).reply .written) ∨
        (∃ off v r, ev = .bus (.write off 4 v) ∧ Reg.ofOffset s.params off = some r ∧ (r = .cmd → s.engine ≠ .idle) ∧
          t = writeReg (v.setWidth 32) (afterWrite rest s) r) ∨
        (s.engine = .idle ∧ ∃ v i, ev = .bus (.write 0x018 4 v) ∧ decodeWord (v.setWidth 32) = .ok i ∧
          t = issueCommand (encode i) (checkOf i s.locked s) (afterWrite rest s)) ∨
        (s.engine = .idle ∧ ∃ v e, ev = .bus (.write 0x018 4 v) ∧ decodeWord (v.setWidth 32) = .error e ∧
          t = issueCommand (v.setWidth 32) (some ⟨.illegal, 0, 0⟩) (afterWrite rest s)) ∨
        (ev = .reset ∧ t = resetBlock (s.setHost rest))) := by
  have region_dmem : ∀ {off a}, regionOf s.params off = .dmem a → a = off - dmemWindow := by
    intro off a h
    unfold regionOf at h
    split_ifs at h
    exact (Region.dmem.inj h).symm
  have quiet : ∀ h a, SameBlock s ((s.setHost h).setAnswer a) := fun h a => sameBlock_quiet s h a s.draws
  cases ev with
  | reset => exact ⟨_, rfl, .inr (.inr (.inr (.inr (.inr ⟨rfl, rfl⟩))))⟩
  | wait =>
    refine ⟨_, rfl, .inl ?_⟩
    split
    · exact quiet rest _
    · exact quiet s.host _
  | bus op =>
    cases op with
    | read off width =>
      cases hr : regionOf s.params off with
      | reg =>
        cases hok : regAccessOk off width with
        | true => exact ⟨(s.setHost rest).setAnswer (some (.value ((readOffset (s.setHost rest) off).setWidth 64))),
            by simp [hostStep, transact, hr, hok], .inl (quiet rest _)⟩
        | false => exact ⟨(s.setHost rest).setAnswer (some .busError), by simp [hostStep, transact, hr, hok], .inl (quiet rest _)⟩
      | dmem a =>
        cases hok : dmemAccessOk s.params a width with
        | true =>
          exact ⟨((s.setHost rest).setDraws (s.draws + width)).setAnswer
              (some (.value (BitVec.ofNat 64 (s.dmem.load width a s.draws)))),
            by simp [hostStep, transact, hr, hok], .inl ⟨rfl, rfl, rfl, rfl, rfl, rfl, rfl, rfl⟩⟩
        | false => exact ⟨(s.setHost rest).setAnswer (some .busError), by simp [hostStep, transact, hr, hok], .inl (quiet rest _)⟩
      | reserved => exact ⟨(s.setHost rest).setAnswer (some .busError), by simp [hostStep, transact, hr], .inl (quiet rest _)⟩
    | write off width v =>
      cases hr : regionOf s.params off with
      | reg =>
        cases hok : regAccessOk off width with
        | false => exact ⟨(s.setHost rest).setAnswer (some .busError), by simp [hostStep, transact, hr, hok], .inl (quiet rest _)⟩
        | true =>
          obtain ⟨rfl, -⟩ := of_decide_eq_true hok
          have hs : hostStep (.bus (.write off 4 v)) rest s = writeOffset off (v.setWidth 32) (afterWrite rest s) := by
            simp [hostStep, transact, hr, hok, afterWrite]
          rw [hs]
          unfold writeOffset
          split
          · rename_i hreg
            rcases writeCmd_cases (v.setWidth 32) (afterWrite rest s) with ⟨r, n, he, hw⟩ | ⟨he, i, hd, hw⟩ | ⟨he, e, hd, hw⟩
            · have he' : s.engine = .busy r n := he
              refine ⟨_, hw, .inr (.inr (.inl ⟨off, v, .cmd, rfl, hreg, by simp [he'], ?_⟩))⟩
              simp [writeReg, writeLocked, he, Engine.isBusy]
            · refine ⟨_, hw, .inr (.inr (.inr (.inl ⟨he, v, i, ?_, hd, ?_⟩)))⟩
              · rw [← Reg.ofOffset_offset hreg]; rfl
              · rw [checkOf_congr i _ (s := s) (t := afterWrite rest s) rfl rfl]; rfl
            · refine ⟨_, hw, .inr (.inr (.inr (.inr (.inl ⟨he, v, e, ?_, hd, rfl⟩))))⟩
              rw [← Reg.ofOffset_offset hreg]; rfl
          · rename_i r hne hreg
            exact ⟨_, rfl, .inr (.inr (.inl ⟨off, v, r, rfl, hreg, fun h => absurd h (by rintro rfl; exact hne rfl), rfl⟩))⟩
          · exact ⟨_, rfl, .inl (quiet rest _)⟩
      | dmem a =>
        have ha := region_dmem hr
        cases hok : dmemAccessOk s.params a width with
        | true => exact ⟨((s.setHost rest).setDmem (s.dmem.store width a v.toNat)).reply .written,
            by simp [hostStep, transact, hr, hok], .inr (.inl ⟨off, width, v, rfl, ha ▸ hr, ha ▸ hok, by rw [ha]⟩)⟩
        | false => exact ⟨(s.setHost rest).setAnswer (some .busError), by simp [hostStep, transact, hr, hok], .inl (quiet rest _)⟩
      | reserved => exact ⟨(s.setHost rest).setAnswer (some .busError), by simp [hostStep, transact, hr], .inl (quiet rest _)⟩

/-- EVERYTHING THE COMPLETION STEP CAN DO: it completes the command the captured word spells, or it faults. -/
theorem completionStep_cases {s : State} {r : LockedRegs} {n : Nat} (h : s.engine = .busy r n) :
    (∃ i, decodeWord r.cmd = .ok i ∧ r.cmd = encode i ∧ checkOf i r s = none ∧
      completionStep r s = .next (finishCommand (effectOf i r s))) ∨
      completionStep r s = .fault .acceptanceBroken := by
  unfold completionStep
  split
  · rename_i i hd
    rw [exec_busy h]
    split
    · rename_i hc
      exact .inl ⟨i, hd, hc.1, hc.2, rfl⟩
    · exact .inr rfl
  · exact .inr rfl

/-- The three kinds of step (R253): none, the host's, the engine's. -/
theorem step_cases (s : State) :
    (s.engine = .idle ∧ s.host = [] ∧ step s = .next s) ∨
      (∃ ev rest, s.host = ev :: rest ∧ s.engine = .idle ∧ step s = hostStep ev rest s) ∨
      (∃ ev rest r n, s.host = ev :: rest ∧ s.engine = .busy r n ∧ engineIsNext s n = false ∧
        step s = hostStep ev rest (s.setEngine (.busy r (n - 1)))) ∨
      (∃ r n, s.engine = .busy r n ∧ engineIsNext s n = true ∧ step s = completionStep r s) := by
  cases he : s.engine with
  | idle =>
    cases hh : s.host with
    | nil => exact .inl ⟨rfl, rfl, by simp [step, blockStep, he, hh]⟩
    | cons ev rest => exact .inr (.inl ⟨ev, rest, rfl, rfl, by simp [step, blockStep, he, hh]⟩)
  | busy r n =>
    cases hn : engineIsNext s n with
    | true => exact .inr (.inr (.inr ⟨r, n, rfl, hn, by simp [step, blockStep, he, hn]⟩))
    | false =>
      cases hh : s.host with
      | nil => simp [engineIsNext, hh] at hn
      | cons ev rest =>
        exact .inr (.inr (.inl ⟨ev, rest, r, n, rfl, rfl, hn, by simp [step, blockStep, he, hn, hh, Engine.pass]⟩))

/-- A write to a register, but for an issuing CMD write, leaves everything but CTRL, STATUS and the locked registers. -/
theorem writeReg_frame (v : Word) (s : State) (r : Reg) :
    (writeReg v s r).params = s.params ∧ (writeReg v s r).res = s.res ∧ (writeReg v s r).ctxs = s.ctxs ∧
      (writeReg v s r).dmem = s.dmem ∧ (writeReg v s r).engine = s.engine ∧ (writeReg v s r).host = s.host ∧
      (writeReg v s r).answer = s.answer ∧ (writeReg v s r).draws = s.draws := by
  cases r <;> simp only [writeReg, writeLocked, writeStatus] <;> (try split) <;> simp

/-- A register write while BUSY leaves the locked registers (R37). -/
theorem writeReg_locked_of_busy {s : State} (h : s.engine.isBusy = true) (v : Word) (r : Reg) :
    (writeReg v s r).locked = s.locked := by
  cases r <;> simp [writeReg, writeLocked, writeStatus, h]

end Sys2Proof.Machine
end

