-- ==== Sys2Proof/Laws/Decode.lean ====
section
/-! SUPPORT. Once for the decoder: a word decodes to a command exactly when its fields are the command's. -/

namespace Sys2Proof

/-- EVERYTHING DECODING SAYS: the reserved fields are 0 and the other fields are the command's own. -/
theorem decodeWord_eq_ok {w : Word} {i : Instr} :
    decodeWord w = .ok i ↔
      rsv0Field w = 0 ∧ rsv1Field w = 0 ∧ opField w = i.op ∧ ctxField w = i.ctx ∧ precField w = i.prec := by
  constructor
  · intro h
    unfold decodeWord at h
    by_cases h1 : rsv0Field w ≠ 0
    · rw [if_pos h1] at h; cases h
    rw [if_neg h1] at h
    by_cases h2 : rsv1Field w ≠ 0
    · rw [if_pos h2] at h; cases h
    rw [if_neg h2] at h
    refine ⟨not_not.1 h1, not_not.1 h2, ?_⟩
    split at h
    case h_8 =>
      split at h
      · injection h with h; subst h; simp_all [Instr.op, Instr.ctx, Instr.prec]
      · cases h
    all_goals first
      | (cases h; done)
      | (injection h with h; subst h; simp_all [Instr.op, Instr.ctx, Instr.prec])
  · rintro ⟨h1, h2, h3, h4, h5⟩
    unfold decodeWord
    simp only [h1, h2, h3, h4, h5]
    cases i <;> simp [Instr.op, Instr.ctx, Instr.prec]

/-- Reading back the four bytes a word is laid out as. -/
theorem wordOfBytes_bytesOfWord (w : Word) :
    wordOfBytes (BitVec.ofNat 8 w.toNat) (BitVec.ofNat 8 (w.toNat / 256)) (BitVec.ofNat 8 (w.toNat / 65536))
      (BitVec.ofNat 8 (w.toNat / 16777216)) = w := by
  have := w.isLt
  unfold wordOfBytes
  apply BitVec.eq_of_toNat_eq
  simp only [BitVec.toNat_ofNat]
  omega

/-- Decoding the bytes of a word is decoding the word. -/
theorem decode_bytesOfWord (w : Word) (rest : List Byte) :
    decode (bytesOfWord w ++ rest) = (decodeWord w).map fun i => (i, rest) := by
  simp only [bytesOfWord, List.cons_append, List.nil_append, decode, wordOfBytes_bytesOfWord]
  cases decodeWord w <;> rfl

end Sys2Proof
end

