-- ==== Sys2Proof/Laws/Float.lean ====
section
/-! SUPPORT. Once for the floating-point primitives: what a pattern made of an exponent and a significand stands for, and that
`roundQ` rounds to nearest, ties to even, with gradual underflow and overflow to infinity. -/

namespace Sys2Proof.Machine

/-- What a pattern made of a sign and a number below the sign bit's weight stands for. -/
theorem classify_withSign (p : Prec) (neg : Bool) {bits : Nat} (h : bits < signWeight p) :
    classify (withSign p neg bits) =
      if bits / 2 ^ fracBits p = 2 ^ expBits p - 1 then (if bits % 2 ^ fracBits p = 0 then .inf neg else .nan)
      else if bits / 2 ^ fracBits p = 0 then .fin neg (bits % 2 ^ fracBits p)
      else .fin neg ((2 ^ fracBits p + bits % 2 ^ fracBits p) * 2 ^ (bits / 2 ^ fracBits p - 1)) := by
  have hw : signWeight p = 2 ^ fracBits p * 2 ^ expBits p := by cases p <;> rfl
  have h2 : 2 ^ fpWidth p = 2 * signWeight p := by cases p <;> rfl
  have hq : bits / 2 ^ fracBits p < 2 ^ expBits p := Nat.div_lt_of_lt_mul (hw ▸ h)
  have hn : (withSign p neg bits).toNat = (if neg then signWeight p else 0) + bits := by
    rw [withSign, BitVec.toNat_ofNat]
    apply Nat.mod_eq_of_lt
    cases neg <;> simp
    all_goals omega
  have h0 : 0 < 2 ^ fracBits p := Nat.two_pow_pos _
  have hs : decide (signWeight p ≤ (withSign p neg bits).toNat) = neg := by
    rw [hn]
    cases neg
    · simpa using h
    · simp
  have he : (withSign p neg bits).toNat / 2 ^ fracBits p % 2 ^ expBits p = bits / 2 ^ fracBits p := by
    rw [hn]
    cases neg
    · simp [Nat.mod_eq_of_lt hq]
    · rw [if_pos rfl, hw, Nat.add_comm, Nat.add_mul_div_left _ _ h0, Nat.add_mod_right, Nat.mod_eq_of_lt hq]
  have hf : (withSign p neg bits).toNat % 2 ^ fracBits p = bits % 2 ^ fracBits p := by
    rw [hn]
    cases neg
    · simp
    · rw [if_pos rfl, hw, Nat.add_comm, Nat.add_mul_mod_self_left]
  unfold classify
  simp only [hs, he, hf]

/-- The value of a finite pattern as exponent and significand. -/
theorem classify_bits (p : Prec) (neg : Bool) {e m : Nat} (hm : m ≤ 2 ^ (fracBits p + 1)) (he : e = 0 ∨ 2 ^ fracBits p ≤ m)
    (hb : e * 2 ^ fracBits p + m < infBits p) : classify (withSign p neg (e * 2 ^ fracBits p + m)) = .fin neg (m * 2 ^ e) := by
  have h0 : 0 < 2 ^ fracBits p := Nat.two_pow_pos _
  have hi : infBits p = 2 ^ fracBits p * (2 ^ expBits p - 1) := Nat.mul_comm _ _
  have hlt : e * 2 ^ fracBits p + m < signWeight p := by
    have : infBits p < signWeight p := by cases p <;> decide
    omega
  have hq : (e * 2 ^ fracBits p + m) / 2 ^ fracBits p < 2 ^ expBits p - 1 := Nat.div_lt_of_lt_mul (hi ▸ hb)
  rw [classify_withSign p neg hlt, if_neg (by omega)]
  rw [Nat.add_comm, Nat.add_mul_mod_self_right, Nat.add_mul_div_right _ _ h0]
  rw [pow_succ] at hm
  rcases Nat.lt_or_ge m (2 ^ fracBits p) with h1 | h1
  · rcases he with rfl | he
    · simp [Nat.div_eq_of_lt h1, Nat.mod_eq_of_lt h1]
    · omega
  · rcases Nat.lt_or_eq_of_le hm with h2 | h2
    · have hd : m / 2 ^ fracBits p = 1 := Nat.div_eq_of_lt_le (by omega) (by omega)
      have hr : m % 2 ^ fracBits p = m - 2 ^ fracBits p := by
        rw [Nat.mod_eq_sub_mod h1, Nat.mod_eq_of_lt (by omega)]
      rw [hd, hr, if_neg (by omega), show 1 + e - 1 = e by omega, show 2 ^ fracBits p + (m - 2 ^ fracBits p) = m by omega]
    · have hd : m / 2 ^ fracBits p = 2 := by rw [h2]; exact Nat.mul_div_cancel_left _ h0
      have hr : m % 2 ^ fracBits p = 0 := by rw [h2]; exact Nat.mul_mod_right _ _
      rw [hd, hr, if_neg (by omega), show 2 + e - 1 = e + 1 by omega, h2, pow_succ]
      congr 1; ring

/-- The magnitude of a finite pattern: below `2^fracBits`, or a significand of full width times a power of two. -/
theorem classify_fin_cases {p : Prec} {w : Fp p} {neg : Bool} {m : Nat} (h : classify w = .fin neg m) :
    ∃ s e, m = s * 2 ^ e ∧ s < 2 ^ (fracBits p + 1) ∧ (e = 0 ∨ 2 ^ fracBits p ≤ s) := by
  unfold classify at h
  simp only at h
  have hf := Nat.mod_lt w.toNat (Nat.two_pow_pos (fracBits p))
  split_ifs at h
  · injection h with _ h
    exact ⟨m, 0, by simp, by rw [pow_succ]; omega, .inl rfl⟩
  · injection h with _ h
    exact ⟨_, _, h.symm, by rw [pow_succ]; omega, .inr (by omega)⟩

/-- A finite magnitude at or above `2^(fracBits + e)` is a multiple of `2^e`. -/
theorem dvd_of_fin {p : Prec} {w : Fp p} {neg : Bool} {m e : Nat} (h : classify w = .fin neg m)
    (hm : 2 ^ (fracBits p + e) ≤ m) : 2 ^ e ∣ m := by
  obtain ⟨s, k, rfl, hs, -⟩ := classify_fin_cases h
  have : 2 ^ (fracBits p + e) < 2 ^ (fracBits p + 1 + k) := by
    rw [pow_add _ (fracBits p + 1)]
    exact lt_of_le_of_lt hm (Nat.mul_lt_mul_of_pos_right hs (Nat.two_pow_pos k))
  have hk : e ≤ k := by
    have := (Nat.pow_lt_pow_iff_right (by decide)).1 this
    omega
  exact (pow_dvd_pow 2 hk).trans (Dvd.intro_left s rfl)

/-- Rounding to nearest, ties to even, among the multiples of `q`. -/
theorem nearest_multiple (num q : Nat) (hq : 0 < q) (k : Nat) :
    let m := if q < 2 * (num % q) ∨ (2 * (num % q) = q ∧ num / q % 2 = 1) then num / q + 1 else num / q
    ((num : Int) - (m * q : Nat)).natAbs ≤ ((num : Int) - (k * q : Nat)).natAbs ∧
      (((num : Int) - (m * q : Nat)).natAbs = ((num : Int) - (k * q : Nat)).natAbs → k ≠ m → m % 2 = 0) := by
  have hr := Nat.mod_lt num hq
  have hn := Nat.div_add_mod num q
  generalize num % q = r at *
  generalize num / q = a at *
  rw [Nat.mul_comm] at hn
  intro m
  have hm : m = a + 1 ∧ (q < 2 * r ∨ (2 * r = q ∧ a % 2 = 1)) ∨ m = a ∧ ¬ (q < 2 * r ∨ (2 * r = q ∧ a % 2 = 1)) := by
    by_cases h : q < 2 * r ∨ (2 * r = q ∧ a % 2 = 1)
    · exact .inl ⟨if_pos h, h⟩
    · exact .inr ⟨if_neg h, h⟩
  clear_value m
  have ha1 : (a + 1) * q = a * q + q := Nat.succ_mul a q
  rcases Nat.lt_trichotomy k a with h | h | h
  · obtain ⟨d, rfl⟩ : ∃ d, a = k + (d + 1) := ⟨a - k - 1, by omega⟩
    have h1 : (k + (d + 1)) * q = k * q + d * q + q := by ring
    rcases hm with ⟨rfl, hc⟩ | ⟨rfl, hc⟩
    · rw [ha1]; constructor <;> omega
    · constructor <;> omega
  · subst h
    rcases hm with ⟨rfl, hc⟩ | ⟨rfl, hc⟩
    · rw [ha1]; constructor <;> omega
    · constructor <;> omega
  · obtain ⟨d, rfl⟩ : ∃ d, k = a + 1 + d := ⟨k - a - 1, by omega⟩
    have h1 : (a + 1 + d) * q = a * q + q + d * q := by ring
    have hd : d = 0 ∨ q ≤ d * q := by
      rcases Nat.eq_zero_or_pos d with h | h
      · exact .inl h
      · exact .inr (Nat.le_mul_of_pos_left q h)
    rcases hm with ⟨rfl, hc⟩ | ⟨rfl, hc⟩
    · rw [ha1]; constructor <;> omega
    · constructor <;> omega

/-- ROUNDING: `roundQ` gives the format's value nearest to the exact quotient, ties to even, with overflow to ∞ (R125, R126). -/
theorem roundQ_roundsTo (p : Prec) (neg : Bool) (num den : Nat) (hden : 0 < den) :
    RoundsTo p neg num den (roundQ p neg num den) := by
  have h0 : 0 < 2 ^ fracBits p := Nat.two_pow_pos _
  have hf2 : 2 ^ fracBits p % 2 = 0 := by cases p <;> decide
  have htop : topExp p + 3 = 2 ^ expBits p := by cases p <;> decide
  have hinf : infBits p = topExp p * 2 ^ fracBits p + 2 ^ fracBits p * 2 := by cases p <;> decide
  have hinfw : infBits p < signWeight p := by cases p <;> decide
  have hpow : 2 ^ (fracBits p + 1) = 2 ^ fracBits p * 2 := pow_succ _ _
  obtain ⟨e, he⟩ : ∃ e, e = Nat.log2 (num / den) - fracBits p := ⟨_, rfl⟩
  obtain ⟨q, hqd⟩ : ∃ q, q = den * 2 ^ e := ⟨_, rfl⟩
  have hq : 0 < q := hqd ▸ Nat.mul_pos hden (Nat.two_pow_pos e)
  have hn := Nat.div_add_mod num q
  have hr := Nat.mod_lt num hq
  -- the significand before rounding has full width, unless the quantum is the smallest
  have ha : num / q < 2 ^ fracBits p * 2 ∧ (e = 0 ∨ 2 ^ fracBits p ≤ num / q) := by
    have hdiv : num / q = num / den / 2 ^ e := by rw [hqd, Nat.div_div_eq_div_mul]
    have hup := Nat.lt_log2_self (n := num / den)
    constructor
    · rw [hdiv]
      refine Nat.div_lt_of_lt_mul (lt_of_lt_of_le hup ?_)
      rw [← pow_succ, ← pow_add]
      exact Nat.pow_le_pow_right (by decide) (by omega)
    · rcases Nat.eq_zero_or_pos e with h | h
      · exact .inl h
      · refine .inr ?_
        have hne : num / den ≠ 0 := by rintro hz; rw [hz] at he; simp at he; omega
        have hlo := Nat.log2_self_le hne
        rw [hdiv, Nat.le_div_iff_mul_le (Nat.two_pow_pos e), ← pow_add, show fracBits p + e = Nat.log2 (num / den) by omega]
        exact hlo
  obtain ⟨m, hm⟩ : ∃ m, m = if q < 2 * (num % q) ∨ (2 * (num % q) = q ∧ num / q % 2 = 1) then num / q + 1 else num / q := ⟨_, rfl⟩
  have hmle : m ≤ 2 ^ fracBits p * 2 ∧ (e = 0 ∨ 2 ^ fracBits p ≤ m) := by
    rw [hm]; split <;> omega
  have hv : roundQ p neg num den = withSign p neg (min (e * 2 ^ fracBits p + m) (infBits p)) := by
    rw [hm, hqd, he]; rfl
  -- the threshold of overflow
  have hthr : den * (2 * maxMag p + 2 ^ topExp p) ≤ 2 * num ↔ infBits p ≤ e * 2 ^ fracBits p + m := by
    have hM : den * (2 * maxMag p + 2 ^ topExp p) = den * 2 ^ topExp p * (2 ^ fracBits p * 4 - 1) := by
      rw [maxMag, hpow]
      have : 2 * ((2 ^ fracBits p * 2 - 1) * 2 ^ topExp p) + 2 ^ topExp p = 2 ^ topExp p * (2 ^ fracBits p * 4 - 1) := by
        obtain ⟨z, hz⟩ : ∃ z, 2 ^ fracBits p = z + 1 := ⟨2 ^ fracBits p - 1, by omega⟩
        rw [hz, show (z + 1) * 2 - 1 = 2 * z + 1 by omega, show (z + 1) * 4 - 1 = 4 * z + 3 by omega]
        ring
      rw [this]; ring
    rw [hM]
    rcases Nat.lt_trichotomy e (topExp p) with h | h | h
    · -- below the last binade
      have h1 : 2 * q ≤ den * 2 ^ topExp p := by
        obtain ⟨d, hd⟩ : ∃ d, topExp p = e + 1 + d := ⟨topExp p - e - 1, by omega⟩
        rw [hqd, hd, pow_add, pow_succ]
        have := Nat.two_pow_pos d
        calc 2 * (den * 2 ^ e) = den * (2 ^ e * 2) * 1 := by ring
          _ ≤ den * (2 ^ e * 2) * 2 ^ d := Nat.mul_le_mul_left _ this
          _ = den * (2 ^ e * 2 * 2 ^ d) := by ring
      have h2 : num < q * (2 ^ fracBits p * 2) := by
        rw [← hn]
        have : q * (num / q) + q ≤ q * (2 ^ fracBits p * 2) := by
          rw [← Nat.mul_succ]; exact Nat.mul_le_mul_left _ ha.1
        omega
      have h3 : 2 * num < den * 2 ^ topExp p * (2 ^ fracBits p * 4 - 1) := by
        refine lt_of_lt_of_le (b := 2 * q * (2 ^ fracBits p * 2)) (by rw [Nat.mul_assoc]; omega) ?_
        exact Nat.mul_le_mul h1 (by omega)
      have h4 : e * 2 ^ fracBits p + 2 ^ fracBits p ≤ topExp p * 2 ^ fracBits p := by
        rw [← Nat.succ_mul]; exact Nat.mul_le_mul_right _ h
      omega
    · -- in the last binade
      rw [← h, ← hqd, hinf, ← h]
      have hq4 : q * (2 ^ fracBits p * 4 - 1) + q = q * (2 ^ fracBits p * 2) * 2 := by
        rw [← Nat.mul_succ, Nat.mul_assoc]; congr 1; omega
      constructor
      · intro hle
        have hA : 2 ^ fracBits p * 2 - 1 ≤ num / q := by
          rw [Nat.le_div_iff_mul_le hq, Nat.mul_comm]
          have : q * (2 ^ fracBits p * 2 - 1) + q = q * (2 ^ fracBits p * 2) := by
            rw [← Nat.mul_succ]; congr 1; omega
          omega
        have hA' : num / q = 2 ^ fracBits p * 2 - 1 := by omega
        have hqA : q * (num / q) + q = q * (2 ^ fracBits p * 2) := by
          rw [← Nat.mul_succ, hA']; congr 1; omega
        have : m = num / q + 1 := by rw [hm, if_pos]; omega
        omega
      · intro hle
        have hm2 : m = 2 ^ fracBits p * 2 := by omega
        have hA : num / q + 1 = 2 ^ fracBits p * 2 ∧ q ≤ 2 * (num % q) := by
          rw [hm] at hm2; split at hm2 <;> omega
        have hqA : q * (num / q) + q = q * (2 ^ fracBits p * 2) := by
          rw [← Nat.mul_succ, ← hA.1]
        omega
    · -- above it
      have h1 : 2 * (den * 2 ^ topExp p) ≤ q := by
        obtain ⟨d, hd⟩ : ∃ d, e = topExp p + 1 + d := ⟨e - topExp p - 1, by omega⟩
        rw [hqd, hd, pow_add, pow_succ]
        have := Nat.two_pow_pos d
        calc 2 * (den * 2 ^ topExp p) = den * (2 ^ topExp p * 2) * 1 := by ring
          _ ≤ den * (2 ^ topExp p * 2) * 2 ^ d := Nat.mul_le_mul_left _ this
          _ = den * (2 ^ topExp p * 2 * 2 ^ d) := by ring
      have h2 : q * 2 ^ fracBits p ≤ num := by
        rw [← hn]
        have := Nat.mul_le_mul_left q (ha.2.resolve_left (by omega))
        omega
      have h3 : den * 2 ^ topExp p * (2 ^ fracBits p * 4 - 1) ≤ 2 * num := by
        calc den * 2 ^ topExp p * (2 ^ fracBits p * 4 - 1) ≤ den * 2 ^ topExp p * (2 ^ fracBits p * 4) :=
              Nat.mul_le_mul_left _ (by omega)
          _ = 2 * (2 * (den * 2 ^ topExp p) * 2 ^ fracBits p) := by ring
          _ ≤ 2 * (q * 2 ^ fracBits p) := Nat.mul_le_mul_left _ (Nat.mul_le_mul_right _ h1)
          _ ≤ 2 * num := by omega
      have h4 : topExp p * 2 ^ fracBits p + 2 ^ fracBits p ≤ e * 2 ^ fracBits p := by
        rw [← Nat.succ_mul]; exact Nat.mul_le_mul_right _ h
      have := hmle.2.resolve_left (by omega)
      exact ⟨fun _ => by omega, fun _ => h3⟩
  unfold RoundsTo
  split
  · rename_i hle
    rw [hv, Nat.min_eq_right (hthr.1 hle), classify_withSign p neg hinfw]
    have h1 : infBits p / 2 ^ fracBits p = 2 ^ expBits p - 1 := by cases p <;> decide
    have h2 : infBits p % 2 ^ fracBits p = 0 := by cases p <;> decide
    rw [if_pos h1, if_pos h2]
  · rename_i hle
    have hlt : e * 2 ^ fracBits p + m < infBits p := not_le.1 fun h => hle (hthr.2 h)
    rw [hv, Nat.min_eq_left hlt.le]
    refine ⟨m * 2 ^ e, classify_bits p neg (hpow ▸ hmle.1) hmle.2 hlt, fun w neg' m' hw => ?_⟩
    have heven : m % 2 = 0 → (withSign p neg (e * 2 ^ fracBits p + m)).toNat % 2 = 0 := by
      intro h
      have hs2 : signWeight p % 2 = 0 := by cases p <;> decide
      have h2 : 2 ^ fpWidth p % 2 = 0 := by cases p <;> decide
      rw [withSign, BitVec.toNat_ofNat, Nat.mod_mod_of_dvd _ (Nat.dvd_of_mod_eq_zero h2), Nat.add_mod, Nat.add_mod (e * _),
        Nat.mul_mod, hf2, h]
      split <;> simp [hs2]
    have hk : ∀ k, m' = k * 2 ^ e → _ := fun k hk => by
      have := nearest_multiple num q hq k
      rw [← hm] at this
      exact this
    have hcast : ∀ a : Nat, ((a * 2 ^ e : Nat) : Int) * den = ((a * q : Nat) : Int) := by
      intro a; rw [hqd]; push_cast; ring
    by_cases hd : 2 ^ e ∣ m'
    · obtain ⟨k, rfl⟩ := hd
      rw [Nat.mul_comm (2 ^ e) k, hcast, hcast]
      obtain ⟨h1, h2⟩ := hk k (Nat.mul_comm _ _)
      exact ⟨h1, fun h3 h4 => heven (h2 h3 (fun h => h4 (by rw [h])))⟩
    · have hlow : m' < 2 ^ fracBits p * 2 ^ e := by
        rw [← pow_add]
        exact not_le.1 fun h => hd (dvd_of_fin hw h)
      have he0 : e ≠ 0 := by rintro rfl; simp at hd
      have hA := ha.2.resolve_left he0
      have h1 := (nearest_multiple num q hq (2 ^ fracBits p)).1
      rw [← hm] at h1
      have h2 : q * 2 ^ fracBits p ≤ num := by
        rw [← hn]
        have := Nat.mul_le_mul_left q hA
        omega
      have h3 : m' * den < 2 ^ fracBits p * q := by
        rw [hqd, Nat.mul_comm den, ← Nat.mul_assoc]
        exact Nat.mul_lt_mul_of_pos_right hlow hden
      rw [hcast, show ((m' : Int) * den) = ((m' * den : Nat) : Int) by push_cast; rfl]
      rw [Nat.mul_comm q] at h2
      refine ⟨by omega, fun h => ?_⟩
      omega

/-! ### Negation and the special patterns -/

/-- The class of a pattern whose sign bit is flipped. -/
def FpClass.neg : FpClass → FpClass
  | .nan     => .nan
  | .inf n   => .inf (!n)
  | .fin n m => .fin (!n) m

theorem xor_two_pow {y k : Nat} (h : y < 2 ^ k) : y ^^^ 2 ^ k = y + 2 ^ k := by
  refine Nat.eq_of_testBit_eq fun i => ?_
  rw [Nat.testBit_xor, Nat.testBit_two_pow, Nat.add_comm]
  rcases Nat.lt_trichotomy i k with hi | rfl | hi
  · rw [Nat.testBit_two_pow_add_gt hi, decide_eq_false (by omega), Bool.xor_false]
  · rw [Nat.testBit_two_pow_add_eq]; simp
  · have : 2 ^ k + y < 2 ^ i := lt_of_lt_of_le (b := 2 ^ (k + 1)) (by rw [pow_succ]; omega) (Nat.pow_le_pow_right (by decide) hi)
    rw [Nat.testBit_lt_two_pow this, Nat.testBit_lt_two_pow (by omega), decide_eq_false (by omega)]; rfl

theorem fneg_toNat {p : Prec} (a : Fp p) :
    (fneg a).toNat = if signWeight p ≤ a.toNat then a.toNat - signWeight p else a.toNat + signWeight p := by
  have ha := a.isLt
  have h2 : 2 ^ fpWidth p = 2 * signWeight p := by cases p <;> rfl
  have hs : 0 < signWeight p := Nat.two_pow_pos _
  rw [fneg, BitVec.toNat_xor, BitVec.toNat_ofNat, Nat.mod_eq_of_lt (by omega)]
  split
  · rename_i h
    have hx := xor_two_pow (y := a.toNat - signWeight p) (k := fpWidth p - 1) (show _ < signWeight p by omega)
    rw [show a.toNat - signWeight p + 2 ^ (fpWidth p - 1) = a.toNat from Nat.sub_add_cancel h] at hx
    conv_lhs => rw [← hx, Nat.xor_assoc, signWeight, Nat.xor_self, Nat.xor_zero]
    rfl
  · rename_i h
    exact xor_two_pow (not_le.1 h)

/-- `fneg` flips the sign and nothing else (R14). -/
theorem classify_fneg {p : Prec} (a : Fp p) : classify (fneg a) = (classify a).neg := by
  have ha := a.isLt
  have hw : signWeight p = 2 ^ fracBits p * 2 ^ expBits p := by cases p <;> rfl
  have h2 : 2 ^ fpWidth p = 2 * signWeight p := by cases p <;> rfl
  have h0 : 0 < 2 ^ fracBits p := Nat.two_pow_pos _
  have hsp : 0 < signWeight p := Nat.two_pow_pos _
  have key : decide (signWeight p ≤ (fneg a).toNat) = (!decide (signWeight p ≤ a.toNat)) ∧
      (fneg a).toNat / 2 ^ fracBits p % 2 ^ expBits p = a.toNat / 2 ^ fracBits p % 2 ^ expBits p ∧
      (fneg a).toNat % 2 ^ fracBits p = a.toNat % 2 ^ fracBits p := by
    rw [fneg_toNat]
    split
    · rename_i h
      obtain ⟨d, hd⟩ : ∃ d, a.toNat = d + signWeight p := ⟨a.toNat - signWeight p, by omega⟩
      rw [hd, Nat.add_sub_cancel]
      refine ⟨by simp; omega, ?_, ?_⟩
      · rw [hw, Nat.add_mul_div_left _ _ h0, Nat.add_mod_right]
      · rw [hw, Nat.add_mul_mod_self_left]
    · rename_i h
      refine ⟨by simp; omega, ?_, ?_⟩
      · rw [hw, Nat.add_mul_div_left _ _ h0, Nat.add_mod_right]
      · rw [hw, Nat.add_mul_mod_self_left]
  unfold classify
  simp only [key]
  split_ifs <;> rfl

@[simp] theorem classify_canonicalNaN (p : Prec) : classify (canonicalNaN p) = .nan := by cases p <;> decide

@[simp] theorem classify_inf (p : Prec) (n : Bool) : classify (withSign p n (infBits p)) = .inf n := by
  cases p <;> cases n <;> decide

@[simp] theorem classify_zero (p : Prec) (n : Bool) : classify (withSign p n 0) = .fin n 0 := by
  cases p <;> cases n <;> decide

/-- Rounding never gives a NaN. -/
theorem roundQ_ne_nan (p : Prec) (neg : Bool) (num : Nat) {den : Nat} (h : 0 < den) : classify (roundQ p neg num den) ≠ .nan := by
  have := roundQ_roundsTo p neg num den h
  unfold RoundsTo at this
  split at this
  · rw [this]; simp
  · obtain ⟨m, h, _⟩ := this; rw [h]; simp

/-- Rounding depends on the quotient alone. -/
theorem roundQ_mul_right (p : Prec) (neg : Bool) (num den : Nat) {k : Nat} (hk : 0 < k) :
    roundQ p neg (num * k) (den * k) = roundQ p neg num den := by
  unfold roundQ
  simp only [Nat.mul_div_mul_right _ _ hk]
  generalize Nat.log2 (num / den) - fracBits p = e
  simp only [show den * k * 2 ^ e = den * 2 ^ e * k by ring, Nat.mul_div_mul_right _ _ hk, Nat.mul_mod_mul_right,
    ← Nat.mul_assoc 2, Nat.mul_lt_mul_right hk, Nat.mul_left_inj hk.ne']

end Sys2Proof.Machine
end

