-- ==== Sys2Proof/Laws/Ideal.lean ====
section
/-! SUPPORT. The dataflow of the units at the two arithmetics. At `roundedArith` it is the engine's units; at `exactArith` it
computes the transforms of R137 and R147: the cascade the DFT, the Hartley units the DHT, the Goertzel section one bin, the packer
and the unpacker the one-sided spectrum, the repacker the way back. -/

namespace Sys2Proof.Machine

open Finset

/-! ### The engine's units are the dataflow at its own arithmetic -/

theorem cascade_eq_flow (p : Prec) (dir : Dir) (n : Nat) (z : List (Cpx p)) :
    cascade dir n z = flowCascade (roundedArith p) (trig p) dir n z := rfl
theorem pack_eq_flow (p : Prec) (x : List (Fp p)) (n : Nat) : pack x n = flowPack (roundedArith p) x n := rfl
theorem unpack_eq_flow (p : Prec) (n : Nat) (z : List (Cpx p)) : unpack n z = flowUnpack (roundedArith p) (trig p) n z := rfl
theorem repack_eq_flow (p : Prec) (n : Nat) (x : List (Cpx p)) : repack n x = flowRepack (roundedArith p) (trig p) n x := rfl
theorem unzip_eq_flow (p : Prec) (z : List (Cpx p)) (n : Nat) : unzip z n = flowUnzip (roundedArith p) z n := rfl
theorem gsos_eq_flow (p : Prec) (n : Nat) (x : List (Fp p)) (k : Nat) :
    gsos n x k = flowGsos (roundedArith p) (trig p) n x k := rfl
theorem hcascade_eq_flow (p : Prec) (n : Nat) (a : List (Fp p)) : hcascade n a = flowHcascade (roundedArith p) (trig p) n a := rfl
theorem hdirect_eq_flow (p : Prec) (n : Nat) (a : List (Fp p)) : hdirect n a = flowHdirect (roundedArith p) (cas p) n a := rfl

/-! ### Exact twiddles -/

/-- The exact twiddle. -/
noncomputable def exactTwiddle (dir : Dir) (k n : Nat) : ℂ := flowTwiddle exactArith exactTrig dir k n

/-- The sign of the exponent (R134). -/
noncomputable def Dir.sign : Dir → ℂ
  | .fwd => -1
  | .inv => 1

theorem exactTwiddle_eq_exp (dir : Dir) (k n : Nat) :
    exactTwiddle dir k n = Complex.exp (dir.sign * (2 * Real.pi * k / n) * Complex.I) := by
  have h : ∀ x : ℝ, Complex.exp ((x : ℂ) * Complex.I) = ⟨Real.cos x, Real.sin x⟩ := fun x => by
    rw [Complex.exp_mul_I]
    apply Complex.ext <;> simp [Complex.cos_ofReal_re, Complex.sin_ofReal_re]
  cases dir with
  | fwd =>
    have := h (-(2 * Real.pi * k / n))
    rw [Real.cos_neg, Real.sin_neg] at this
    rw [show Dir.sign .fwd * (2 * Real.pi * k / n : ℂ) = ((-(2 * Real.pi * k / n) : ℝ) : ℂ) by simp [Dir.sign], this]
    rfl
  | inv =>
    have := h (2 * Real.pi * k / n)
    rw [show Dir.sign .inv * (2 * Real.pi * k / n : ℂ) = ((2 * Real.pi * k / n : ℝ) : ℂ) by simp [Dir.sign], this]
    rfl

theorem exactTwiddle_add (dir : Dir) (k l n : Nat) :
    exactTwiddle dir (k + l) n = exactTwiddle dir k n * exactTwiddle dir l n := by
  rw [exactTwiddle_eq_exp, exactTwiddle_eq_exp, exactTwiddle_eq_exp, ← Complex.exp_add]
  congr 1
  push_cast
  ring

theorem exactTwiddle_mul_right (dir : Dir) (k n : Nat) {m : Nat} (hm : 0 < m) :
    exactTwiddle dir (k * m) (n * m) = exactTwiddle dir k n := by
  have : (m : ℂ) ≠ 0 := by exact_mod_cast hm.ne'
  rw [exactTwiddle_eq_exp, exactTwiddle_eq_exp]
  push_cast
  rw [← mul_assoc, mul_div_mul_right _ _ this]

@[simp] theorem exactTwiddle_zero (dir : Dir) (n : Nat) : exactTwiddle dir 0 n = 1 := by simp [exactTwiddle_eq_exp]

theorem exactTwiddle_self (dir : Dir) {n : Nat} (hn : 0 < n) : exactTwiddle dir n n = 1 := by
  have : (n : ℂ) ≠ 0 := by exact_mod_cast hn.ne'
  rw [exactTwiddle_eq_exp, mul_div_assoc, div_self this, mul_one]
  cases dir
  · rw [show Dir.sign .fwd * (2 * Real.pi : ℂ) * Complex.I = -(2 * Real.pi * Complex.I) by simp [Dir.sign], Complex.exp_neg,
      Complex.exp_two_pi_mul_I, inv_one]
  · rw [show Dir.sign .inv * (2 * Real.pi : ℂ) * Complex.I = 2 * Real.pi * Complex.I by simp [Dir.sign],
      Complex.exp_two_pi_mul_I]

theorem exactTwiddle_mul_self (dir : Dir) {n : Nat} (hn : 0 < n) (m : Nat) : exactTwiddle dir (m * n) n = 1 := by
  induction m with
  | zero => simp
  | succ m ih => rw [Nat.succ_mul, exactTwiddle_add, ih, exactTwiddle_self dir hn, one_mul]

theorem exactTwiddle_half (dir : Dir) {n : Nat} (hn : 0 < n) : exactTwiddle dir n (2 * n) = -1 := by
  have : (n : ℂ) ≠ 0 := by exact_mod_cast hn.ne'
  rw [exactTwiddle_eq_exp, show ((2 * Real.pi * (n : ℕ) / ((2 * n : ℕ) : ℂ)) : ℂ) = Real.pi by push_cast; field_simp]
  cases dir
  · rw [show Dir.sign .fwd * (Real.pi : ℂ) * Complex.I = -(Real.pi * Complex.I) by simp [Dir.sign], Complex.exp_neg,
      Complex.exp_pi_mul_I]
    norm_num
  · rw [show Dir.sign .inv * (Real.pi : ℂ) * Complex.I = Real.pi * Complex.I by simp [Dir.sign], Complex.exp_pi_mul_I]

/-! ### The cascade -/

theorem dftBin_eq (dir : Dir) (n : Nat) (x : List ℂ) (k : Nat) :
    dftBin dir n x k = ∑ i ∈ range n, x.getD i 0 * exactTwiddle dir (k * i) n := by
  refine Finset.sum_congr rfl fun i _ => ?_
  rw [exactTwiddle_eq_exp]
  congr 2
  cases dir <;> simp [Dir.sign] <;> ring

/-- In exact arithmetic a butterfly is `u ± v·w` (R132, R133). -/
theorem flowBfly_exact (u v w : ℂ) : flowBfly exactArith u v w = (u + v * w, u - v * w) := by
  apply Prod.ext <;> apply Complex.ext <;> simp [flowBfly, Arith.cmul, exactArith]

@[simp] theorem cnth_exact (z : List ℂ) (i : Nat) : exactArith.cnth z i = z.getD i 0 := rfl
@[simp] theorem nth_exact (x : List ℝ) (i : Nat) : exactArith.nth x i = x.getD i 0 := rfl

theorem sum_range_even_odd {R : Type*} [AddCommMonoid R] (f : Nat → R) (n : Nat) :
    ∑ i ∈ range (2 * n), f i = ∑ i ∈ range n, f (2 * i) + ∑ i ∈ range n, f (2 * i + 1) := by
  induction n with
  | zero => simp
  | succ n ih =>
    rw [show 2 * (n + 1) = 2 * n + 1 + 1 by ring, sum_range_succ, sum_range_succ, ih, sum_range_succ, sum_range_succ]
    abel

theorem foldl_range_succ {β : Type*} (f : β → Nat → β) (a : β) (n : Nat) :
    (List.range (n + 1)).foldl f a = f ((List.range n).foldl f a) n := by
  rw [List.range_succ, List.foldl_append]; rfl

/-- Where the index arithmetic of a stage lands: positions `q·2^(t+1) + j` and `q·2^(t+1) + 2^t + j` lie in groups `2q` and
`2q + 1` of the stage before. -/
theorem group_low (t q j : Nat) (hj : j < 2 ^ t) : (q * 2 ^ (t + 1) + j) / 2 ^ t = 2 * q ∧ (q * 2 ^ (t + 1) + j) % 2 ^ t = j := by
  rw [show q * 2 ^ (t + 1) + j = j + 2 ^ t * (2 * q) by ring, Nat.add_mul_div_left _ _ (by positivity), Nat.add_mul_mod_self_left,
    Nat.div_eq_of_lt hj, Nat.mod_eq_of_lt hj]
  simp
theorem group_high (t q j : Nat) (hj : j < 2 ^ t) :
    (q * 2 ^ (t + 1) + 2 ^ t + j) / 2 ^ t = 2 * q + 1 ∧ (q * 2 ^ (t + 1) + 2 ^ t + j) % 2 ^ t = j := by
  rw [show q * 2 ^ (t + 1) + 2 ^ t + j = j + 2 ^ t * (2 * q + 1) by ring, Nat.add_mul_div_left _ _ (by positivity),
    Nat.add_mul_mod_self_left, Nat.div_eq_of_lt hj, Nat.mod_eq_of_lt hj]
  simp
theorem bitrev_two_mul (b q : Nat) : bitrev (b + 1) (2 * q) = bitrev b q := by simp [bitrev]
theorem bitrev_two_mul_add_one (b q : Nat) : bitrev (b + 1) (2 * q + 1) = 2 ^ b + bitrev b q := by
  rw [bitrev, show (2 * q + 1) % 2 = 1 by omega, show (2 * q + 1) / 2 = q by omega, one_mul]

/-- The DFT of size 2^t of the elements r, r + 2^c, r + 2·2^c, … -/
noncomputable def subDft (dir : Dir) (z : List ℂ) (c t r j : Nat) : ℂ :=
  ∑ m ∈ range (2 ^ t), z.getD (r + m * 2 ^ c) 0 * exactTwiddle dir (m * j) (2 ^ t)

theorem subDft_succ (dir : Dir) (z : List ℂ) (c t r j : Nat) :
    subDft dir z c (t + 1) r j =
      subDft dir z (c + 1) t r j + subDft dir z (c + 1) t (r + 2 ^ c) j * exactTwiddle dir j (2 ^ (t + 1)) := by
  unfold subDft
  rw [pow_succ, mul_comm (2 ^ t) 2, sum_range_even_odd, sum_mul]
  have h2 : ∀ m, exactTwiddle dir (2 * m * j) (2 * 2 ^ t) = exactTwiddle dir (m * j) (2 ^ t) := fun m => by
    rw [show 2 * m * j = m * j * 2 by ring, mul_comm 2 (2 ^ t), exactTwiddle_mul_right _ _ _ two_pos]
  congr 1 <;> refine sum_congr rfl fun m _ => ?_
  · rw [h2]; congr 2; ring
  · rw [show (2 * m + 1) * j = 2 * m * j + j by ring, exactTwiddle_add, h2, mul_assoc]; congr 2; ring

theorem subDft_add_half (dir : Dir) (z : List ℂ) (c t r j : Nat) :
    subDft dir z c t r (j + 2 ^ t) = subDft dir z c t r j := by
  refine sum_congr rfl fun m _ => ?_
  rw [mul_add, exactTwiddle_add, exactTwiddle_mul_self _ (by positivity), mul_one]

/-- Stage by stage: after `t` stages, element `i` is an output of the DFT of size `2^t` of every `2^(b-t)`-th element. -/
theorem flowCascade_stages (dir : Dir) (b : Nat) (z : List ℂ) (t : Nat) (ht : t ≤ b) (i : Nat) (hi : i < 2 ^ b) :
    ((List.range t).foldl (fun z t => flowCascadeStage exactArith exactTrig dir (2 ^ b) (t + 1) z)
        ((List.range (2 ^ b)).map fun i => exactArith.cnth z (bitrev b i))).getD i 0 =
      subDft dir z (b - t) t (bitrev (b - t) (i / 2 ^ t)) (i % 2 ^ t) := by
  induction t generalizing i with
  | zero => simp [subDft, hi, Nat.mod_one]
  | succ t ih =>
    obtain ⟨c, rfl⟩ : ∃ c, b = t + 1 + c := ⟨b - (t + 1), by omega⟩
    rw [foldl_range_succ]
    set y := (List.range t).foldl _ _ with hy
    have hstride : 2 ^ (t + 1 + c) / 2 ^ (t + 1) = 2 ^ c := by rw [pow_add, Nat.mul_div_cancel_left _ (by positivity)]
    have htw : ∀ j, flowTwiddle exactArith exactTrig dir (j * 2 ^ c) (2 ^ (t + 1 + c)) =
        exactTwiddle dir j (2 ^ (t + 1)) := fun j => by
      rw [pow_add]; exact exactTwiddle_mul_right dir j _ (by positivity)
    have ih' : ∀ i < 2 ^ (t + 1 + c),
        y.getD i 0 = subDft dir z (c + 1) t (bitrev (c + 1) (i / 2 ^ t)) (i % 2 ^ t) := fun i hi => by
      have := ih (by omega) i hi
      rwa [show t + 1 + c - t = c + 1 by omega] at this
    have hq : i / 2 ^ (t + 1) < 2 ^ c := by rw [Nat.div_lt_iff_lt_mul (by positivity), ← pow_add, add_comm c]; exact hi
    generalize hqd : i / 2 ^ (t + 1) = q at *
    generalize hjd : i % 2 ^ (t + 1) = j at *
    have hij : i = q * 2 ^ (t + 1) + j := by rw [← hqd, ← hjd, mul_comm]; exact (Nat.div_add_mod _ _).symm
    have hj : j < 2 ^ (t + 1) := hjd ▸ Nat.mod_lt _ (by positivity)
    have h2 : 2 ^ (t + 1) = 2 * 2 ^ t := by ring
    have htop : (q + 1) * 2 ^ (t + 1) ≤ 2 ^ (t + 1 + c) := by
      rw [pow_add _ (t + 1), mul_comm (2 ^ (t + 1))]; exact Nat.mul_le_mul_right _ hq
    have hs : (flowCascadeStage exactArith exactTrig dir (2 ^ (t + 1 + c)) (t + 1) y).getD i 0 =
        if j < 2 ^ t then y.getD i 0 + y.getD (i + 2 ^ t) 0 * exactTwiddle dir j (2 ^ (t + 1))
        else y.getD (i - 2 ^ t) 0 - y.getD i 0 * exactTwiddle dir (j - 2 ^ t) (2 ^ (t + 1)) := by
      simp only [flowCascadeStage, List.getD_eq_getElem?_getD, List.getElem?_map, List.getElem?_range hi, Option.map_some,
        Option.getD_some, hjd, Nat.add_sub_cancel, hstride, htw, flowBfly_exact, cnth_exact]
    rw [hs, show t + 1 + c - (t + 1) = c by omega, subDft_succ]
    split
    · rename_i hlt
      obtain ⟨d0, m0⟩ := group_low t q j hlt
      obtain ⟨d1, m1⟩ := group_high t q j hlt
      rw [ih' i hi, ih' (i + 2 ^ t) (by rw [hij]; rw [add_mul] at htop; omega),
        show i + 2 ^ t = q * 2 ^ (t + 1) + 2 ^ t + j by omega, hij, d0, m0, d1, m1,
        bitrev_two_mul, bitrev_two_mul_add_one, add_comm (2 ^ c)]
    · rename_i hge
      obtain ⟨k, rfl⟩ : ∃ k, j = k + 2 ^ t := ⟨j - 2 ^ t, by omega⟩
      have hlt : k < 2 ^ t := by omega
      obtain ⟨d0, m0⟩ := group_low t q k hlt
      obtain ⟨d1, m1⟩ := group_high t q k hlt
      rw [ih' i hi, ih' (i - 2 ^ t) (by omega), show i - 2 ^ t = q * 2 ^ (t + 1) + k by omega,
        show i = q * 2 ^ (t + 1) + 2 ^ t + k by omega, d0, m0, d1, m1,
        bitrev_two_mul, bitrev_two_mul_add_one, add_comm (2 ^ c), subDft_add_half, subDft_add_half, exactTwiddle_add, h2,
        exactTwiddle_half _ (by positivity), Nat.add_sub_cancel]
      ring

/-- The cascade in exact arithmetic is the DFT, both ways (R137). -/
theorem flowCascade_exact (dir : Dir) (b : Nat) (z : List ℂ) :
    flowCascade exactArith exactTrig dir (2 ^ b) z = dft dir (2 ^ b) z := by
  have hlen : ∀ (t : Nat) (y : List ℂ), y.length = 2 ^ b →
      ((List.range t).foldl (fun z t => flowCascadeStage exactArith exactTrig dir (2 ^ b) (t + 1) z) y).length = 2 ^ b := by
    intro t y hy
    cases t with
    | zero => exact hy
    | succ t => rw [foldl_range_succ]; simp [flowCascadeStage]
  unfold flowCascade
  rw [Nat.log2_two_pow]
  apply List.ext_getElem
  · rw [hlen _ _ (by simp)]; simp [dft]
  · intro i h1 h2
    have hi : i < 2 ^ b := by simpa [dft] using h2
    have := flowCascade_stages dir b z b le_rfl i hi
    rw [List.getD_eq_getElem _ _ h1] at this
    rw [this, Nat.sub_self, Nat.div_eq_of_lt hi, Nat.mod_eq_of_lt hi]
    simp only [dft, List.getElem_map, List.getElem_range, dftBin_eq, subDft, bitrev, pow_zero, mul_one, zero_add]
    exact sum_congr rfl fun m _ => by rw [mul_comm m i]

/-! ### Orthogonality -/

theorem exactTwiddle_inv_mul_fwd (k n : Nat) : exactTwiddle .inv k n * exactTwiddle .fwd k n = 1 := by
  rw [exactTwiddle_eq_exp, exactTwiddle_eq_exp, ← Complex.exp_add, ← Complex.exp_zero]
  congr 1
  simp [Dir.sign]

theorem exactTwiddle_conj (k n : Nat) : (starRingEnd ℂ) (exactTwiddle .inv k n) = exactTwiddle .fwd k n := rfl

theorem exactTwiddle_conj' (k n : Nat) : (starRingEnd ℂ) (exactTwiddle .fwd k n) = exactTwiddle .inv k n := by
  rw [← exactTwiddle_conj, Complex.conj_conj]

/-- Counting down from a full circle is going the other way round. -/
theorem exactTwiddle_reflect {n j : Nat} (hn : 0 < n) (hj : j ≤ n) (m : Nat) :
    exactTwiddle .inv (m * (n - j)) n = exactTwiddle .fwd (m * j) n ∧
      exactTwiddle .fwd (m * (n - j)) n = exactTwiddle .inv (m * j) n := by
  have h : ∀ d, exactTwiddle d (m * (n - j)) n * exactTwiddle d (m * j) n = 1 := fun d => by
    rw [← exactTwiddle_add, ← mul_add, Nat.sub_add_cancel hj, exactTwiddle_mul_self d hn]
  have h1 := exactTwiddle_inv_mul_fwd (m * j) n
  exact ⟨mul_right_cancel₀ (right_ne_zero_of_mul_eq_one (h .inv)) ((h .inv).trans ((mul_comm _ _).trans h1).symm),
    mul_right_cancel₀ (right_ne_zero_of_mul_eq_one (h .fwd)) ((h .fwd).trans h1.symm)⟩

theorem exactTwiddle_mod (dir : Dir) {n : Nat} (hn : 0 < n) (m k : Nat) :
    exactTwiddle dir (m * (k % n)) n = exactTwiddle dir (m * k) n := by
  conv_rhs => rw [← Nat.mod_add_div k n]
  rw [mul_add, exactTwiddle_add, show m * (n * (k / n)) = m * (k / n) * n by ring, exactTwiddle_mul_self dir hn, mul_one]

theorem exactTwiddle_inv_pow (d k n : Nat) : exactTwiddle .inv (k * d) n = exactTwiddle .inv d n ^ k := by
  induction k with
  | zero => simp
  | succ k ih => rw [Nat.succ_mul, exactTwiddle_add, ih, pow_succ]

theorem exactTwiddle_eq_one {n : Nat} (hn : 0 < n) (d : Nat) : exactTwiddle .inv d n = 1 ↔ n ∣ d := by
  have h := (Complex.isPrimitiveRoot_exp n hn.ne').pow_eq_one_iff_dvd d
  rw [← h, ← Complex.exp_nat_mul, exactTwiddle_eq_exp]
  simp only [Dir.sign]
  rw [show (1 : ℂ) * (2 * Real.pi * d / n) * Complex.I = d * (2 * Real.pi * Complex.I / n) by ring]

/-- The sum of the powers of a root of unity. -/
theorem sum_exactTwiddle {n : Nat} (hn : 0 < n) (d : Nat) :
    ∑ k ∈ range n, exactTwiddle .inv (k * d) n = if n ∣ d then (n : ℂ) else 0 := by
  simp only [exactTwiddle_inv_pow]
  split
  · rename_i h
    simp [(exactTwiddle_eq_one hn d).2 h]
  · rename_i h
    have h1 : exactTwiddle .inv d n ≠ 1 := fun e => h ((exactTwiddle_eq_one hn d).1 e)
    rw [geom_sum_eq h1, ← exactTwiddle_inv_pow, mul_comm, exactTwiddle_mul_self _ hn, sub_self, zero_div]

/-- The rows of the DFT are orthogonal. -/
theorem sum_inv_mul_fwd {n i l : Nat} (hi : i < n) (hl : l < n) :
    ∑ k ∈ range n, exactTwiddle .inv (k * i) n * exactTwiddle .fwd (k * l) n = if i = l then (n : ℂ) else 0 := by
  have hn : 0 < n := by omega
  have : ∀ k, exactTwiddle .inv (k * i) n * exactTwiddle .fwd (k * l) n = exactTwiddle .inv (k * (i + (n - l))) n := fun k => by
    rw [← (exactTwiddle_reflect hn hl.le k).1, ← exactTwiddle_add, ← mul_add]
  simp only [this, sum_exactTwiddle hn]
  refine if_congr ⟨fun ⟨c, hc⟩ => ?_, fun h => ⟨1, by omega⟩⟩ rfl rfl
  have h0 : c ≠ 0 := by rintro rfl; omega
  have h2 : c < 2 := by
    by_contra hc2
    have := Nat.mul_le_mul_left n (show 2 ≤ c by omega)
    omega
  obtain rfl : c = 1 := by omega
  omega

/-- The inverse DFT of the forward one is `n` times the list. -/
theorem dft_inv_fwd (n : Nat) (z : List ℂ) {l : Nat} (hl : l < n) :
    dftBin .inv n (dft .fwd n z) l = n * z.getD l 0 := by
  rw [dftBin_eq]
  have h : ∀ k ∈ range n, (dft .fwd n z).getD k 0 * exactTwiddle .inv (l * k) n =
      ∑ i ∈ range n, z.getD i 0 * (exactTwiddle .inv (k * l) n * exactTwiddle .fwd (k * i) n) := fun k hk => by
    rw [show (dft .fwd n z).getD k 0 = dftBin .fwd n z k by simp [dft, mem_range.1 hk], dftBin_eq, sum_mul, mul_comm l k]
    exact sum_congr rfl fun i _ => by ring
  rw [sum_congr rfl h, sum_comm]
  simp only [← mul_sum]
  rw [sum_congr rfl fun i hi => congrArg (z.getD i 0 * ·) (sum_inv_mul_fwd hl (mem_range.1 hi))]
  simp [hl, mul_comm]

/-! ### Hartley -/

/-- `cas` as a linear view of `cos + j sin`. -/
theorem exactCas_eq (m n : Nat) : exactCas m n = (exactTwiddle .inv m n).re + (exactTwiddle .inv m n).im := rfl

theorem exactTrig_eq (k n : Nat) : exactTrig k n = exactTwiddle .inv k n := rfl

/-- The DHT of size 2^t of the elements r, r + 2^c, r + 2·2^c, … -/
noncomputable def subDht (x : List ℝ) (c t r j : Nat) : ℝ :=
  ∑ m ∈ range (2 ^ t), x.getD (r + m * 2 ^ c) 0 * exactCas (m * j) (2 ^ t)

/-- The term a Hartley butterfly adds and subtracts (R144). -/
noncomputable def hartleyTerm (x : List ℝ) (c t r j : Nat) : ℝ :=
  subDht x (c + 1) t (r + 2 ^ c) j * (exactTrig j (2 ^ (t + 1))).re +
    subDht x (c + 1) t (r + 2 ^ c) ((2 ^ t - j) % 2 ^ t) * (exactTrig j (2 ^ (t + 1))).im

theorem subDht_succ (x : List ℝ) (c t r j : Nat) (hj : j ≤ 2 ^ t) :
    subDht x c (t + 1) r j = subDht x (c + 1) t r j + hartleyTerm x c t r j := by
  have h2 : ∀ m, exactTwiddle .inv (2 * m * j) (2 * 2 ^ t) = exactTwiddle .inv (m * j) (2 ^ t) := fun m => by
    rw [show 2 * m * j = m * j * 2 by ring, mul_comm 2 (2 ^ t), exactTwiddle_mul_right _ _ _ two_pos]
  unfold hartleyTerm subDht
  rw [pow_succ, mul_comm (2 ^ t) 2, sum_range_even_odd]
  refine congrArg₂ (· + ·) (sum_congr rfl fun m _ => ?_) ?_
  · rw [exactCas_eq, h2, ← exactCas_eq]; congr 2; ring
  · rw [sum_mul, sum_mul, ← sum_add_distrib]
    refine sum_congr rfl fun m _ => ?_
    have hr : exactTwiddle .inv (m * ((2 ^ t - j) % 2 ^ t)) (2 ^ t) = (starRingEnd ℂ) (exactTwiddle .inv (m * j) (2 ^ t)) := by
      rw [exactTwiddle_mod _ (by positivity), (exactTwiddle_reflect (by positivity) hj m).1, exactTwiddle_conj]
    rw [exactCas_eq, show (2 * m + 1) * j = 2 * m * j + j by ring, exactTwiddle_add, h2, exactCas_eq (m * j),
      exactCas_eq (m * _), hr, exactTrig_eq, Complex.conj_re, Complex.conj_im, Complex.mul_re, Complex.mul_im,
      show r + (2 * m + 1) * 2 ^ c = r + 2 ^ c + m * 2 ^ (c + 1) by ring]
    ring

theorem subDht_succ_half (x : List ℝ) (c t r j : Nat) (hj : j ≤ 2 ^ t) :
    subDht x c (t + 1) r (j + 2 ^ t) = subDht x (c + 1) t r j - hartleyTerm x c t r j := by
  have h1 := subDht_succ x c t r j hj
  suffices h : subDht x c (t + 1) r (j + 2 ^ t) + subDht x c (t + 1) r j = 2 * subDht x (c + 1) t r j by linarith
  have h2 : ∀ m, exactTwiddle .inv (2 * m * j) (2 * 2 ^ t) = exactTwiddle .inv (m * j) (2 ^ t) := fun m => by
    rw [show 2 * m * j = m * j * 2 by ring, mul_comm 2 (2 ^ t), exactTwiddle_mul_right _ _ _ two_pos]
  have hp : 0 < 2 * 2 ^ t := by positivity
  have he : ∀ m, exactCas (2 * m * (j + 2 ^ t)) (2 * 2 ^ t) = exactCas (2 * m * j) (2 * 2 ^ t) := fun m => by
    rw [exactCas_eq, exactCas_eq, show 2 * m * (j + 2 ^ t) = 2 * m * j + m * (2 * 2 ^ t) by ring, exactTwiddle_add,
      exactTwiddle_mul_self _ hp, mul_one]
  have ho : ∀ m, exactCas ((2 * m + 1) * (j + 2 ^ t)) (2 * 2 ^ t) = -exactCas ((2 * m + 1) * j) (2 * 2 ^ t) := fun m => by
    rw [exactCas_eq, exactCas_eq, show (2 * m + 1) * (j + 2 ^ t) = (2 * m + 1) * j + (m * (2 * 2 ^ t) + 2 ^ t) by ring,
      exactTwiddle_add, exactTwiddle_add _ _ (2 ^ t), exactTwiddle_mul_self _ hp, exactTwiddle_half _ (by positivity)]
    simp
    ring
  unfold subDht
  rw [pow_succ, mul_comm (2 ^ t) 2, sum_range_even_odd, sum_range_even_odd, mul_sum]
  simp only [he, ho, mul_neg, sum_neg_distrib]
  rw [show ∀ a b : ℝ, a + -b + (a + b) = 2 * a from fun a b => by ring, mul_sum]
  refine sum_congr rfl fun m _ => ?_
  rw [exactCas_eq, h2, ← exactCas_eq]
  congr 3
  ring

/-- Stage by stage: after `t` stages, element `i` is an output of the DHT of size `2^t` of every `2^(b-t)`-th element. -/
theorem flowHcascade_stages (b : Nat) (x : List ℝ) (t : Nat) (ht : t ≤ b) (i : Nat) (hi : i < 2 ^ b) :
    ((List.range t).foldl (fun a t => flowHartleyStage exactArith exactTrig (2 ^ b) (t + 1) a)
        ((List.range (2 ^ b)).map fun i => exactArith.nth x (bitrev b i))).getD i 0 =
      subDht x (b - t) t (bitrev (b - t) (i / 2 ^ t)) (i % 2 ^ t) := by
  induction t generalizing i with
  | zero => simp [subDht, hi, Nat.mod_one, exactCas]
  | succ t ih =>
    obtain ⟨c, rfl⟩ : ∃ c, b = t + 1 + c := ⟨b - (t + 1), by omega⟩
    rw [foldl_range_succ]
    set y := (List.range t).foldl _ _ with hy
    have hstride : 2 ^ (t + 1 + c) / 2 ^ (t + 1) = 2 ^ c := by rw [pow_add, Nat.mul_div_cancel_left _ (by positivity)]
    have htw : ∀ j, exactTrig (j * 2 ^ c) (2 ^ (t + 1 + c)) = exactTrig j (2 ^ (t + 1)) := fun j => by
      rw [exactTrig_eq, pow_add]; exact exactTwiddle_mul_right .inv j _ (by positivity)
    have hq : i / 2 ^ (t + 1) < 2 ^ c := by rw [Nat.div_lt_iff_lt_mul (by positivity), ← pow_add, add_comm c]; exact hi
    generalize hqd : i / 2 ^ (t + 1) = q at *
    generalize hjd : i % 2 ^ (t + 1) = j at *
    have hj : j < 2 ^ (t + 1) := hjd ▸ Nat.mod_lt _ (by positivity)
    have h2 : 2 ^ (t + 1) = 2 * 2 ^ t := by ring
    have htop : (q + 1) * 2 ^ (t + 1) ≤ 2 ^ (t + 1 + c) := by
      rw [pow_add _ (t + 1), mul_comm (2 ^ (t + 1))]; exact Nat.mul_le_mul_right _ hq
    rw [add_mul] at htop
    have hpos : 0 < 2 ^ t := by positivity
    have low : ∀ k < 2 ^ t, y.getD (q * 2 ^ (t + 1) + k) 0 = subDht x (c + 1) t (bitrev c q) k := fun k hk => by
      have := ih (by omega) (q * 2 ^ (t + 1) + k) (by omega)
      rwa [show t + 1 + c - t = c + 1 by omega, (group_low t q k hk).1, (group_low t q k hk).2, bitrev_two_mul] at this
    have high : ∀ k < 2 ^ t, y.getD (q * 2 ^ (t + 1) + 2 ^ t + k) 0 = subDht x (c + 1) t (bitrev c q + 2 ^ c) k := fun k hk => by
      have := ih (by omega) (q * 2 ^ (t + 1) + 2 ^ t + k) (by omega)
      rwa [show t + 1 + c - t = c + 1 by omega, (group_high t q k hk).1, (group_high t q k hk).2, bitrev_two_mul_add_one,
        add_comm (2 ^ c)] at this
    have hs : (flowHartleyStage exactArith exactTrig (2 ^ (t + 1 + c)) (t + 1) y).getD i 0 =
        if j < 2 ^ t then subDht x (c + 1) t (bitrev c q) (j % 2 ^ t) + hartleyTerm x c t (bitrev c q) (j % 2 ^ t)
        else subDht x (c + 1) t (bitrev c q) (j % 2 ^ t) - hartleyTerm x c t (bitrev c q) (j % 2 ^ t) := by
      simp only [flowHartleyStage, List.getD_eq_getElem?_getD, List.getElem?_map, List.getElem?_range hi, Option.map_some,
        Option.getD_some, hjd, hqd, Nat.add_sub_cancel, hstride, htw, nth_exact]
      simp only [← List.getD_eq_getElem?_getD]
      rw [low _ (Nat.mod_lt _ hpos), high _ (Nat.mod_lt _ hpos), high _ (Nat.mod_lt _ hpos)]
      rfl
    rw [hs, show t + 1 + c - (t + 1) = c by omega]
    split
    · rename_i hlt
      rw [Nat.mod_eq_of_lt hlt, subDht_succ _ _ _ _ _ hlt.le]
    · rename_i hge
      obtain ⟨k, rfl⟩ : ∃ k, j = k + 2 ^ t := ⟨j - 2 ^ t, by omega⟩
      have hlt : k < 2 ^ t := by omega
      rw [Nat.add_mod_right, Nat.mod_eq_of_lt hlt, subDht_succ_half _ _ _ _ _ hlt.le]

/-- The Hartley cascade in exact arithmetic is the DHT (R147). -/
theorem flowHcascade_exact (b : Nat) (x : List ℝ) : flowHcascade exactArith exactTrig (2 ^ b) x = dht (2 ^ b) x := by
  have hlen : ∀ (t : Nat) (y : List ℝ), y.length = 2 ^ b →
      ((List.range t).foldl (fun a t => flowHartleyStage exactArith exactTrig (2 ^ b) (t + 1) a) y).length = 2 ^ b := by
    intro t y hy
    cases t with
    | zero => exact hy
    | succ t => rw [foldl_range_succ]; simp [flowHartleyStage]
  unfold flowHcascade
  rw [Nat.log2_two_pow]
  apply List.ext_getElem
  · rw [hlen _ _ (by simp)]; simp [dht]
  · intro i h1 h2
    have hi : i < 2 ^ b := by simpa [dht] using h2
    have := flowHcascade_stages b x b le_rfl i hi
    rw [List.getD_eq_getElem _ _ h1] at this
    rw [this, Nat.sub_self, Nat.div_eq_of_lt hi, Nat.mod_eq_of_lt hi]
    simp [dht, subDht, bitrev]

theorem exactCas_mod {n : Nat} (hn : 0 < n) (m : Nat) : exactCas (m % n) n = exactCas m n := by
  have := exactTwiddle_mod .inv hn 1 m
  rw [one_mul, one_mul] at this
  rw [exactCas_eq, this, exactCas_eq]

theorem foldl_add_eq_sum (f : Nat → ℝ) (n : Nat) : (List.range n).foldl (fun acc i => acc + f i) 0 = ∑ i ∈ range n, f i := by
  induction n with
  | zero => rfl
  | succ n ih => rw [foldl_range_succ, ih, sum_range_succ]

/-- The direct evaluator in exact arithmetic is the DHT (R147). -/
theorem flowHdirect_exact {n : Nat} (hn : 0 < n) (x : List ℝ) : flowHdirect exactArith exactCas n x = dht n x := by
  refine List.map_congr_left fun k _ => ?_
  refine (foldl_add_eq_sum (fun i => x.getD i 0 * exactCas (i * k % n) n) n).trans (sum_congr rfl fun i _ => ?_)
  rw [exactCas_mod hn]

/-- The rows of the DHT are orthogonal. -/
theorem sum_cas_mul_cas {n i l : Nat} (hi : i < n) (hl : l < n) :
    ∑ k ∈ range n, exactCas (k * i) n * exactCas (k * l) n = if i = l then (n : ℝ) else 0 := by
  have h : ∀ k, exactCas (k * i) n * exactCas (k * l) n =
      (exactTwiddle .inv (k * i) n * exactTwiddle .fwd (k * l) n).re + (exactTwiddle .inv (k * (i + l)) n).im := fun k => by
    rw [mul_add, exactTwiddle_add, ← exactTwiddle_conj, exactCas_eq, exactCas_eq, Complex.mul_re, Complex.mul_im,
      Complex.conj_re, Complex.conj_im]
    ring
  simp only [h, sum_add_distrib, ← Complex.re_sum, ← Complex.im_sum, sum_inv_mul_fwd hi hl,
    sum_exactTwiddle (Nat.zero_lt_of_lt hi)]
  split <;> split <;> simp

/-- The DHT twice is `n` times the list (R147). -/
theorem dht_dht (n : Nat) (x : List ℝ) (hx : x.length = n) : dht n (dht n x) = x.map fun v => (n : ℝ) * v := by
  apply List.ext_getElem
  · simp [dht, hx]
  · intro l h1 h2
    have hl : l < n := by simpa [dht] using h1
    simp only [dht, List.getElem_map, List.getElem_range]
    have h : ∀ k ∈ range n, (dht n x).getD k 0 * exactCas (k * l) n =
        ∑ i ∈ range n, x.getD i 0 * (exactCas (k * i) n * exactCas (k * l) n) := fun k hk => by
      rw [show (dht n x).getD k 0 = ∑ i ∈ range n, x.getD i 0 * exactCas (i * k) n by simp [dht, mem_range.1 hk], sum_mul]
      exact sum_congr rfl fun i _ => by rw [mul_comm k i]; ring
    have := sum_congr rfl h
    simp only [dht] at this
    rw [this, sum_comm]
    simp only [← mul_sum]
    rw [sum_congr rfl fun i hi => congrArg (x.getD i 0 * ·) (sum_cas_mul_cas (mem_range.1 hi) hl)]
    simp [hl, mul_comm, hx]

/-! ### Goertzel -/

/-- In exact arithmetic the combination the section closes with obeys a recurrence of its own. -/
theorem flowGsos_step (e : ℂ) (he : e.re * e.re + e.im * e.im = 1) (s1 s2 x : ℝ) :
    e * ((x + 2 * e.re * s1 - s2 : ℝ) : ℂ) - (s1 : ℝ) = e * (x + (e * (s1 : ℝ) - (s2 : ℝ))) := by
  apply Complex.ext
  · simp; linear_combination s1 * he
  · simp; ring

theorem exactTrig_norm (k n : Nat) :
    (exactTrig k n).re * (exactTrig k n).re + (exactTrig k n).im * (exactTrig k n).im = 1 := by
  have := Real.sin_sq_add_cos_sq (2 * Real.pi * k / n)
  simp only [exactTrig]
  nlinarith

/-- The section over a list, from the pair (s1, s2). -/
theorem flowGsos_fold (k n : Nat) (x : List ℝ) (s : ℝ × ℝ) :
    let r := x.foldl (fun s x => (x + 2 * (exactTrig k n).re * s.1 - s.2, s.1)) s
    exactTrig k n * (r.1 : ℂ) - (r.2 : ℂ) =
      exactTwiddle .inv (k * x.length) n * (exactTrig k n * (s.1 : ℂ) - (s.2 : ℂ)) +
        ∑ i ∈ range x.length, (x.getD i 0 : ℂ) * exactTwiddle .inv (k * (x.length - i)) n := by
  induction x generalizing s with
  | nil => simp
  | cons v x ih =>
    have := ih (v + 2 * (exactTrig k n).re * s.1 - s.2, s.1)
    simp only [List.foldl_cons]
    rw [this, flowGsos_step _ (exactTrig_norm k n), List.length_cons, sum_range_succ', mul_add k, mul_one, exactTwiddle_add,
      exactTrig_eq]
    simp only [List.getD_cons_succ, List.getD_cons_zero, Nat.add_sub_add_right, Nat.sub_zero, mul_add k, mul_one, exactTwiddle_add]
    ring

/-- The Goertzel section in exact arithmetic is its bin of the DFT (R143, R147). -/
theorem flowGsos_exact {n k : Nat} (hn : 0 < n) (x : List ℝ) (hx : x.length = n) :
    flowGsos exactArith exactTrig n x k = dftBin .fwd n (x.map Complex.ofReal) k := by
  have h := flowGsos_fold k n x (0, 0)
  simp only [Complex.ofReal_zero, mul_zero, sub_zero, zero_add] at h
  have hl : ∀ s : ℝ × ℝ,
      (⟨(exactTrig k n).re * s.1 - s.2, (exactTrig k n).im * s.1⟩ : ℂ) = exactTrig k n * (s.1 : ℂ) - (s.2 : ℂ) := fun s => by
    apply Complex.ext <;> simp
  refine (hl _).trans (h.trans ?_)
  rw [dftBin_eq, hx]
  refine sum_congr rfl fun i hi => ?_
  rw [(exactTwiddle_reflect hn (mem_range.1 hi).le k).1]
  congr 1
  simp [List.getD_eq_getElem?_getD, hx, mem_range.1 hi]

/-! ### The real-input transforms -/

/-- The even-indexed and the odd-indexed half of a real list, transformed at half the size. -/
noncomputable def halfDft (x : List ℝ) (o m k : Nat) : ℂ :=
  ∑ i ∈ range m, (x.getD (2 * i + o) 0 : ℂ) * exactTwiddle .fwd (k * i) m

theorem dftBin_two_mul {m : Nat} (x : List ℝ) (k : Nat) :
    dftBin .fwd (2 * m) (x.map Complex.ofReal) k = halfDft x 0 m k + exactTwiddle .fwd k (2 * m) * halfDft x 1 m k := by
  have hg : ∀ i, (x.map Complex.ofReal).getD i 0 = (x.getD i 0 : ℂ) := fun i => by
    rw [← Complex.ofReal_zero, List.getD_map]
  have h2 : ∀ i, exactTwiddle .fwd (k * (2 * i)) (2 * m) = exactTwiddle .fwd (k * i) m := fun i => by
    rw [show k * (2 * i) = k * i * 2 by ring, mul_comm 2 m, exactTwiddle_mul_right _ _ _ two_pos]
  rw [dftBin_eq, sum_range_even_odd]
  simp only [hg, halfDft, mul_sum, add_zero]
  congr 1 <;> refine sum_congr rfl fun i _ => ?_
  · rw [h2]
  · rw [mul_add, mul_one, exactTwiddle_add, h2]; ring

theorem halfDft_conj {x : List ℝ} {o m k : Nat} (hm : 0 < m) (hk : k ≤ m) :
    (starRingEnd ℂ) (halfDft x o m (m - k)) = halfDft x o m k := by
  simp only [halfDft, map_sum, map_mul, Complex.conj_ofReal, exactTwiddle_conj']
  refine sum_congr rfl fun i _ => ?_
  rw [mul_comm (m - k), (exactTwiddle_reflect hm hk i).1, mul_comm i]

theorem halfDft_self {x : List ℝ} {o m : Nat} (hm : 0 < m) : halfDft x o m m = halfDft x o m 0 := by
  refine sum_congr rfl fun i _ => ?_
  rw [mul_comm m i, exactTwiddle_mul_self _ hm, zero_mul, exactTwiddle_zero]

/-- The transform of the packed list. -/
theorem dft_pack (x : List ℝ) (m k : Nat) :
    dftBin .fwd m (flowPack exactArith x (2 * m)) k = halfDft x 0 m k + Complex.I * halfDft x 1 m k := by
  rw [dftBin_eq]
  simp only [halfDft, mul_sum, ← sum_add_distrib]
  refine sum_congr rfl fun i hi => ?_
  have : (flowPack exactArith x (2 * m)).getD i 0 = (x.getD (2 * i) 0 : ℂ) + Complex.I * (x.getD (2 * i + 1) 0 : ℂ) := by
    simp [flowPack, mem_range.1 hi, exactArith, Arith.nth]
    apply Complex.ext <;> simp
  rw [this, add_zero]
  ring

/-- In exact arithmetic UNPACK is the even and odd identity, REPACK its inverse, doubled (R140, R141). -/
theorem flowUnpackBin_exact (a b t : ℂ) :
    flowUnpackBin exactArith a b t =
      (a + (starRingEnd ℂ) b) / 2 + (starRingEnd ℂ) t * ((a - (starRingEnd ℂ) b) / (2 * Complex.I)) := by
  rw [show ∀ w : ℂ, w / (2 * Complex.I) = -(w * Complex.I) / 2 from fun w => by
    field_simp; rw [Complex.I_sq]; ring]
  apply Complex.ext <;> simp [flowUnpackBin, exactArith] <;> ring

theorem flowRepackBin_exact (x y t : ℂ) :
    flowRepackBin exactArith x y t =
      x + (starRingEnd ℂ) y + Complex.I * ((x - (starRingEnd ℂ) y) * t) := by
  apply Complex.ext <;> simp [flowRepackBin, exactArith] <;> ring

/-- The bins RFFT_DIR writes are bins 0 to M of the DFT (R206). -/
theorem flowUnpack_exact {m : Nat} (hm : 0 < m) (x : List ℝ) :
    flowUnpack exactArith exactTrig (2 * m) (dft .fwd m (flowPack exactArith x (2 * m))) =
      (List.range (m + 1)).map (dftBin .fwd (2 * m) (x.map Complex.ofReal)) := by
  have hZ : ∀ k < m, (dft .fwd m (flowPack exactArith x (2 * m))).getD k 0 = halfDft x 0 m k + Complex.I * halfDft x 1 m k :=
    fun k hk => by rw [← dft_pack]; simp [dft, hk]
  have hreal : ∀ o, (halfDft x o m 0).im = 0 := fun o => by
    have := halfDft_conj (x := x) (o := o) hm (le_refl m)
    rw [Nat.sub_self, halfDft_self hm] at this
    exact Complex.conj_eq_iff_im.1 this
  unfold flowUnpack
  rw [Nat.mul_div_cancel_left _ two_pos]
  refine List.map_congr_left fun k hk => ?_
  have hk' : k ≤ m := by have := List.mem_range.1 hk; omega
  rw [dftBin_two_mul]
  simp only [cnth_exact]
  split_ifs with h0 hkm
  · subst h0
    rw [hZ 0 hm, exactTwiddle_zero]
    apply Complex.ext <;> simp [exactArith, hreal]
  · subst hkm
    rw [hZ 0 hm, exactTwiddle_half _ hm, halfDft_self hm, halfDft_self hm]
    apply Complex.ext <;> simp [exactArith, hreal]
    ring
  · rw [hZ k (by omega), hZ (m - k) (by omega), flowUnpackBin_exact, exactTrig_eq, exactTwiddle_conj, map_add, map_mul,
      Complex.conj_I, halfDft_conj hm hk', halfDft_conj hm hk']
    field_simp
    ring

/-- REPACK of the DFT's bins is twice the transform of the packed list. -/
theorem flowRepack_exact {m : Nat} (hm : 0 < m) (x : List ℝ) :
    flowRepack exactArith exactTrig (2 * m) ((List.range (m + 1)).map (dftBin .fwd (2 * m) (x.map Complex.ofReal))) =
      (dft .fwd m (flowPack exactArith x (2 * m))).map fun v => 2 * v := by
  unfold flowRepack dft
  rw [Nat.mul_div_cancel_left _ two_pos, List.map_map]
  refine List.map_congr_left fun k hk => ?_
  have hk' : k < m := List.mem_range.1 hk
  have hX : ∀ l ≤ m, exactArith.cnth ((List.range (m + 1)).map (dftBin .fwd (2 * m) (x.map Complex.ofReal))) l =
      dftBin .fwd (2 * m) (x.map Complex.ofReal) l := fun l hl => by
    simp [List.getD_eq_getElem?_getD, Nat.lt_succ_of_le hl]
  have hc : (starRingEnd ℂ) (exactTwiddle .fwd (m - k) (2 * m)) = -exactTwiddle .fwd k (2 * m) := by
    rw [exactTwiddle_conj', ← one_mul (m - k)]
    have h1 : exactTwiddle .inv (1 * (m - k)) (2 * m) * exactTwiddle .inv k (2 * m) = -1 := by
      rw [← exactTwiddle_add, one_mul, Nat.sub_add_cancel hk'.le, exactTwiddle_half _ hm]
    have h2 := exactTwiddle_inv_mul_fwd k (2 * m)
    linear_combination exactTwiddle .fwd k (2 * m) * h1 - exactTwiddle .inv (1 * (m - k)) (2 * m) * h2
  have ht := exactTwiddle_inv_mul_fwd k (2 * m)
  rw [hX k hk'.le, hX (m - k) (by omega), flowRepackBin_exact, dftBin_two_mul, dftBin_two_mul, exactTrig_eq, map_add, map_mul, hc,
    halfDft_conj hm hk'.le, halfDft_conj hm hk'.le, Function.comp, dft_pack]
  linear_combination 2 * Complex.I * halfDft x 1 m k * ht

/-- The real-input round trip gives `N` times the list (R147). -/
theorem flowUnzip_roundtrip {m : Nat} (x : List ℝ) (hx : x.length = 2 * m) :
    flowUnzip exactArith (dft .inv m ((dft .fwd m (flowPack exactArith x (2 * m))).map fun v => 2 * v)) (2 * m) =
      x.map fun v => ((2 * m : Nat) : ℝ) * v := by
  have h : ∀ l < m, exactArith.cnth (dft .inv m ((dft .fwd m (flowPack exactArith x (2 * m))).map fun v => 2 * v)) l =
      ((2 * m : Nat) : ℝ) * ⟨x.getD (2 * l) 0, x.getD (2 * l + 1) 0⟩ := fun l hl => by
    have hd := dft_inv_fwd m (flowPack exactArith x (2 * m)) hl
    have h2 : ∀ z : List ℂ, dftBin .inv m (z.map fun v => 2 * v) l = 2 * dftBin .inv m z l := fun z => by
      rw [dftBin_eq, dftBin_eq, mul_sum]
      refine sum_congr rfl fun i _ => ?_
      rw [show (z.map fun v => 2 * v).getD i 0 = 2 * z.getD i 0 by
        conv_lhs => rw [show (0 : ℂ) = 2 * 0 by simp]
        rw [List.getD_map], mul_assoc]
    have hp : (flowPack exactArith x (2 * m)).getD l 0 = ⟨x.getD (2 * l) 0, x.getD (2 * l + 1) 0⟩ := by
      simp [flowPack, hl, exactArith, Arith.nth]
    rw [cnth_exact, show ∀ z : List ℂ, (dft .inv m z).getD l 0 = dftBin .inv m z l from fun z => by simp [dft, hl], h2, hd, hp]
    push_cast
    ring
  apply List.ext_getElem
  · simp [flowUnzip, hx]
  · intro i h1 h2
    have hi : i < 2 * m := by simpa [flowUnzip] using h1
    simp only [flowUnzip, List.getElem_map, List.getElem_range]
    rw [h (i / 2) (by omega)]
    have hix : i < x.length := by omega
    split
    · rename_i hev
      rw [show exactArith.re = Complex.re from rfl, Complex.re_ofReal_mul, show 2 * (i / 2) = i by omega,
        List.getD_eq_getElem _ _ hix]
    · rename_i hodd
      rw [show exactArith.im = Complex.im from rfl, Complex.im_ofReal_mul, show 2 * (i / 2) + 1 = i by omega,
        List.getD_eq_getElem _ _ hix]

end Sys2Proof.Machine
end

