-- ==== Sys2Proof/Laws/PerInstr.lean ====
section
/-! SUPPORT. Statements about every command as syntax, one lemma per constructor. Family EncodedFields: the fields of a well-formed
command's word are the command's own (R90 to R92, R99). -/

namespace Sys2Proof

/-- The number a word spells, for a context index of four bits: no field overlaps another. -/
theorem encode_toNat {i : Instr} (h : i.WellFormed) : (encode i).toNat = i.op + i.ctx * 256 + i.prec.bit * 4096 := by
  have hc : i.ctx < 16 := h
  have ho : i.op < 16 := by cases i <;> simp [Instr.op]
  have hp : i.prec.bit < 2 := by cases i.prec <;> simp [Prec.bit]
  rw [encode, BitVec.toNat_ofNat]
  exact Nat.mod_eq_of_lt (by omega)

/-- The fields of the word of a well-formed command. -/
abbrev EncodesItsFields (i : Instr) : Prop :=
  opField (encode i) = i.op ∧ rsv0Field (encode i) = 0 ∧ ctxField (encode i) = i.ctx ∧ precField (encode i) = i.prec ∧
    rsv1Field (encode i) = 0

theorem encode_fields {i : Instr} (h : i.WellFormed) : EncodesItsFields i := by
  have ho : i.op < 16 := by cases i <;> simp [Instr.op]
  have hc : i.ctx < 16 := h
  have hn := encode_toNat h
  have hp : i.prec.bit = 0 ∧ i.prec = .f32 ∨ i.prec.bit = 1 ∧ i.prec = .f64 := by cases i.prec <;> simp [Prec.bit]
  unfold EncodesItsFields opField rsv0Field ctxField precField rsv1Field
  rw [hn]
  rcases hp with ⟨hb, hp⟩ | ⟨hb, hp⟩ <;> rw [hb, hp]
  · refine ⟨by omega, by omega, by omega, ?_, by omega⟩
    rw [if_pos (by omega)]
  · refine ⟨by omega, by omega, by omega, ?_, by omega⟩
    rw [if_neg (by omega)]

end Sys2Proof

namespace Sys2Proof.Laws.EncodedFields

/-- A well-formed command's word holds the command's own fields. -/
def Statement (i : Instr) : Prop := i.WellFormed → EncodesItsFields i

theorem cfgFft (c : Nat) (p : Prec) : Statement (.cfgFft c p) := encode_fields
theorem cfgRfft (c : Nat) (p : Prec) : Statement (.cfgRfft c p) := encode_fields
theorem cfgGz (c : Nat) (p : Prec) : Statement (.cfgGz c p) := encode_fields
theorem cfgDht (c : Nat) (p : Prec) : Statement (.cfgDht c p) := encode_fields
theorem fftDir (c : Nat) (p : Prec) : Statement (.fftDir c p) := encode_fields
theorem fftInv (c : Nat) (p : Prec) : Statement (.fftInv c p) := encode_fields
theorem fftInvn (c : Nat) (p : Prec) : Statement (.fftInvn c p) := encode_fields
theorem fftShift (p : Prec) : Statement (.fftShift p) := encode_fields
theorem rfftDir (c : Nat) (p : Prec) : Statement (.rfftDir c p) := encode_fields
theorem rfftDirc (c : Nat) (p : Prec) : Statement (.rfftDirc c p) := encode_fields
theorem rfftInv (c : Nat) (p : Prec) : Statement (.rfftInv c p) := encode_fields
theorem rfftInvn (c : Nat) (p : Prec) : Statement (.rfftInvn c p) := encode_fields
theorem gzDir (c : Nat) (p : Prec) : Statement (.gzDir c p) := encode_fields
theorem dhtDir (c : Nat) (p : Prec) : Statement (.dhtDir c p) := encode_fields
theorem dhtInvn (c : Nat) (p : Prec) : Statement (.dhtInvn c p) := encode_fields

end Sys2Proof.Laws.EncodedFields
end

