-- ==== Sys2Proof/Laws/Registers.lean ====
section
/-! SUPPORT. Once for the register file: a register is found at its own offset, in the REG region, and what the packed registers
spell. -/

namespace Sys2Proof.Machine

/-- A register of the file is the register at its offset (R21). -/
theorem Reg.ofOffset_offset_of_inFile {q : Params} (hq : q.Legal) {x : Reg} (hx : x.inFile q) :
    Reg.ofOffset q x.offset = some x := by
  obtain ⟨_, _, _, h16, _⟩ := hq
  cases x with
  | bBase k => fin_cases k <;> rfl
  | bLen k => fin_cases k <;> rfl
  | ctxCfg c =>
    have hc : c < q.nctx := hx
    have e : (0x080 + 8 * c - 0x080) / 8 = c := by omega
    show Reg.ofOffset q (0x080 + 8 * c) = _
    unfold Reg.ofOffset
    iterate 20
      refine (if_neg ?_).trans ?_
      · omega
    rw [e]
    exact if_pos (by omega)
  | ctxN c =>
    have hc : c < q.nctx := hx
    have e : (0x084 + 8 * c - 0x080) / 8 = c := by omega
    show Reg.ofOffset q (0x084 + 8 * c) = _
    unfold Reg.ofOffset
    iterate 20
      refine (if_neg ?_).trans ?_
      · omega
    rw [e]
    exact (if_neg (by omega)).trans (if_pos (by omega))
  | _ => rfl

/-- Every register lies in the REG region, at a multiple of 4 (R21, R66). -/
theorem Reg.offset_ok {q : Params} (hq : q.Legal) {x : Reg} (hx : x.inFile q) : x.offset < 0x1000 ∧ x.offset % 4 = 0 := by
  obtain ⟨_, _, _, h16, _⟩ := hq
  cases x with
  | bBase k => fin_cases k <;> decide
  | bLen k => fin_cases k <;> decide
  | ctxCfg c =>
    have hc : c < q.nctx := hx
    simp only [Reg.offset]
    omega
  | ctxN c =>
    have hc : c < q.nctx := hx
    simp only [Reg.offset]
    omega
  | _ => decide

theorem bit_le (b : Bool) : bit b ≤ 1 := by cases b <;> decide

/-- The number STATUS spells: its fields do not overlap (R26). -/
theorem Status.word_toNat (x : Status) (b : Bool) :
    (x.word b).toNat = bit b + 2 * bit x.done + 4 * bit x.err + 8 * bit x.ovr + 256 * x.errCode.toNat +
      65536 * x.errA.toNat + 1048576 * x.errB.toNat := by
  have h2 : x.errCode.toNat < 16 := by cases x.errCode <;> decide
  have := x.errA.isLt
  have := x.errB.isLt
  have := bit_le b
  have := bit_le x.done
  have := bit_le x.err
  have := bit_le x.ovr
  rw [Status.word, BitVec.toNat_ofNat]
  omega

end Sys2Proof.Machine
end

