-- ==== Sys2Proof/Laws/Trig.lean ====
section
/-! SUPPORT. Once for the coefficient generator: the stored constant is π/2 to 256 bits, and the fixed-point cosine and sine are
within `2^-252` of the exact ones. -/

namespace Sys2Proof.Machine

/-- The cosine series in nested form over the reals: what `cosSeries` computes in fixed point. -/
noncomputable def cosNest (y : ℝ) : (terms i : Nat) → ℝ
  | 0, _     => 1
  | n + 1, i => 1 - y * cosNest y n (i + 1) / ((2 * i + 1) * (2 * i + 2))

/-- The nested series of `sin x / x`. -/
noncomputable def sinNest (y : ℝ) : (terms i : Nat) → ℝ
  | 0, _     => 1
  | n + 1, i => 1 - y * sinNest y n (i + 1) / ((2 * i + 2) * (2 * i + 3))

/-- A nested series is the sum of its terms. -/
theorem cosNest_eq_sum (y : ℝ) (n i : Nat) :
    cosNest y n i = ∑ j ∈ Finset.range (n + 1), (-y) ^ j * ((2 * i).factorial / (2 * (i + j)).factorial) := by
  induction n generalizing i with
  | zero => simp [cosNest, Nat.factorial_ne_zero]
  | succ n ih =>
    have h0 : ∀ m : Nat, ((m.factorial : Nat) : ℝ) ≠ 0 := fun m => Nat.cast_ne_zero.2 (Nat.factorial_ne_zero m)
    have hf : ((2 * (i + 1)).factorial : ℝ) = (2 * i + 2) * ((2 * i + 1) * (2 * i).factorial) := by
      rw [show 2 * (i + 1) = 2 * i + 1 + 1 by ring, Nat.factorial_succ, Nat.factorial_succ]; push_cast; ring
    rw [Finset.sum_range_succ', cosNest, ih, Finset.mul_sum, Finset.sum_div, sub_eq_add_neg, add_comm, ← Finset.sum_neg_distrib]
    congr 1
    · refine Finset.sum_congr rfl fun j _ => ?_
      rw [hf, show i + 1 + j = i + (j + 1) by ring, pow_succ]
      have := h0 (2 * (i + (j + 1)))
      field_simp
    · simp [div_self (h0 _)]

theorem sinNest_eq_sum (y : ℝ) (n i : Nat) :
    sinNest y n i = ∑ j ∈ Finset.range (n + 1), (-y) ^ j * ((2 * i + 1).factorial / (2 * (i + j) + 1).factorial) := by
  induction n generalizing i with
  | zero => simp [sinNest, Nat.factorial_ne_zero]
  | succ n ih =>
    have h0 : ∀ m : Nat, ((m.factorial : Nat) : ℝ) ≠ 0 := fun m => Nat.cast_ne_zero.2 (Nat.factorial_ne_zero m)
    have hf : ((2 * (i + 1) + 1).factorial : ℝ) = (2 * i + 3) * ((2 * i + 2) * (2 * i + 1).factorial) := by
      rw [show 2 * (i + 1) + 1 = 2 * i + 1 + 1 + 1 by ring, Nat.factorial_succ, Nat.factorial_succ]; push_cast; ring
    rw [Finset.sum_range_succ', sinNest, ih, Finset.mul_sum, Finset.sum_div, sub_eq_add_neg, add_comm, ← Finset.sum_neg_distrib]
    congr 1
    · refine Finset.sum_congr rfl fun j _ => ?_
      rw [hf, show i + 1 + j = i + (j + 1) by ring, pow_succ]
      have := h0 (2 * (i + (j + 1)) + 1)
      field_simp
    · simp [div_self (h0 _)]

/-- The partial sums of the exponential series at an imaginary argument, in pairs of terms. -/
theorem exp_sum_pairs (x : ℝ) (n : Nat) :
    ∑ m ∈ Finset.range (2 * n), ((x : ℂ) * Complex.I) ^ m / m.factorial =
      (∑ j ∈ Finset.range n, (-x ^ 2) ^ j / (2 * j).factorial : ℝ) +
        (∑ j ∈ Finset.range n, x * (-x ^ 2) ^ j / (2 * j + 1).factorial : ℝ) * Complex.I := by
  induction n with
  | zero => simp
  | succ n ih =>
    have hI : ((x : ℂ) * Complex.I) ^ (2 * n) = ((-x ^ 2) ^ n : ℝ) := by
      rw [pow_mul, mul_pow, Complex.I_sq]; push_cast; ring
    have hI' : ((x : ℂ) * Complex.I) ^ (2 * n + 1) = ((-x ^ 2) ^ n : ℝ) * (x * Complex.I) := by rw [pow_succ, hI]
    rw [show 2 * (n + 1) = 2 * n + 1 + 1 by ring, Finset.sum_range_succ, Finset.sum_range_succ, ih, Finset.sum_range_succ,
      Finset.sum_range_succ, hI', hI]
    generalize (-x ^ 2) ^ n = z
    simp only [Complex.ofReal_add, Complex.ofReal_mul, Complex.ofReal_div, Complex.ofReal_natCast]
    ring

/-- The Taylor polynomials of cosine and sine, with a bound on what they leave. -/
theorem cos_sin_taylor (x : ℝ) (n : Nat) (hx : |x| ≤ n) :
    |Real.cos x - ∑ j ∈ Finset.range n, (-x ^ 2) ^ j / (2 * j).factorial| ≤ |x| ^ (2 * n) / (2 * n).factorial * 2 ∧
      |Real.sin x - ∑ j ∈ Finset.range n, x * (-x ^ 2) ^ j / (2 * j + 1).factorial| ≤ |x| ^ (2 * n) / (2 * n).factorial * 2 := by
  have hn : ‖(x : ℂ) * Complex.I‖ = |x| := by simp
  have hb := Complex.exp_bound' (x := (x : ℂ) * Complex.I) (n := 2 * n) (by
    rw [hn, div_le_iff₀ (by positivity)]; push_cast; linarith)
  rw [hn, exp_sum_pairs, Complex.exp_mul_I] at hb
  generalize ∑ j ∈ Finset.range n, (-x ^ 2) ^ j / ((2 * j).factorial : ℝ) = a at *
  generalize ∑ j ∈ Finset.range n, x * (-x ^ 2) ^ j / ((2 * j + 1).factorial : ℝ) = b at *
  refine ⟨le_trans ?_ hb, le_trans ?_ hb⟩
  · refine le_trans (le_of_eq ?_) (Complex.abs_re_le_norm _)
    congr 1
    simp [← Complex.ofReal_cos, ← Complex.ofReal_sin]
  · refine le_trans (le_of_eq ?_) (Complex.abs_im_le_norm _)
    congr 1
    simp [← Complex.ofReal_cos, ← Complex.ofReal_sin]


/-- The stored constant is π/2 to 256 bits: `halfPiFix = ⌊π/2 · 2^256⌋`. -/
theorem halfPiFix_bounds : (halfPiFix : ℝ) / 2 ^ 256 ≤ Real.pi / 2 ∧ Real.pi / 2 ≤ ((halfPiFix : ℝ) + 1) / 2 ^ 256 := by
  have hsmall : ∀ y : ℝ, 0 ≤ y → y ≤ 2 → |y| ≤ (40 : Nat) ∧ |y| ^ (2 * 40) / (2 * 40).factorial * 2 ≤ 2 ^ 80 / (Nat.factorial 80) * 2 := by
    intro y h0 h2
    rw [abs_of_nonneg h0]
    refine ⟨le_trans h2 (by norm_num), ?_⟩
    gcongr
  have hpi := Real.pi_gt_three
  constructor
  · have hx : (0 : ℝ) ≤ (halfPiFix : ℝ) / 2 ^ 256 ∧ (halfPiFix : ℝ) / 2 ^ 256 ≤ 2 := by norm_num [halfPiFix]
    obtain ⟨h1, h2⟩ := hsmall _ hx.1 hx.2
    have ht := (abs_le.1 ((cos_sin_taylor _ 40 h1).1.trans h2)).1
    have hs : (2 : ℝ) ^ 80 / (Nat.factorial 80) * 2 ≤
        ∑ j ∈ Finset.range 40, (-((halfPiFix : ℝ) / 2 ^ 256) ^ 2) ^ j / (2 * j).factorial := by
      norm_num [Finset.sum_range_succ, Nat.factorial, halfPiFix]
    have hc : 0 ≤ Real.cos ((halfPiFix : ℝ) / 2 ^ 256) := by linarith
    by_contra hlt
    exact absurd (Real.cos_neg_of_pi_div_two_lt_of_lt (not_le.1 hlt) (by linarith [hx.2])) (not_lt.2 hc)
  · have hx : (0 : ℝ) ≤ ((halfPiFix : ℝ) + 1) / 2 ^ 256 ∧ ((halfPiFix : ℝ) + 1) / 2 ^ 256 ≤ 2 := by norm_num [halfPiFix]
    obtain ⟨h1, h2⟩ := hsmall _ hx.1 hx.2
    have ht := (abs_le.1 ((cos_sin_taylor _ 40 h1).1.trans h2)).2
    have hs : ∑ j ∈ Finset.range 40, (-(((halfPiFix : ℝ) + 1) / 2 ^ 256) ^ 2) ^ j / (2 * j).factorial ≤
        -((2 : ℝ) ^ 80 / (Nat.factorial 80) * 2) := by
      norm_num [Finset.sum_range_succ, Nat.factorial, halfPiFix]
    have hc : Real.cos (((halfPiFix : ℝ) + 1) / 2 ^ 256) ≤ 0 := by linarith
    by_contra hlt
    exact absurd (Real.cos_pos_of_mem_Ioo ⟨by linarith [hx.1], not_le.1 hlt⟩) (not_lt.2 hc)

/-! ### The fixed-point series -/

theorem floor_div_near (a b : Nat) (hb : 0 < b) : (a : ℝ) / b - 1 ≤ ((a / b : Nat) : ℝ) ∧ ((a / b : Nat) : ℝ) ≤ (a : ℝ) / b := by
  have hb' : (0 : ℝ) < b := by exact_mod_cast hb
  refine ⟨?_, Nat.cast_div_le⟩
  rw [sub_le_iff_le_add, div_le_iff₀ hb']
  have := Nat.lt_div_mul_add (a := a) hb
  have h : (a : ℝ) < (a / b : Nat) * b + b := by exact_mod_cast this
  linarith

/-- The two series differ in their denominators alone. -/
def nestFix (den : Nat → Nat) (x2 : Nat) : (terms i : Nat) → Nat
  | 0, _     => 2 ^ trigBits
  | n + 1, i => 2 ^ trigBits - x2 * nestFix den x2 n (i + 1) / (2 ^ trigBits * den i)

noncomputable def nest (den : Nat → Nat) (y : ℝ) : (terms i : Nat) → ℝ
  | 0, _     => 1
  | n + 1, i => 1 - y * nest den y n (i + 1) / den i

theorem cosSeries_eq (x2 n i : Nat) : cosSeries x2 n i = nestFix (fun i => (2 * i + 1) * (2 * i + 2)) x2 n i := by
  induction n generalizing i with
  | zero => rfl
  | succ n ih => rw [cosSeries, nestFix, ih]

theorem sinSeries_eq (x2 n i : Nat) : sinSeries x2 n i = nestFix (fun i => (2 * i + 2) * (2 * i + 3)) x2 n i := by
  induction n generalizing i with
  | zero => rfl
  | succ n ih => rw [sinSeries, nestFix, ih]

theorem cosNest_eq (y : ℝ) (n i : Nat) : cosNest y n i = nest (fun i => (2 * i + 1) * (2 * i + 2)) y n i := by
  induction n generalizing i with
  | zero => rfl
  | succ n ih => rw [cosNest, nest, ih]; push_cast; rfl

theorem sinNest_eq (y : ℝ) (n i : Nat) : sinNest y n i = nest (fun i => (2 * i + 2) * (2 * i + 3)) y n i := by
  induction n generalizing i with
  | zero => rfl
  | succ n ih => rw [sinNest, nest, ih]; push_cast; rfl

theorem nest_bounds {den : Nat → Nat} (hd : ∀ i, 2 ≤ den i) {y : ℝ} (h0 : 0 ≤ y) (h1 : y ≤ 1) (n i : Nat) :
    0 ≤ nest den y n i ∧ nest den y n i ≤ 1 := by
  induction n generalizing i with
  | zero => simp [nest]
  | succ n ih =>
    obtain ⟨a, b⟩ := ih (i + 1)
    have hd' : (2 : ℝ) ≤ den i := by exact_mod_cast hd i
    have : y * nest den y n (i + 1) / den i ≤ 1 := by
      rw [div_le_one (by linarith)]
      exact (mul_le_mul h1 b a zero_le_one).trans (by linarith)
    have h' : 0 ≤ y * nest den y n (i + 1) / den i := by positivity
    rw [nest]
    constructor <;> linarith

/-- A fixed-point series is within two units of the exact one at a nearby argument. -/
theorem nestFix_near {den : Nat → Nat} (hd : ∀ i, 2 ≤ den i) {x2 : Nat} {y e : ℝ} (h0 : 0 ≤ y) (h1 : y ≤ 1)
    (hx : x2 ≤ 2 ^ trigBits) (he : |(x2 : ℝ) / 2 ^ trigBits - y| ≤ e) (n i : Nat) :
    nestFix den x2 n i ≤ 2 ^ trigBits ∧ |(nestFix den x2 n i : ℝ) / 2 ^ trigBits - nest den y n i| ≤ e + 2 / 2 ^ trigBits := by
  have e0 : 0 ≤ e := le_trans (abs_nonneg _) he
  induction n generalizing i with
  | zero => 
    refine ⟨le_rfl, ?_⟩
    simp [nestFix, nest]
    positivity
  | succ n ih =>
    obtain ⟨a, b⟩ := ih (i + 1)
    obtain ⟨c, d⟩ := nest_bounds hd h0 h1 n (i + 1)
    have hd' : (2 : ℝ) ≤ den i := by exact_mod_cast hd i
    have hden : 0 < 2 ^ trigBits * den i := Nat.mul_pos (Nat.two_pow_pos _) (by have := hd i; omega)
    have hq : x2 * nestFix den x2 n (i + 1) / (2 ^ trigBits * den i) ≤ 2 ^ trigBits := by
      refine Nat.div_le_of_le_mul ?_
      calc x2 * nestFix den x2 n (i + 1) ≤ 2 ^ trigBits * 2 ^ trigBits := Nat.mul_le_mul hx a
        _ ≤ 2 ^ trigBits * den i * 2 ^ trigBits := by
          refine Nat.mul_le_mul_right _ (Nat.le_mul_of_pos_right _ (by have := hd i; omega))
    refine ⟨Nat.sub_le _ _, ?_⟩
    rw [nestFix, nest, Nat.cast_sub hq]
    obtain ⟨f1, f2⟩ := floor_div_near (x2 * nestFix den x2 n (i + 1)) (2 ^ trigBits * den i) hden
    generalize ((x2 * nestFix den x2 n (i + 1) / (2 ^ trigBits * den i) : Nat) : ℝ) = q at *
    push_cast at f1 f2 ⊢
    have hT : (0 : ℝ) < 2 ^ trigBits := by positivity
    have hdv : (x2 : ℝ) * (nestFix den x2 n (i + 1) : ℝ) / (2 ^ trigBits * den i) / 2 ^ trigBits =
        (x2 / 2 ^ trigBits) * (nestFix den x2 n (i + 1) / 2 ^ trigBits) / den i := by
      field_simp
    have f1' : (x2 / 2 ^ trigBits) * (nestFix den x2 n (i + 1) / 2 ^ trigBits) / den i - 1 / 2 ^ trigBits ≤ q / 2 ^ trigBits := by
      rw [← hdv, ← sub_div]; exact div_le_div_of_nonneg_right f1 hT.le
    have f2' : q / 2 ^ trigBits ≤ (x2 / 2 ^ trigBits) * (nestFix den x2 n (i + 1) / 2 ^ trigBits) / den i := by
      rw [← hdv]; exact div_le_div_of_nonneg_right f2 hT.le
    have hx1 : (x2 : ℝ) / 2 ^ trigBits ≤ 1 := by
      rw [div_le_one hT]; exact_mod_cast hx
    have hx0 : (0 : ℝ) ≤ (x2 : ℝ) / 2 ^ trigBits := by positivity
    rw [sub_div, div_self hT.ne']
    generalize (x2 : ℝ) / 2 ^ trigBits = X at *
    generalize (nestFix den x2 n (i + 1) : ℝ) / 2 ^ trigBits = F at *
    generalize nest den y n (i + 1) = G at *
    generalize q / 2 ^ trigBits = Q at *
    generalize hu : (1 : ℝ) / 2 ^ trigBits = u at *
    have hu2 : (2 : ℝ) / 2 ^ trigBits = 2 * u := by rw [← hu]; ring
    rw [hu2] at b ⊢
    have hu0 : 0 ≤ u := by rw [← hu]; positivity
    -- X F / d - y G / d = (X (F - G) + (X - y) G) / d
    have key : |X * F / den i - y * G / den i| ≤ e + u := by
      rw [← sub_div, abs_div, abs_of_nonneg (by linarith : (0 : ℝ) ≤ den i), div_le_iff₀ (by linarith)]
      have : |X * F - y * G| ≤ (e + 2 * u) + e := by
        rw [show X * F - y * G = X * (F - G) + (X - y) * G by ring]
        refine (abs_add_le _ _).trans (add_le_add ?_ ?_)
        · rw [abs_mul, abs_of_nonneg hx0]
          exact (mul_le_mul hx1 b (abs_nonneg _) zero_le_one).trans (by linarith)
        · rw [abs_mul, abs_of_nonneg c]
          exact (mul_le_mul he d c e0).trans (by linarith)
      have h2 : (e + u) * 2 ≤ (e + u) * den i := mul_le_mul_of_nonneg_left hd' (by linarith)
      linarith
    obtain ⟨k1, k2⟩ := abs_le.1 key
    rw [abs_le]
    constructor <;> linarith


/-- The scaled angle is at most two units below `π/2 · r/d`. -/
theorem angleFix_near {r d : Nat} (hd : 0 < d) (hr : 2 * r ≤ d) :
    Real.pi / 2 * (r / d) - 2 / 2 ^ trigBits ≤ (angleFix r d : ℝ) / 2 ^ trigBits ∧
      (angleFix r d : ℝ) / 2 ^ trigBits ≤ Real.pi / 2 * (r / d) := by
  obtain ⟨p1, p2⟩ := halfPiFix_bounds
  have hd' : (0 : ℝ) < d := by exact_mod_cast hd
  have hT : (0 : ℝ) < 2 ^ trigBits := by positivity
  have hx0 : (0 : ℝ) ≤ r / d := by positivity
  have hx1 : (r : ℝ) / d ≤ 1 := by rw [div_le_one hd']; exact_mod_cast (by omega : r ≤ d)
  obtain ⟨f1, f2⟩ := floor_div_near (halfPiFix * r) d hd
  have hm : ((halfPiFix * r : Nat) : ℝ) / d = halfPiFix * (r / d) := by push_cast; ring
  rw [hm] at f1 f2
  change _ ≤ (angleFix r d : ℝ) at f1
  change (angleFix r d : ℝ) ≤ _ at f2
  have hb : (2 : ℝ) ^ 256 = 2 ^ trigBits := rfl
  rw [hb] at p1 p2
  constructor
  · rw [sub_le_iff_le_add, ← add_div, le_div_iff₀ hT]
    rw [le_div_iff₀ hT] at p2
    have := mul_le_mul_of_nonneg_right p2 hx0
    rw [show Real.pi / 2 * 2 ^ trigBits * ((r : ℝ) / d) = Real.pi / 2 * (r / d) * 2 ^ trigBits by ring] at this
    rw [show ((halfPiFix : ℝ) + 1) * ((r : ℝ) / d) = halfPiFix * (r / d) + r / d by ring] at this
    linarith
  · rw [div_le_iff₀ hT]
    rw [div_le_iff₀ hT] at p1
    have := mul_le_mul_of_nonneg_right p1 hx0
    rw [show Real.pi / 2 * 2 ^ trigBits * ((r : ℝ) / d) = Real.pi / 2 * (r / d) * 2 ^ trigBits by ring] at this
    linarith

theorem two_le_cosDen (i : Nat) : 2 ≤ (2 * i + 1) * (2 * i + 2) :=
  Nat.mul_le_mul (show 1 ≤ 2 * i + 1 by omega) (show 2 ≤ 2 * i + 2 by omega)

theorem two_le_sinDen (i : Nat) : 2 ≤ (2 * i + 2) * (2 * i + 3) :=
  Nat.mul_le_mul (show 2 ≤ 2 * i + 2 by omega) (show 1 ≤ 2 * i + 3 by omega)

theorem mul_near {A S t N u : ℝ} (hA0 : 0 ≤ A) (hA1 : A ≤ 1) (hN0 : 0 ≤ N) (hN1 : N ≤ 1) (h : |S - N| ≤ 5 * u + 2 * u)
    (h1 : t - 2 * u ≤ A) (h2 : A ≤ t) : |A * S - t * N| ≤ 9 * u := by
  rw [show A * S - t * N = A * (S - N) + (A - t) * N by ring]
  refine (abs_add_le _ _).trans ?_
  rw [abs_mul, abs_mul, abs_of_nonneg hA0, abs_of_nonneg hN0]
  have k1 : A * |S - N| ≤ 1 * (5 * u + 2 * u) := mul_le_mul hA1 h (abs_nonneg _) zero_le_one
  have hd : |A - t| ≤ 2 * u := abs_le.2 ⟨by linarith, by linarith⟩
  have k2 : |A - t| * N ≤ 2 * u * 1 := mul_le_mul hd hN1 hN0 ((abs_nonneg _).trans hd)
  linarith

/-- THE FIXED-POINT COSINE AND SINE: within sixteen units, `2^-252`, of the exact ones, in the first half of the quadrant. -/
theorem cosFix_sinFix_near {r d : Nat} (hd : 0 < d) (hr : 2 * r ≤ d) :
    |(cosFix r d : ℝ) / 2 ^ trigBits - Real.cos (Real.pi / 2 * (r / d))| ≤ 16 / 2 ^ trigBits ∧
      |(sinFix r d : ℝ) / 2 ^ trigBits - Real.sin (Real.pi / 2 * (r / d))| ≤ 16 / 2 ^ trigBits := by
  obtain ⟨a1, a2⟩ := angleFix_near hd hr
  have hd' : (0 : ℝ) < d := by exact_mod_cast hd
  have hT : (0 : ℝ) < 2 ^ trigBits := by positivity
  have hx0 : (0 : ℝ) ≤ r / d := by positivity
  have hx1 : (r : ℝ) / d ≤ 1 / 2 := by
    rw [div_le_div_iff₀ hd' two_pos]
    have : ((r * 2 : Nat) : ℝ) ≤ ((1 * d : Nat) : ℝ) := Nat.cast_le.2 (by omega)
    push_cast at this; exact this
  have hpi := Real.pi_lt_d2
  have hpi3 := Real.pi_gt_three
  have ht0 : 0 ≤ Real.pi / 2 * (r / d) := by positivity
  have ht1 : Real.pi / 2 * (r / d) ≤ 4 / 5 :=
    (mul_le_mul (by linarith : Real.pi / 2 ≤ 1.6) hx1 hx0 (by norm_num)).trans (by norm_num)
  have hA : (angleFix r d : ℝ) / 2 ^ trigBits ≤ 4 / 5 := a2.trans ht1
  have hA0 : (0 : ℝ) ≤ (angleFix r d : ℝ) / 2 ^ trigBits := by positivity
  unfold cosFix sinFix
  generalize Real.pi / 2 * ((r : ℝ) / d) = t at *
  generalize angleFix r d = a at *
  have hu0 : (0 : ℝ) < 1 / 2 ^ trigBits := by positivity
  have hmul : ∀ k : ℝ, k / 2 ^ trigBits = k * (1 / 2 ^ trigBits) := fun k => by ring
  obtain ⟨g1, g2⟩ := floor_div_near (a * a) (2 ^ trigBits) (Nat.two_pow_pos _)
  have hx2 : a * a / 2 ^ trigBits ≤ 2 ^ trigBits := by
    have : (a : ℝ) ≤ 2 ^ trigBits := by rw [div_le_iff₀ hT] at hA; linarith
    have : a ≤ 2 ^ trigBits := by exact_mod_cast this
    exact Nat.div_le_of_le_mul (Nat.mul_le_mul this this)
  generalize a * a / 2 ^ trigBits = x2 at *
  -- the square of the angle
  have hsq : ((a * a : Nat) : ℝ) / ((2 ^ trigBits : Nat) : ℝ) / 2 ^ trigBits = (a / 2 ^ trigBits) ^ 2 := by
    push_cast; field_simp
  have he : |(x2 : ℝ) / 2 ^ trigBits - t ^ 2| ≤ 5 / 2 ^ trigBits := by
    have g1' := div_le_div_of_nonneg_right g1 hT.le
    have g2' := div_le_div_of_nonneg_right g2 hT.le
    rw [sub_div, hsq] at g1'
    rw [hsq] at g2'
    rw [hmul 2] at a1
    rw [hmul 5]
    generalize (a : ℝ) / 2 ^ trigBits = A at *
    generalize (x2 : ℝ) / 2 ^ trigBits = X at *
    generalize (1 : ℝ) / 2 ^ trigBits = u at *
    have k1 : A ^ 2 ≤ t ^ 2 := pow_le_pow_left₀ hA0 a2 2
    have k2 : (t + A) * (t - A) ≤ 2 * (2 * u) := mul_le_mul (by linarith) (by linarith) (by linarith) two_pos.le
    have k3 : (t + A) * (t - A) = t ^ 2 - A ^ 2 := by ring
    rw [abs_le]
    constructor <;> linarith
  have ht21 : t ^ 2 ≤ 1 := pow_le_one₀ ht0 (by linarith)
  have hc := (nestFix_near two_le_cosDen (sq_nonneg t) ht21 hx2 he trigTerms 0).2
  have hs := nestFix_near two_le_sinDen (sq_nonneg t) ht21 hx2 he trigTerms 0
  have hn1 := nest_bounds two_le_sinDen (sq_nonneg t) ht21 trigTerms 0
  rw [← cosSeries_eq, ← cosNest_eq, cosNest_eq_sum] at hc
  rw [← sinSeries_eq, ← sinNest_eq] at hs
  rw [← sinNest_eq] at hn1
  obtain ⟨hs0, hs⟩ := hs
  obtain ⟨m1, m2⟩ := floor_div_near (a * sinSeries x2 trigTerms 0) (2 ^ trigBits) (Nat.two_pow_pos _)
  generalize a * sinSeries x2 trigTerms 0 / 2 ^ trigBits = q at *
  have hS1 : (sinSeries x2 trigTerms 0 : ℝ) / 2 ^ trigBits ≤ 1 := by
    rw [div_le_one hT]; exact_mod_cast hs0
  have hS0 : (0 : ℝ) ≤ (sinSeries x2 trigTerms 0 : ℝ) / 2 ^ trigBits := by positivity
  have hsn : t * sinNest (t ^ 2) trigTerms 0 =
      ∑ j ∈ Finset.range 31, t * (-t ^ 2) ^ j / (2 * j + 1).factorial := by
    rw [sinNest_eq_sum, Finset.mul_sum]
    refine Finset.sum_congr rfl fun j _ => ?_
    norm_num; ring
  have hcn : (∑ j ∈ Finset.range (trigTerms + 1), (-t ^ 2) ^ j * ((2 * 0).factorial / (2 * (0 + j)).factorial : ℝ)) =
      ∑ j ∈ Finset.range 31, (-t ^ 2) ^ j / (2 * j).factorial := by
    refine Finset.sum_congr rfl fun j _ => ?_
    norm_num; ring
  rw [hcn] at hc
  obtain ⟨tc, ts⟩ := cos_sin_taylor t 31 (by rw [abs_of_nonneg ht0]; norm_num; linarith)
  have hrest : |t| ^ (2 * 31) / (2 * 31).factorial * 2 ≤ 1 / 2 ^ trigBits := by
    rw [abs_of_nonneg ht0]
    have : t ^ (2 * 31) ≤ 1 := pow_le_one₀ ht0 (by linarith)
    refine (mul_le_mul_of_nonneg_right (div_le_div_of_nonneg_right this (by positivity)) two_pos.le).trans ?_
    norm_num [Nat.factorial, trigBits]
  replace tc := tc.trans hrest
  replace ts := ts.trans hrest
  rw [← hsn] at ts
  have hq : ((a * sinSeries x2 trigTerms 0 : Nat) : ℝ) / ((2 ^ trigBits : Nat) : ℝ) / 2 ^ trigBits =
      a / 2 ^ trigBits * (sinSeries x2 trigTerms 0 / 2 ^ trigBits) := by push_cast; field_simp
  have m1' := div_le_div_of_nonneg_right m1 hT.le
  have m2' := div_le_div_of_nonneg_right m2 hT.le
  rw [sub_div, hq] at m1'
  rw [hq] at m2'
  rw [hmul 2] at a1
  rw [hmul 5, hmul 2] at hc hs
  rw [hmul 16]
  generalize (cosSeries x2 trigTerms 0 : ℝ) / 2 ^ trigBits = C at *
  generalize (sinSeries x2 trigTerms 0 : ℝ) / 2 ^ trigBits = S at *
  generalize (a : ℝ) / 2 ^ trigBits = A at *
  generalize (q : ℝ) / 2 ^ trigBits = Q at *
  generalize (1 : ℝ) / 2 ^ trigBits = u at *
  generalize sinNest (t ^ 2) trigTerms 0 = N at *
  rw [abs_le] at hc hs tc ts ⊢
  constructor
  · constructor <;> linarith [hc.1, hc.2, tc.1, tc.2]
  · rw [abs_le]
    have k := abs_le.1 (mul_near (u := u) hA0 (by linarith) hn1.1 hn1.2 (abs_le.2 hs) a1 a2)
    constructor <;> linarith [ts.1, ts.2, k.1, k.2]

end Sys2Proof.Machine
end

