-- ==== Sys2Proof/Tests/Slice0.lean ====
section
/-! SUPPORT. The model's own tests. Expected values are those of spec/95_test_vectors.md, whose section each test names. After
them, for every statement that has hypotheses, a concrete state and operands that meet them (`witness_…`). -/

namespace Sys2Proof.Machine

-- The theorems below are checked one after another, which keeps the memory of the check small.
set_option Elab.async false

/-! ## Helpers -/

/-- Slot 0 configured, ARG0, the descriptors (base, length) from B0 on, and lists of elements stored in DMEM. -/
def bench (kind : Kind) (p : Prec) (n : Word) (arg0 : Word) (bufs : List Desc) (data : List (Nat × List (Fp p))) : State :=
  { State.reset with
    ctxs := [⟨true, kind, p, n⟩, .empty, .empty, .empty]
    locked :=
      { cmd := 0, arg0 := arg0, b0 := bufs.getD 0 ⟨0, 0⟩, b1 := bufs.getD 1 ⟨0, 0⟩, b2 := bufs.getD 2 ⟨0, 0⟩
        b3 := bufs.getD 3 ⟨0, 0⟩ }
    dmem := data.foldl (fun m x => m.storeElems x.1 x.2) [] }

/-- Issuing a command and completing it. -/
def complete (i : Instr) (s : State) : Option State :=
  match exec i s with
  | .next t =>
    match exec i t with
    | .next u => some u
    | _       => none
  | _ => none

/-- The elements at a DMEM offset after a command. -/
def elemsAfter (p : Prec) (i : Instr) (s : State) (base n : Nat) : Option (List (Fp p)) :=
  (complete i s).map fun t => t.dmem.loadElems p base n 0

/-- The STATUS value after a CMD write. -/
def statusAfter (w : Word) (s : State) : Option Word :=
  match writeCmd w s with
  | .next t => some t.statusWord
  | _       => none

/-- What one step's host transaction is answered, for a state whose only event it is. -/
def answerTo (op : BusOp) (s : State) : Option BusAnswer :=
  match step (s.setHost [.bus op]) with
  | .next t => t.answer
  | _       => none

/-! ## Well-formedness and encoding -/

theorem test_ctx_16_is_ill_formed : ¬ (Instr.fftDir 16 .f64).WellFormed := by decide
theorem test_ctx_15_is_well_formed : (Instr.fftDir 15 .f64).WellFormed := by decide
theorem test_assembler_rejects_ctx_16 : assemble (.gzDir 16 .f32) = none := by decide
theorem test_assembler_emits_the_word : assemble (.rfftDir 3 .f64) = some 0x00001309 := by decide
theorem test_written_form : (Instr.fftDir 0 .f64).asm = "FFT_DIR.F64 c0" ∧ (Instr.fftShift .f32).asm = "FFT_SHIFT.F32" := by decide

-- One word of each row, written out by R90: RSV1, PREC, CTX, RSV0, OP.
theorem test_decode_cfg_fft : decodeWord 0b00000000000000000000000100000001 = .ok (.cfgFft 1 .f32) := by rfl
theorem test_decode_cfg_rfft : decodeWord 0b00000000000000000001111100000010 = .ok (.cfgRfft 15 .f64) := by rfl
theorem test_decode_cfg_gz : decodeWord 0b00000000000000000000001000000011 = .ok (.cfgGz 2 .f32) := by rfl
theorem test_decode_cfg_dht : decodeWord 0b00000000000000000001001100000100 = .ok (.cfgDht 3 .f64) := by rfl
theorem test_decode_fft_dir : decodeWord 0b00000000000000000001000000000101 = .ok (.fftDir 0 .f64) := by rfl
theorem test_decode_fft_inv : decodeWord 0b00000000000000000000100000000110 = .ok (.fftInv 8 .f32) := by rfl
theorem test_decode_fft_invn : decodeWord 0b00000000000000000000001000000111 = .ok (.fftInvn 2 .f32) := by rfl
theorem test_decode_fft_shift : decodeWord 0b00000000000000000001000000001000 = .ok (.fftShift .f64) := by rfl
theorem test_decode_rfft_dir : decodeWord 0b00000000000000000001001100001001 = .ok (.rfftDir 3 .f64) := by rfl
theorem test_decode_rfft_dirc : decodeWord 0b00000000000000000000010000001010 = .ok (.rfftDirc 4 .f32) := by rfl
theorem test_decode_rfft_inv : decodeWord 0b00000000000000000001000100001011 = .ok (.rfftInv 1 .f64) := by rfl
theorem test_decode_rfft_invn : decodeWord 0b00000000000000000001000100001100 = .ok (.rfftInvn 1 .f64) := by rfl
theorem test_decode_gz_dir : decodeWord 0b00000000000000000000000100001101 = .ok (.gzDir 1 .f32) := by rfl
theorem test_decode_dht_dir : decodeWord 0b00000000000000000001001100001110 = .ok (.dhtDir 3 .f64) := by rfl
theorem test_decode_dht_invn : decodeWord 0b00000000000000000001000000001111 = .ok (.dhtInvn 0 .f64) := by rfl
theorem test_decode_bytes : decode [0x05, 0x11, 0x00, 0x00] = .ok (.fftDir 1 .f64, []) := by rfl

/-! ## Commands -/

-- 2.2: the slot a configuration command leaves, as CTXc_CFG reads.
theorem test_cfg_fft_sets_slot :
    (complete (.cfgFft 0 .f64) (bench .empty .f32 0 8 [] [])).map (fun t => (readReg t (.ctxCfg 0), readReg t (.ctxN 0))) =
      some (0x00000013, 8) := by decide
theorem test_cfg_fft_of_12_is_a_size_error : statusAfter 0x00000001 (bench .empty .f32 0 12 [] []) = some 0x00000306 := by decide
theorem test_cfg_rfft_sets_slot :
    (complete (.cfgRfft 0 .f64) (bench .empty .f32 0 16 [] [])).map (fun t => readReg t (.ctxCfg 0)) = some 0x00000015 := by decide
theorem test_cfg_rfft_of_1_is_a_size_error : statusAfter 0x00000002 (bench .empty .f32 0 1 [] []) = some 0x00000306 := by decide
theorem test_cfg_gz_replaces_a_slot :
    (complete (.cfgGz 0 .f64) (bench .fft .f64 8 6 [] [])).map (fun t => readReg t (.ctxCfg 0)) = some 0x00000017 := by decide
theorem test_cfg_gz_of_3_is_accepted : statusAfter 0x00000003 (bench .empty .f32 0 3 [] []) = some 0x00000001 := by decide
theorem test_cfg_dht_sets_slot :
    (complete (.cfgDht 1 .f64) (bench .empty .f32 0 6 [] [])).map (fun t => readReg t (.ctxCfg 1)) = some 0x00000019 := by decide
theorem test_cfg_dht_of_0_is_a_size_error : statusAfter 0x00000004 (bench .empty .f32 0 0 [] []) = some 0x00000306 := by decide

/-- B0 and B1 of four F32 elements each, the second after the first, and what they hold. -/
def fourF32 (kind : Kind) (re im : List (Fp .f32)) : State :=
  bench kind .f32 4 0 [⟨0, 4⟩, ⟨16, 4⟩, ⟨32, 4⟩, ⟨48, 4⟩] [(0, re), (16, im)]

-- 2.3: N = 4, {1, 2, 3, 4} gives ({10, -2, -2, -2}; {0, 2, 0, -2}).
theorem test_fft_dir_4 :
    (fun s => (elemsAfter .f32 (.fftDir 0 .f32) s 0 4, elemsAfter .f32 (.fftDir 0 .f32) s 16 4))
        (fourF32 .fft [0x3F800000, 0x40000000, 0x40400000, 0x40800000] [0, 0, 0, 0]) =
      (some [0x41200000, 0xC0000000, 0xC0000000, 0xC0000000], some [0, 0x40000000, 0, 0xC0000000]) := by decide +kernel
-- 2.3: F64, N = 2, ({0, +∞}; {0, 0}) gives ({+∞, -∞}; {NaN, NaN}).
theorem test_fft_dir_infinity :
    (fun s => (elemsAfter .f64 (.fftDir 0 .f64) s 0 2, elemsAfter .f64 (.fftDir 0 .f64) s 16 2))
        (bench .fft .f64 2 0 [⟨0, 2⟩, ⟨16, 2⟩] [(0, [0, 0x7FF0000000000000]), (16, [0, 0])]) =
      (some [0x7FF0000000000000, 0xFFF0000000000000], some [0x7FF8000000000000, 0x7FF8000000000000]) := by decide +kernel
-- 2.3: the inverse of that N = 4 output is {4, 8, 12, 16}.
theorem test_fft_inv_4 :
    elemsAfter .f32 (.fftInv 0 .f32)
        (fourF32 .fft [0x41200000, 0xC0000000, 0xC0000000, 0xC0000000] [0, 0x40000000, 0, 0xC0000000]) 0 4 =
      some [0x40800000, 0x41000000, 0x41400000, 0x41800000] := by decide +kernel
-- By R133, R138 and R182, worked by hand: N = 2, ({3, -1}; {0, 0}) gives ({2/2, 4/2}; {0, 0}).
theorem test_fft_invn_2 :
    (fun s => (elemsAfter .f64 (.fftInvn 0 .f64) s 0 2, elemsAfter .f64 (.fftInvn 0 .f64) s 16 2))
        (bench .fft .f64 2 0 [⟨0, 2⟩, ⟨16, 2⟩] [(0, [0x4008000000000000, 0xBFF0000000000000]), (16, [0, 0])]) =
      (some [0x3FF0000000000000, 0x4000000000000000], some [0, 0]) := by decide +kernel
-- 2.3: the payload of a signaling NaN is moved unchanged; an odd length is PARITY, before ALIGN.
theorem test_fft_shift_2 :
    elemsAfter .f64 (.fftShift .f64)
        (bench .empty .f64 0 0 [⟨8, 2⟩] [(8, [0x7FF0000000000001, 0x3FF0000000000000])]) 8 2 =
      some [0x3FF0000000000000, 0x7FF0000000000001] := by decide +kernel
theorem test_fft_shift_17_is_a_parity_error :
    statusAfter 0x00001008 (bench .empty .f64 0 0 [⟨4, 17⟩] []) = some 0x00000B06 := by decide
-- 2.4: RFFT_DIR of {1, 2, 3, 4} is re {10, -2, -2}, im {+0, 2, +0}.
theorem test_rfft_dir_4 :
    (fun s => (elemsAfter .f32 (.rfftDir 0 .f32) s 16 3, elemsAfter .f32 (.rfftDir 0 .f32) s 32 3))
        (bench .rfft .f32 4 0 [⟨0, 4⟩, ⟨16, 3⟩, ⟨32, 3⟩] [(0, [0x3F800000, 0x40000000, 0x40400000, 0x40800000])]) =
      (some [0x41200000, 0xC0000000, 0xC0000000], some [0, 0x40000000, 0]) := by decide +kernel
-- 2.4: RFFT_DIR with B1_LEN = 16 where N = 16 is LEN with ERRA = 1.
theorem test_rfft_dir_length_error :
    statusAfter 0x00001009 (bench .rfft .f64 16 0 [⟨0, 16⟩, ⟨0x100, 16⟩, ⟨0x200, 9⟩] []) = some 0x00010706 := by decide
-- 2.4: RFFT_DIRC of the same four values.
theorem test_rfft_dirc_4 :
    (fun s => (elemsAfter .f32 (.rfftDirc 0 .f32) s 32 4, elemsAfter .f32 (.rfftDirc 0 .f32) s 48 4))
        (fourF32 .rfft [0x3F800000, 0x40000000, 0x40400000, 0x40800000] [0, 0, 0, 0]) =
      (some [0x41200000, 0xC0000000, 0xC0000000, 0xC0000000], some [0, 0x40000000, 0, 0xC0000000]) := by decide +kernel
-- 2.4: im[0] ≠ 0 is used: {3, 9, 11, 17}.
theorem test_rfft_inv_uses_im_0 :
    elemsAfter .f32 (.rfftInv 0 .f32)
        (bench .rfft .f32 4 0 [⟨0, 3⟩, ⟨16, 3⟩, ⟨32, 4⟩]
          [(0, [0x41200000, 0xC0000000, 0xC0000000]), (16, [0x3F800000, 0x40000000, 0])]) 32 4 =
      some [0x40400000, 0x41100000, 0x41300000, 0x41880000] := by decide +kernel
-- 2.4: RFFT_INVN gives the samples back, divided by N and not by N/2.
theorem test_rfft_invn_4 :
    elemsAfter .f32 (.rfftInvn 0 .f32)
        (bench .rfft .f32 4 0 [⟨0, 3⟩, ⟨16, 3⟩, ⟨32, 4⟩]
          [(0, [0x41200000, 0xC0000000, 0xC0000000]), (16, [0, 0x40000000, 0])]) 32 4 =
      some [0x3F800000, 0x40000000, 0x40400000, 0x40800000] := by decide +kernel
-- 2.5: F64, N = 3, k = 1, {1, 2, 3} gives (-1.5, 0.8660254037844386); k = N is BIN.
theorem test_gz_dir_3 :
    (complete (.gzDir 0 .f64)
        (bench .gz .f64 3 1 [⟨0, 3⟩] [(0, [0x3FF0000000000000, 0x4000000000000000, 0x4008000000000000])])).map State.res =
      some ⟨0x00000000, 0xBFF80000, 0xE8584CAA, 0x3FEBB67A⟩ := by decide +kernel
theorem test_gz_dir_bin_error : statusAfter 0x0000000D (bench .gz .f32 8 8 [⟨0, 8⟩] []) = some 0x00000C06 := by decide
-- 2.6: DHT_DIR of {1, 2, 3, 4} is {10, -4, -2, +0}; DHT_DIR F32, N = 6 takes the direct path.
theorem test_dht_dir_4 :
    elemsAfter .f32 (.dhtDir 0 .f32) (fourF32 .dht [0x3F800000, 0x40000000, 0x40400000, 0x40800000] []) 0 4 =
      some [0x41200000, 0xC0800000, 0xC0000000, 0] := by decide +kernel
theorem test_dht_dir_6 :
    elemsAfter .f32 (.dhtDir 0 .f32)
        (bench .dht .f32 6 0 [⟨0, 6⟩] [(0, [0x3F800000, 0x40000000, 0x40400000, 0x40800000, 0x40A00000, 0x40C00000])]) 0 6 =
      some [0x41A80000, 0xC1032371, 0xC0976CF6, 0xC0400000, 0xBFA24C2A, 0x400C8DC4] := by decide +kernel
-- 2.6: DHT_INVN for N = 1 canonicalises a NaN; for N = 4 it gives {1, 2, 3, 4}.
theorem test_dht_invn_1 :
    elemsAfter .f64 (.dhtInvn 0 .f64) (bench .dht .f64 1 0 [⟨0, 1⟩] [(0, [0xFFF8000000000123])]) 0 1 =
      some [0x7FF8000000000000] := by decide +kernel
theorem test_dht_invn_4 :
    elemsAfter .f32 (.dhtInvn 0 .f32) (fourF32 .dht [0x41200000, 0xC0800000, 0xC0000000, 0] []) 0 4 =
      some [0x3F800000, 0x40000000, 0x40400000, 0x40800000] := by decide +kernel

/-! ## Errors, status and the bus (2.7) -/

/-- The start state of the rows of 2.7. -/
def start27 : State := bench .fft .f64 8 0 [⟨0, 8⟩, ⟨0x40, 8⟩] []

theorem test_status_while_busy : statusAfter 0x00001005 start27 = some 0x00000001 := by decide
theorem test_illegal : statusAfter 0x00000000 start27 = some 0x00000106 := by decide
theorem test_ctx_range : statusAfter 0x00000405 start27 = some 0x00000206 := by decide
theorem test_not_configured : statusAfter 0x00001005 State.reset = some 0x00000406 := by decide
theorem test_kind : statusAfter 0x00001005 (bench .gz .f64 8 0 [⟨0, 8⟩, ⟨0x40, 7⟩] []) = some 0x00000506 := by decide
theorem test_prec : statusAfter 0x00000005 start27 = some 0x00000606 := by decide
theorem test_length : statusAfter 0x00001005 (bench .fft .f64 8 0 [⟨0, 7⟩, ⟨0x40, 7⟩] []) = some 0x00000706 := by decide
theorem test_align : statusAfter 0x00001005 (bench .fft .f64 8 0 [⟨0, 8⟩, ⟨0x44, 8⟩] []) = some 0x00010806 := by decide
theorem test_range : statusAfter 0x00001005 (bench .fft .f64 8 0 [⟨0x3FFE0, 8⟩, ⟨0x40, 8⟩] []) = some 0x00000906 := by decide
theorem test_range_end : statusAfter 0x00001005 (bench .fft .f64 8 0 [⟨0x3FFC0, 8⟩, ⟨0x40, 8⟩] []) = some 0x00000001 := by decide
theorem test_overlap : statusAfter 0x00001005 (bench .fft .f64 8 0 [⟨0, 8⟩, ⟨0x38, 8⟩] []) = some 0x00100A06 := by decide
theorem test_caps : readReg State.reset .caps = 0x0003040C := by decide
theorem test_reserved_register_reads_0 : answerTo (.read 0x050 4) start27 = some (.value 0) := by decide
theorem test_narrow_register_read : answerTo (.read 0x014 2) start27 = some .busError := by decide
theorem test_reserved_region : answerTo (.read 0x1000 4) start27 = some .busError := by decide
theorem test_misaligned_dmem : answerTo (.write 0x1000004 8 1) start27 = some .busError := by decide
theorem test_last_dmem_word : answerTo (.write 0x103FFF8 8 1) start27 = some .written := by decide
theorem test_past_dmem : answerTo (.read 0x1040000 1) start27 = some .busError := by decide
theorem test_little_endian :
    (fun s => (answerTo (.read 0x1000000 4) s, answerTo (.read 0x1000004 4) s))
        (bench .empty .f64 0 0 [] [(0, [0x3FF0000000000000])]) = (some (.value 0), some (.value 0x3FF00000)) := by decide
theorem test_reset_step : step State.reset = .next State.reset := by rfl

/-! ## Datapath units (2.1) -/

theorem test_trig_1_8 : trig .f64 1 8 = ⟨0x3FE6A09E667F3BCD, 0x3FE6A09E667F3BCD⟩ := by decide +kernel
theorem test_trig_2_3 : trig .f64 2 3 = ⟨0xBFE0000000000000, 0xBFEBB67AE8584CAA⟩ := by decide +kernel
theorem test_rom_stride : romEntry .default .f32 512 = ⟨0x3F3504F3, 0x3F3504F3⟩ := by decide +kernel
theorem test_cas_2_6 : cas .f64 2 6 = 0x3FD76CF5D0B09955 := by decide +kernel
theorem test_cas_3_8 : cas .f64 3 8 = 0 := by decide +kernel
theorem test_bitrev_3 : (List.range 8).map (bitrev 3) = [0, 4, 2, 6, 1, 5, 3, 7] := by decide
theorem test_cmul :
    cmul (p := .f64) ⟨0x3FF0000000000000, 0x4000000000000000⟩ ⟨0x4008000000000000, 0x4010000000000000⟩ =
      ⟨0xC014000000000000, 0x4024000000000000⟩ := by decide +kernel

/-! ## Witnesses

For every statement with hypotheses, states and operands that meet all of them together; for a statement of several clauses, one for
each clause, at a boundary of its range where it has one. -/

/-- The state with word `w` in CMD and the engine running it, `n` host steps before its completion. -/
def running (w : Word) (n : Nat) (host : List HostEvent) (s : State) : State :=
  { s with
    locked := { s.locked with cmd := w }
    engine := .busy { s.locked with cmd := w } n
    host   := host }

/-- The four F32 buffers of `fourF32`, FFT_DIR.F32 c0 running on the first two. -/
def busyFft (n : Nat) (host : List HostEvent) : State := running 0x00000005 n host (fourF32 .fft [] [])

theorem witness_DecodeOfEncodeIsTheCommand : (Instr.dhtInvn 15 .f64).WellFormed := by decide
theorem witness_EncodeOfDecodeIsTheWord : decodeWord 0x00001F0F = .ok (.dhtInvn 15 .f64) := by rfl
theorem witness_ExactlyTheLegalWordsAreCommands :
    (∀ i, decodeWord 0x00000000 ≠ .ok i) ∧ (∀ i, decodeWord 0x00000108 ≠ .ok i) ∧
      ∃ s : State, s.engine = .idle ∧ (0x108 : BitVec 64).setWidth 32 = (0x00000108 : Word) ∧
        s.host = [.bus (.write 0x018 4 0x108)] :=
  ⟨fun _ h => (nomatch h), fun _ h => (nomatch h), start27.setHost _, rfl, rfl, rfl⟩
theorem witness_WorkedEncodingsAndExpansions :
    (Instr.gzDir 15 .f32).WellFormed ∧ 15 < (Instr.gzDir 16 .f32).ctx ∧ 1 < ([7, 8] : List (Fp .f64)).length := by decide
theorem witness_ResetAbandonsTheRunningCommand :
    (∃ s : State, s.engine ≠ .idle ∧ HostTurn s ∧ s.host = [.reset]) ∧
      ∃ s : State, s.engine = .idle ∧ HostTurn s ∧ s.host = [.reset] :=
  ⟨⟨busyFft 1 [.reset], nofun, Nat.one_ne_zero, rfl⟩, ⟨start27.setHost [.reset], rfl, trivial, rfl⟩⟩
theorem witness_ResetStateMeetsTheInvariant :
    Params.default.Legal ∧ (⟨1, 1, 64⟩ : Params).Legal ∧ (⟨20, 16, 16777216⟩ : Params).Legal := by decide

/-- A BUSY state meets the invariant. -/
theorem busyFft_inv (n : Nat) (host : List HostEvent) : (busyFft n host).Inv where
  params  := show Params.default.Legal by decide
  nslots  := rfl
  slots   := by
    intro x hx
    simp only [busyFft, running, fourF32, bench, List.mem_cons, List.not_mem_nil, or_false] at hx
    rcases hx with rfl | rfl | rfl | rfl
    · exact ⟨by decide, show 4 ≤ 2 ^ 12 by decide, by decide⟩
    all_goals exact rfl
  memWf   := List.Pairwise.nil
  memSize := by intro x hx; exact absurd hx List.not_mem_nil
  engine  := ⟨rfl, (checkOf_congr (.fftDir 0 .f32) _ (s := fourF32 .fft [] []) rfl rfl).trans (by decide), rfl, rfl, rfl⟩
  status  := nofun

theorem witness_EveryStepKeepsTheInvariant :
    (∃ (n : Nat) (host : List HostEvent) (t : State), (busyFft n host).Inv ∧ step (busyFft n host) = .next t ∧ t.engine = .idle) ∧
      ∃ (n : Nat) (host : List HostEvent) (t : State), (busyFft n host).Inv ∧ step (busyFft n host) = .next t ∧ t.engine ≠ .idle :=
  ⟨⟨0, [], _, busyFft_inv _ _, rfl, rfl⟩, ⟨1, [.bus (.read 0x014 4)], _, busyFft_inv _ _, rfl, nofun⟩⟩
theorem witness_GoodStatesAlwaysStep : (busyFft 1 [.wait]).Inv := busyFft_inv _ _
theorem witness_StepRunsTheDecodedCommand :
    (∃ s : State, s.engine = .idle ∧ s.host = [.bus (.write 0x018 4 0x00001F0F)] ∧
        decodeWord ((0x00001F0F : BitVec 64).setWidth 32) = .ok (.dhtInvn 15 .f64)) ∧
      (∃ (s : State) (r : LockedRegs), s.engine = .busy r 0 ∧ engineIsNext s 0 = true ∧ decodeWord r.cmd = .ok (.fftDir 0 .f32)) ∧
      decodeTableWord 32 0x0000100F = some (.dhtInvn 0 .f64) :=
  ⟨⟨start27.setHost _, rfl, rfl, rfl⟩, ⟨busyFft 0 [.reset], _, rfl, rfl, rfl⟩, rfl⟩
theorem witness_EveryAcceptedCommandCompletes :
    ∃ (s : State) (r : LockedRegs), s.Inv ∧ s.engine = .busy r 3 ∧ s.host = [.wait, .wait, .wait, .wait] :=
  ⟨busyFft 3 [.wait, .wait, .wait, .wait], _, busyFft_inv _ _, rfl, rfl⟩
theorem witness_FirstFailingCheckIsReported :
    ∃ s : State, s.engine = .idle ∧ (∀ i, decodeWord 0x00000010 ≠ .ok i) ∧
      (∀ i, decodeWord ((0x100000010 : BitVec 64).setWidth 32) ≠ .ok i) ∧ s.host = [.bus (.write 0x018 4 0x100000010)] :=
  ⟨start27.setHost _, rfl, fun _ h => (nomatch h), fun _ h => (nomatch h), rfl⟩
theorem witness_TransformsNeverFailWithSize :
    ∃ (i : Instr) (s t : State), s.engine = .idle ∧ isConfig i = false ∧ exec i s = .next t ∧ t.status.err = true :=
  ⟨.fftDir 0 .f64, State.reset, _, rfl, rfl, rfl, rfl⟩

/-! ### The commands -/

theorem witness_ConfigurationCommandsSetTheirSlot :
    (∃ s : State, s.engine = .idle ∧ 3 < s.params.nctx ∧ s.locked.arg0.toNat = 1 ∧ 1 ≤ 2 ^ s.params.log2Nmax ∧
        s.locked.arg0.toNat = 2 ^ 0) ∧
      (∃ s : State, s.engine = .idle ∧ 0 < s.params.nctx ∧ s.locked.arg0.toNat = 2 ^ s.params.log2Nmax ∧
        s.locked.arg0.toNat = 2 ^ (11 + 1)) :=
  ⟨⟨bench .empty .f32 0 1 [] [], by decide⟩, ⟨bench .empty .f32 0 4096 [] [], by decide⟩⟩
theorem witness_ComplexFftCommandsTransformInPlace :
    ∃ s : State, s.engine = .idle ∧ ContextIs s 0 .fft .f64 8 ∧ BufferIs s .f64 0 8 ∧ BufferIs s .f64 1 8 ∧ Apart s .f64 0 1 :=
  ⟨bench .fft .f64 8 0 [⟨0x3FFC0, 8⟩, ⟨0x3FF80, 8⟩] [], by decide⟩
theorem witness_FftShiftSwapsTheHalves :
    (∃ s : State, s.engine = .idle ∧ BufferIs s .f32 0 (2 * 0)) ∧ ∃ s : State, s.engine = .idle ∧ BufferIs s .f64 0 (2 * 1) :=
  ⟨⟨bench .empty .f32 0 0 [⟨0x40000, 0⟩] [], by decide⟩, ⟨bench .empty .f32 0 0 [⟨0x3FFF0, 2⟩] [], by decide⟩⟩
theorem witness_RfftDirWritesTheOneSidedSpectrum :
    ∃ s : State, s.engine = .idle ∧ ContextIs s 0 .rfft .f32 2 ∧ BufferIs s .f32 0 2 ∧ BufferIs s .f32 1 (2 / 2 + 1) ∧
      BufferIs s .f32 2 (2 / 2 + 1) ∧ Apart s .f32 0 1 ∧ Apart s .f32 0 2 ∧ Apart s .f32 1 2 :=
  ⟨bench .rfft .f32 2 0 [⟨0, 2⟩, ⟨8, 2⟩, ⟨16, 2⟩] [], by decide⟩
theorem witness_RfftDircCombinesTheHalfTransforms :
    ∃ s : State, s.engine = .idle ∧ ContextIs s 0 .rfft .f32 4 ∧ BufferIs s .f32 0 4 ∧ BufferIs s .f32 1 4 ∧
      BufferIs s .f32 2 4 ∧ BufferIs s .f32 3 4 ∧ Apart s .f32 0 1 ∧ Apart s .f32 0 2 ∧ Apart s .f32 0 3 ∧ Apart s .f32 1 2 ∧
      Apart s .f32 1 3 ∧ Apart s .f32 2 3 :=
  ⟨fourF32 .rfft [] [], by decide⟩
theorem witness_RealInverseCommandsWriteTheSignal :
    ∃ s : State, s.engine = .idle ∧ ContextIs s 0 .rfft .f64 2 ∧ BufferIs s .f64 0 (2 / 2 + 1) ∧
      BufferIs s .f64 1 (2 / 2 + 1) ∧ BufferIs s .f64 2 2 ∧ Apart s .f64 0 1 ∧ Apart s .f64 0 2 ∧ Apart s .f64 1 2 :=
  ⟨bench .rfft .f64 2 0 [⟨0, 2⟩, ⟨16, 2⟩, ⟨32, 2⟩] [], by decide⟩
theorem witness_GzDirWritesTheResultRegisters :
    (∃ s : State, s.engine = .idle ∧ s.locked.arg0.toNat < 1 ∧ ContextIs s 0 .gz .f32 1 ∧ BufferIs s .f32 0 1) ∧
      ∃ s : State, s.engine = .idle ∧ s.locked.arg0.toNat < 3 ∧ ContextIs s 0 .gz .f64 3 ∧ BufferIs s .f64 0 3 :=
  ⟨⟨bench .gz .f32 1 0 [⟨0, 1⟩] [], by decide⟩, ⟨bench .gz .f64 3 2 [⟨0, 3⟩] [], by decide⟩⟩
theorem witness_HartleyCommandsTransformInPlace :
    (∃ s : State, s.engine = .idle ∧ ContextIs s 0 .dht .f64 1 ∧ BufferIs s .f64 0 1 ∧ 1 = 2 ^ 0) ∧
      ∃ s : State, s.engine = .idle ∧ ContextIs s 0 .dht .f32 3 ∧ BufferIs s .f32 0 3 ∧ ¬ ∃ b, 3 = 2 ^ b :=
  ⟨⟨bench .dht .f64 1 0 [⟨0, 1⟩] [], by decide⟩,
    ⟨bench .dht .f32 3 0 [⟨0, 3⟩] [], by decide, by decide, by decide, fun h => absurd ((isPow2_iff 3).2 h) (by decide)⟩⟩

/-! ### Frames and whole-machine rules -/

/-- One running command of each shape, an address just outside what it writes, and its completion. -/
theorem witness_CompletionWritesOnlyItsOutputBuffers :
    (∃ (s t : State) (r : LockedRegs), s.engine = .busy r 0 ∧ exec (.cfgFft 0 .f64) s = .next t) ∧
      (∃ (s t : State) (r : LockedRegs), s.engine = .busy r 0 ∧ exec (.gzDir 0 .f32) s = .next t ∧ inSpan r .f32 0 4 0) ∧
      (∃ (s t : State) (r : LockedRegs), s.engine = .busy r 0 ∧ exec (.fftDir 0 .f32) s = .next t ∧ ¬ inSpan r .f32 0 4 32 ∧ ¬ inSpan r .f32 1 4 32) ∧
      (∃ (s t : State) (r : LockedRegs), s.engine = .busy r 0 ∧ exec (.fftShift .f32) s = .next t ∧ ¬ inSpan r .f32 0 r.b0.len.toNat 16) ∧
      (∃ (s t : State) (r : LockedRegs), s.engine = .busy r 0 ∧ exec (.rfftDir 0 .f32) s = .next t ∧ ¬ inSpan r .f32 1 3 28 ∧ ¬ inSpan r .f32 2 3 28) ∧
      (∃ (s t : State) (r : LockedRegs), s.engine = .busy r 0 ∧ exec (.rfftDirc 0 .f32) s = .next t ∧ ¬ inSpan r .f32 2 4 31 ∧ ¬ inSpan r .f32 3 4 31) ∧
      (∃ (s t : State) (r : LockedRegs), s.engine = .busy r 0 ∧ exec (.rfftInv 0 .f32) s = .next t ∧ ¬ inSpan r .f32 2 4 48) ∧
      ∃ (s t : State) (r : LockedRegs), s.engine = .busy r 0 ∧ exec (.dhtDir 0 .f32) s = .next t ∧ ¬ inSpan r .f32 0 4 16 :=
  ⟨⟨running 0x00001001 0 [] (bench .empty .f32 0 8 [] []), _, _, rfl, rfl⟩,
    ⟨running 0x0000000D 0 [] (bench .gz .f32 4 1 [⟨0, 4⟩] []), _, _, rfl, rfl, by decide⟩,
    ⟨busyFft 0 [], _, _, rfl, rfl, by decide, by decide⟩,
    ⟨running 0x00000008 0 [] (fourF32 .empty [] []), _, _, rfl, rfl, by decide⟩,
    ⟨running 0x00000009 0 [] (bench .rfft .f32 4 0 [⟨0, 4⟩, ⟨16, 3⟩, ⟨32, 3⟩] []), _, _, rfl, rfl, by decide, by decide⟩,
    ⟨running 0x0000000A 0 [] (fourF32 .rfft [] []), _, _, rfl, rfl, by decide, by decide⟩,
    ⟨running 0x0000000B 0 [] (bench .rfft .f32 4 0 [⟨0, 3⟩, ⟨16, 3⟩, ⟨32, 4⟩] []), _, _, rfl, rfl, by decide⟩,
    ⟨running 0x0000000E 0 [] (fourF32 .dht [] []), _, _, rfl, rfl, by decide⟩⟩
theorem witness_CommandsLeaveEveryOtherRegister :
    (∃ s t : State, s.engine = .idle ∧ exec (.gzDir 0 .f64) s = .next t) ∧ ∃ s t : State, s.engine ≠ .idle ∧ exec (.fftDir 0 .f32) s = .next t :=
  ⟨⟨start27, _, rfl, rfl⟩, ⟨busyFft 0 [], _, nofun, rfl⟩⟩
theorem witness_SlotsChangeOnlyByConfigurationOrReset :
    (∃ t : State, step (running 0x00001001 0 [] (bench .fft .f32 0 8 [] [])) = .next t ∧ t.slot 0 ≠ ⟨true, .fft, .f32, 0⟩) ∧
      ∃ t : State, step (start27.setHost [.reset]) = .next t ∧ t.ctxs ≠ start27.ctxs :=
  ⟨⟨_, rfl, by decide⟩, ⟨_, rfl, by decide⟩⟩
theorem witness_ResultsChangeOnlyByGoertzelOrReset :
    (∃ t : State, step (running 0x0000000D 0 [] (bench .gz .f32 1 0 [⟨0, 1⟩] [(0, [0x3F800000])])) = .next t ∧ t.res ≠ ⟨0, 0, 0, 0⟩) ∧
      ∃ t : State, step { State.reset with res := ⟨1, 0, 0, 0⟩, host := [.reset] } = .next t ∧ t.res ≠ ⟨1, 0, 0, 0⟩ :=
  ⟨⟨_, rfl, by decide +kernel⟩, ⟨_, rfl, by decide⟩⟩
theorem witness_DmemChangesOnlyByItsWriters :
    (∃ t : State, step (State.reset.setHost [.bus (.write 0x103FFFF 1 5)]) = .next t ∧ t.byte? 0x3FFFF ≠ State.reset.byte? 0x3FFFF) ∧
      (∃ t : State, step (running 0x00000008 0 [] (bench .empty .f32 0 0 [⟨0, 2⟩] [(0, [1, 2])])) = .next t ∧ t.byte? 0 = some 2) ∧
      ∃ t : State, step ((bench .empty .f32 0 0 [] [(0, [1])]).setHost [.reset]) = .next t ∧ t.byte? 0 = none :=
  ⟨⟨_, rfl, by decide⟩, ⟨_, rfl, by decide +kernel⟩, ⟨_, rfl, by decide⟩⟩
theorem witness_FlagsAreClearedOnlyAsTheSpecSays :
    let s : State := { State.reset with status := ⟨true, true, true, .len, 1, 0⟩ }
    (∃ t : State, step (s.setHost [.bus (.write 0x014 4 0xE)]) = .next t ∧
        t.status.done = false ∧ t.status.err = false ∧ t.status.ovr = false) ∧
      (∃ u : State, step ({ start27 with status := s.status, host := [.bus (.write 0x018 4 0x1005)] }) = .next u ∧
        u.status.done = false ∧ u.status.err = false ∧ u.status.ovr = true) ∧
      ∃ t : State, step (s.setHost [.reset]) = .next t ∧ t.status = .reset :=
  ⟨⟨_, rfl, rfl, rfl, rfl⟩, ⟨_, rfl, rfl, rfl, rfl⟩, ⟨_, rfl, rfl⟩⟩
theorem witness_LockedWritesWhileBusySetOverrun :
    (∃ (s : State) (r : LockedRegs), s.engine = .busy r (0 + 1) ∧ lockedOffset 0x018 ∧ s.host = [.bus (.write 0x018 4 7)]) ∧
      ∃ (s : State) (r : LockedRegs), s.engine = .busy r (0 + 1) ∧ lockedOffset 0x03C ∧ s.host = [.bus (.write 0x03C 4 7)] :=
  ⟨⟨busyFft 1 _, _, rfl, by decide, rfl⟩, ⟨busyFft 1 _, _, rfl, by decide, rfl⟩⟩
theorem witness_OverrunIsSetOnlyByLockedWrites :
    ∃ t : State, step (busyFft 1 [.bus (.write 0x01C 4 9)]) = .next t ∧ (busyFft 1 [.bus (.write 0x01C 4 9)]).status.ovr = false ∧
      t.status.ovr = true :=
  ⟨_, rfl, rfl, rfl⟩
theorem witness_HostCannotDisturbARunningCommand :
    ∃ (s t : State) (r : LockedRegs), s.engine = .busy r 1 ∧ engineIsNext s 1 = false ∧ (∀ rest, s.host ≠ .reset :: rest) ∧ step s = .next t :=
  ⟨busyFft 1 [.bus (.write 0x018 4 0)], _, _, rfl, rfl, nofun, rfl⟩

/-! ### STATUS, the interrupt and the bus -/

theorem witness_StatusWriteClearsOnlyWrittenOnes :
    (∃ s : State, s.engine = .idle ∧ HostTurn s ∧ s.host = [.bus (.write 0x014 4 0xE)]) ∧
      ∃ s : State, s.engine ≠ .idle ∧ HostTurn s ∧ s.host = [.bus (.write 0x014 4 0xE)] :=
  ⟨⟨start27.setHost _, rfl, trivial, rfl⟩, ⟨busyFft 1 _, nofun, Nat.one_ne_zero, rfl⟩⟩
theorem witness_EndOfCommandDrivesTheInterruptLine :
    (∃ t : State, exec (.fftDir 0 .f64) State.reset = .next t ∧ t.engine = .idle) ∧
      ∃ t : State, exec (.fftDir 0 .f32) (busyFft 0 []) = .next t ∧ t.engine = .idle :=
  ⟨⟨_, rfl, rfl⟩, ⟨_, rfl, rfl⟩⟩

/-- A state of the largest legal parameters. -/
def largest (host : List HostEvent) : State := (State.resetWith ⟨20, 16, 16777216⟩).setHost host

theorem witness_RegisterReadsAnswerTheRegister :
    (∃ s : State, s.params.Legal ∧ HostTurn s ∧ (Reg.ctxN 15).inFile s.params ∧
        s.host = [.bus (.read (specOffset (.ctxN 15)) 4)]) ∧
      (∃ s : State, HostTurn s ∧ s.engine ≠ .idle ∧ s.host = [.wait] ∧ (readReg s .status).getLsbD 1 = false) ∧
      ∃ s : State, HostTurn s ∧ s.host = [.wait] ∧ (readReg s .status).getLsbD 1 = true :=
  ⟨⟨largest _, by decide, trivial, by decide, rfl⟩, ⟨busyFft 1 _, Nat.one_ne_zero, nofun, rfl, by decide⟩,
    ⟨{ start27 with status := { Status.reset with done := true }, host := [.wait] }, trivial, rfl, by decide⟩⟩
theorem witness_RegistersReadAsTheirFields :
    (largest []).params.Legal ∧ State.reset.params.Legal ∧ start27.ctxs[0]? = some ⟨true, .fft, .f64, 8⟩ ∧
      (largest []).ctxs[15]? = some .empty := by decide
theorem witness_RegisterWritesStoreTheValue :
    (∃ s : State, HostTurn s ∧ s.engine ≠ .idle ∧ s.host = [.bus (.write 0x010 4 1)]) ∧
      ∀ off ∈ [0x01C, 0x020, 0x024, 0x028, 0x02C, 0x030, 0x034, 0x038, 0x03C],
        ∃ s : State, s.engine = .idle ∧ s.host = [.bus (.write off 4 0xFFFFFFFF)] :=
  ⟨⟨busyFft 1 _, Nat.one_ne_zero, nofun, rfl⟩, fun _ _ => ⟨start27.setHost _, rfl, rfl⟩⟩
theorem witness_ReservedOffsetsReadZeroAndIgnoreWrites :
    ∀ off ∈ [0x050, 0x07C, 0x080 + 8 * 4, 0xFFC],
      ∃ s : State, HostTurn s ∧ off % 4 = 0 ∧
        (0x050 ≤ off ∧ off < 0x080 ∨ 0x080 + 8 * s.params.nctx ≤ off ∧ off < 0x1000) ∧ s.host = [.bus (.read off 4)] := by
  intro off h
  refine ⟨start27.setHost [.bus (.read off 4)], trivial, ?_, ?_, rfl⟩ <;>
    simp only [List.mem_cons, List.not_mem_nil, or_false] at h <;>
    rcases h with rfl | rfl | rfl | rfl <;> decide
theorem witness_ReadOnlyRegistersIgnoreWrites :
    ∃ s : State, s.params.Legal ∧ HostTurn s ∧ (Reg.ctxCfg 15).inFile s.params ∧
      s.host = [.bus (.write (specOffset (.ctxCfg 15)) 4 1)] :=
  ⟨largest _, by decide, trivial, by decide, rfl⟩

/-- What the two hypotheses of the statement about bad accesses say of an offset and a width. -/
abbrev badAccess (q : Params) (off width : Nat) : Prop :=
  off < 0x1000 ∧ (width ≠ 4 ∨ off % 4 ≠ 0) ∨ 0x1000 ≤ off ∧ off < 0x1000000 ∨ 0x1000000 + q.dmemBytes ≤ off
abbrev badDmemAccess (q : Params) (off width : Nat) : Prop :=
  0x1000000 ≤ off ∧ off < 0x1000000 + q.dmemBytes ∧
    (¬ (width = 1 ∨ width = 2 ∨ width = 4 ∨ width = 8) ∨ (off - 0x1000000) % width ≠ 0 ∨ q.dmemBytes < off - 0x1000000 + width)

theorem witness_BadAccessesAnswerABusError :
    badAccess .default 0x014 2 ∧ badAccess .default 0x016 4 ∧ badAccess .default 0x1000 4 ∧ badAccess .default 0xFFFFFC 4 ∧
      badAccess .default 0x1040000 1 ∧ badDmemAccess .default 0x1000000 3 ∧ badDmemAccess .default 0x1000004 8 ∧
      badDmemAccess .default 0x103FFFF 2 ∧
      (∃ s : State, s.params = .default ∧ HostTurn s ∧ s.engine ≠ .idle ∧ s.host = [.bus (.read 0x014 2)]) ∧
      ∃ s : State, s.params = .default ∧ s.engine = .idle ∧ s.host = [.bus (.write 0x1000004 8 1)] := by
  refine ⟨?_, ?_, ?_, ?_, ?_, ?_, ?_, ?_, ⟨busyFft 1 _, rfl, Nat.one_ne_zero, nofun, rfl⟩, ⟨start27.setHost _, rfl, rfl, rfl⟩⟩ <;>
    decide
/-- The last byte of the last element, in each precision, and the bytes just outside the two lists. -/
theorem witness_ElementsAreLittleEndian :
    ([1, 2] : List (Fp .f32))[1]? = some 2 ∧ 3 < specElemBytes .f32 ∧ ([1, 2] : List (Fp .f64))[1]? = some 2 ∧
      7 < specElemBytes .f64 ∧ 0xF < 0x10 ∧ 0x10 + specElemBytes .f64 * ([1, 2] : List (Fp .f64)).length ≤ 0x20 ∧
      (Memory.loadElems [(0, 1), (1, 0), (2, 0), (3, 0)] .f32 0 1 0)[0]? = some 1 := by decide
theorem witness_DmemAccessesAreHeldUntilCompletion :
    ∀ op ∈ [BusOp.read 0x103FFF8 8, BusOp.write 0x103FFF8 8 7],
      ∃ (s t : State) (r : LockedRegs), s.Inv ∧ s.engine = .busy r 1 ∧ s.host = [.bus op] ∧ 0x1000000 ≤ 0x103FFF8 ∧
        0x103FFF8 - 0x1000000 + 8 ≤ s.params.dmemBytes ∧ (0x103FFF8 - 0x1000000) % 8 = 0 ∧ step s = .next t := by
  intro op h
  simp only [List.mem_cons, List.not_mem_nil, or_false] at h
  rcases h with rfl | rfl <;> exact ⟨busyFft 1 _, _, _, busyFft_inv _ _, rfl, rfl, by decide, by decide, by decide, rfl⟩
theorem witness_HostDmemAccessesMoveLittleEndianBytes :
    ∀ op ∈ [BusOp.read (0x1000000 + 0x3FFF8) 8, BusOp.write (0x1000000 + 0x3FFF8) 8 7],
      ∃ s : State, s.engine = .idle ∧ 0x3FFF8 % 8 = 0 ∧ 0x3FFF8 + 8 ≤ s.params.dmemBytes ∧ s.host = [.bus op] :=
  fun _ _ => ⟨start27.setHost _, rfl, by decide, show 0x3FFF8 + 8 ≤ 0x40000 by decide, rfl⟩
theorem witness_UnwrittenByteReadsAsItsOwnDraw :
    ∃ s : State, s.engine = .idle ∧ 0x3FFFF < s.params.dmemBytes ∧ s.byte? 0x3FFFF = none ∧
      s.host = [.bus (.read (0x1000000 + 0x3FFFF) 1)] :=
  ⟨start27.setHost _, rfl, by decide, by decide, rfl⟩

/-! ### Numbers, units and coefficients -/

/-- A pattern for each clause, the extreme ones of its range: the infinities, the first and last NaN fractions, the smallest and
largest subnormals, the smallest and largest normals. -/
theorem witness_PatternsStandForTheirValues :
    classify (p := .f32) 0xFF800000 = .inf true ∧ classify (p := .f32) 0x7F800001 = .nan ∧
      classify (p := .f32) 0x007FFFFF = .fin false 0x7FFFFF ∧ classify (p := .f32) 0x00800000 = .fin false (2 ^ 23) ∧
      classify (p := .f32) 0x7F7FFFFF = .fin false ((2 ^ 24 - 1) * 2 ^ 253) ∧
      classify (p := .f64) 0x7FF0000000000000 = .inf false ∧ classify (p := .f64) 0xFFFFFFFFFFFFFFFF = .nan ∧
      classify (p := .f64) 0x8000000000000001 = .fin true 1 ∧
      classify (p := .f64) 0x0010000000000000 = .fin false (2 ^ 52) := by decide +kernel
theorem witness_ArithmeticRoundsTheExactResultOnce :
    classify (p := .f32) 0x00000001 = .fin false 1 ∧ classify (p := .f32) 0xBF800000 = .fin true (2 ^ 149) ∧
      signedMag false 1 + signedMag true (2 ^ 149) ≠ 0 ∧ signedMag false 1 - signedMag true (2 ^ 149) ≠ 0 := by decide +kernel
theorem witness_ArithmeticNaNsAreCanonical :
    classify (fadd (p := .f32) 0x7F800000 0xFF800000) = .nan ∧ classify (fsub (p := .f32) 0x7F800000 0x7F800000) = .nan ∧
      classify (fmul (p := .f32) 0x7F800000 0) = .nan ∧ classify (fdiv (p := .f32) 0 0) = .nan ∧
      classify (p := .f64) 0x7FF0000000000001 = .nan ∧
      ([0x7FC00001, 0] : List (Fp .f32)).length = 2 ∧ ([⟨0x7FC00001, 0⟩, ⟨0, 1⟩] : List (Cpx .f32)).length = 2 ∧
      2 = 2 ^ 1 := by decide +kernel
theorem witness_SpecialOperandsFollowIeee754 :
    classify (p := .f32) 0x80000000 = .fin true 0 ∧ classify (p := .f32) 0x7F7FFFFF = .fin false ((2 ^ 24 - 1) * 2 ^ 253) ∧
      (2 ^ 24 - 1) * 2 ^ 253 ≠ 0 ∧ classify (p := .f32) 0x00000000 = .fin false 0 := by decide +kernel
theorem witness_ScalingByAPowerOfTwoMultipliesByTheInverse : 20 ≤ 20 ∧ 2 ^ 20 ≤ 2 ^ 20 := by decide
theorem witness_BitReversalIsItsOwnInverse :
    0 < 2 ^ 0 ∧ 7 < 2 ^ 3 ∧ bitrev 3 7 = bitrev 3 7 ∧ ([1] : List (Fp .f32)).length = 2 ^ 0 ∧
      ([⟨1, 2⟩, ⟨3, 4⟩] : List (Cpx .f64)).length = 2 ^ 1 := by decide
theorem witness_UnzipInvertsPack :
    ([1, 2] : List (Fp .f32)).length = 2 * 1 ∧ ([⟨1, 2⟩] : List (Cpx .f32)).length = 1 := by decide
theorem witness_CascadeIsTheInPlaceLoop : ([⟨1, 2⟩, ⟨3, 4⟩] : List (Cpx .f32)).length = 2 ^ 1 := by decide
/-- For UNPACK and REPACK the smallest size, and the smallest with a bin between the first and the last. -/
theorem witness_RealUnitsAreTheirLoops :
    ([1, 2, 3, 4] : List (Fp .f64)).length = 2 ^ 2 ∧ ([1, 2, 3] : List (Fp .f32)).length = 3 ∧ 2 < 3 ∧
      ([⟨1, 2⟩] : List (Cpx .f32)).length = 1 ∧ ([⟨1, 2⟩, ⟨3, 4⟩] : List (Cpx .f32)).length = 2 ∧ 1 ≤ 1 ∧ 1 < 2 ∧
      ([⟨1, 2⟩, ⟨3, 4⟩, ⟨5, 6⟩] : List (Cpx .f32)).length = 2 + 1 := by decide
theorem witness_SplitTransformIsTheCascade : ([⟨1, 2⟩, ⟨3, 4⟩] : List (Cpx .f32)).length = 2 ^ (0 + 1) := by decide
/-- A fraction for each clause, on a circle of 8 points; the last says that the sine is not 0 there. -/
theorem witness_CoefficientsHaveTheListedSymmetries :
    4 * (8 % 8) = 0 ∧ 4 * (2 % 8) = 8 ∧ 4 * (4 % 8) = 2 * 8 ∧ 4 * (6 % 8) = 3 * 8 ∧ 8 * (3 % 8) = 3 * 8 ∧
      8 * (7 % 8) = 7 * 8 ∧ 8 % 4 = 0 ∧ 2 ≤ 8 / 4 ∧ 0 < 7 ∧ 7 < 8 ∧ (trig .f32 7 8).im ≠ 0 := by decide +kernel
theorem witness_TwiddleComponentsAreAtMostOneAndNormal :
    1 ≤ 2 ^ 20 ∧ (trig .f32 0 1).re = (trig .f32 0 1).re := ⟨by decide, rfl⟩
theorem witness_RomEntryIsTheTwiddle : 2 ^ 12 ≤ 2 ^ Params.default.log2Nmax ∧ 2 ^ 11 - 1 < 2 ^ 12 / 2 := by decide
theorem witness_ScaledCoefficientsAreCosineAndSine : 1 ≤ 1 := by decide
theorem witness_CoefficientsAreRoundedOnce : 1 ≤ 3 ∧ 8 * (1 % 3) ≠ 3 * 3 ∧ 8 * (1 % 3) ≠ 7 * 3 := by decide

theorem witness_ExactArithmeticGivesTheIdealResults :
    ([1] : List ℂ).length = 2 ^ 0 ∧ ([1, 2] : List ℝ).length = 2 ^ 1 ∧ ([1, 2] : List ℝ).length = 2 ^ (0 + 1) ∧ 1 ≤ 3 ∧
      ([1, 2, 3] : List ℝ).length = 3 ∧ 2 < 3 ∧ 1 < 2 ∧ 2 = 2 ^ 1 :=
  ⟨rfl, rfl, rfl, by decide, rfl, by decide, by decide, rfl⟩

end Sys2Proof.Machine
end

section
/-! PROOFS. The scope statements: the reset state, the layout of elements in DMEM, and the single rounding of the arithmetic and of
the coefficients. -/

namespace Sys2Proof.Machine

/-! ### The reset state -/

/-- A slot as reset leaves it meets the invariant (R32). -/
theorem Slot.inv_empty (q : Params) : Slot.Inv q .empty := rfl

/-- Settles O8: each field of the invariant, at the value R280 gives it. -/
theorem resetStateMeetsTheInvariant : Obligations.ResetStateMeetsTheInvariant := fun q hq =>
  { params  := hq
    nslots  := List.length_replicate
    slots   := fun x hx => by
      obtain rfl : x = .empty := List.eq_of_mem_replicate hx
      exact Slot.inv_empty q
    memWf   := List.Pairwise.nil
    memSize := fun _ hx => absurd hx List.not_mem_nil
    engine  := trivial
    status  := nofun }

/-! ### Elements in DMEM -/

@[simp] theorem specElemBytes_eq_elemBytes (p : Prec) : specElemBytes p = elemBytes p := by cases p <;> rfl

theorem fpWidth_eq_eight_mul_elemBytes (p : Prec) : fpWidth p = 8 * elemBytes p := by cases p <;> rfl

/-- Byte `j` of a pattern as an extract of its bits and as a digit of its number. -/
theorem extractLsb'_byte_eq_ofNat {w : Nat} (x : BitVec w) (j : Nat) :
    BitVec.extractLsb' (8 * j) 8 x = BitVec.ofNat 8 (x.toNat / 256 ^ j) := by
  rw [BitVec.extractLsb', Nat.shiftRight_eq_div_pow, Nat.pow_mul]

namespace Memory

/-- Byte `j` of stored element `i` is byte `j` of the element's number (R13, R63, R64). -/
theorem byteAt?_storeElems_inside (m : Memory) {p : Prec} (base : Nat) (vs : List (Fp p)) (i j : Nat) (x : Fp p)
    (hi : vs[i]? = some x) (hj : j < elemBytes p) :
    byteAt? (storeElems m base vs) (base + elemBytes p * i + j) = some (BitVec.ofNat 8 (x.toNat / 256 ^ j)) := by
  induction vs generalizing m base i with
  | nil => simp at hi
  | cons v vs ih =>
    cases i with
    | zero =>
      obtain rfl : v = x := by simpa using hi
      rw [storeElems, byteAt?_storeElems_outside _ _ _ _ (.inl (by omega)), Nat.mul_zero, Nat.add_zero,
        byteAt?_store_inside _ _ _ _ _ hj]
    | succ i =>
      rw [storeElems, Nat.mul_succ,
        show base + (elemBytes p * i + elemBytes p) + j = base + elemBytes p + elemBytes p * i + j by omega]
      exact ih _ _ _ (by simpa using hi)

/-- An element of a loaded buffer is the load of its own bytes (R64). -/
theorem toNat_of_getElem?_loadElems {m : Memory} {p : Prec} {base n t i : Nat} {x : Fp p}
    (h : (loadElems m p base n t)[i]? = some x) :
    x.toNat = load m (elemBytes p) (base + elemBytes p * i) (t + elemBytes p * i) := by
  obtain ⟨hi, rfl⟩ := List.getElem?_eq_some_iff.1 h
  have hlt := load_lt m (elemBytes p) (base + elemBytes p * i) (t + elemBytes p * i)
  rw [show 256 = 2 ^ 8 by rfl, ← Nat.pow_mul, ← fpWidth_eq_eight_mul_elemBytes] at hlt
  simp [loadElems, Nat.mod_eq_of_lt hlt]

/-- Loading `k` bytes from inside a store of `n` gives those bytes of the value. -/
theorem load_store_part (m : Memory) (n a v t : Nat) {i k : Nat} (h : i + k ≤ n) :
    load (store m n a v) k (a + i) t = v / 256 ^ i % 256 ^ k :=
  load_of_bytes _ _ _ _ _ fun l hl => by
    rw [Nat.add_assoc, byteAt?_store_inside _ _ _ _ _ (by omega), pow_add, Nat.div_div_eq_div_mul]

end Memory

/-- Settles O41: the store puts each element's bytes in rising order, the load reads them in that order, each as its own draw. -/
theorem elementsAreLittleEndian : Obligations.ElementsAreLittleEndian := by
  refine ⟨fun m p base v => ⟨fun i x j hi hj => ?_, fun a ha => ?_⟩, fun m p base n t => ⟨by simp, fun i x j hi hj => ?_⟩,
    fun m a t v => ⟨?_, ?_⟩, fun s p n t v m x hx => ?_⟩
  · -- a stored byte
    rw [specElemBytes_eq_elemBytes] at hj ⊢
    rw [extractLsb'_byte_eq_ofNat, Memory.byteAt?_storeElems_inside m base v i j x hi hj]
  · -- a byte outside the span
    rw [specElemBytes_eq_elemBytes] at ha
    exact Memory.byteAt?_storeElems_outside m base v a ha
  · -- a loaded byte
    rw [specElemBytes_eq_elemBytes] at hj ⊢
    have hbyte := Memory.load_byte m _ (base + elemBytes p * i) (t + elemBytes p * i) j hj
    rw [extractLsb'_byte_eq_ofNat, Memory.toNat_of_getElem?_loadElems hi]
    change _ = Memory.read m (base + elemBytes p * i + j) (t + elemBytes p * i + j)
    exact BitVec.eq_of_toNat_eq (by rw [← hbyte, BitVec.toNat_ofNat])
  · -- the low word of a binary64 element
    simpa [Memory.storeElems, elemBytes] using Memory.load_store_part m 8 a v.toNat t (i := 0) (k := 4) (by decide)
  · -- its high word
    have hv : v.toNat / 2 ^ 32 < 2 ^ 32 := Nat.div_lt_of_lt_mul v.isLt
    exact (Memory.load_store_part m 8 a v.toNat t (i := 4) (by decide)).trans (Nat.mod_eq_of_lt hv)
  · -- the base of each descriptor
    simp only [List.mem_cons, List.not_mem_nil, or_false] at hx
    obtain rfl | rfl | rfl | rfl := hx <;> exact ⟨rfl, rfl⟩

/-! ### Arithmetic on finite operands -/

section FiniteOperands

variable {p : Prec} {a b : Fp p} {na nb : Bool} {ma mb : Nat} (ha : classify a = .fin na ma) (hb : classify b = .fin nb mb)
include ha hb

theorem fadd_fin (h : signedMag na ma + signedMag nb mb ≠ 0) :
    fadd a b = roundQ p (decide (signedMag na ma + signedMag nb mb < 0)) (signedMag na ma + signedMag nb mb).natAbs 1 := by
  simp [fadd, ha, hb, h]

theorem fmul_fin : fmul a b = roundQ p (na ^^ nb) (ma * mb) (2 ^ unitExp p) := by
  simp [fmul, ha, hb]

theorem fdiv_fin (h : mb ≠ 0) : fdiv a b = roundQ p (na ^^ nb) (ma * 2 ^ unitExp p) mb := by
  simp [fdiv, ha, hb, h]

end FiniteOperands

theorem signedMag_not (neg : Bool) (m : Nat) : signedMag (!neg) m = -signedMag neg m := by
  cases neg <;> simp [signedMag]

/-- A difference of finite values is the sum with the negated one, in its exact value too. -/
theorem fsub_fin {p : Prec} {a b : Fp p} {na nb : Bool} {ma mb : Nat} (ha : classify a = .fin na ma)
    (hb : classify b = .fin nb mb) (h : signedMag na ma - signedMag nb mb ≠ 0) :
    fsub a b = roundQ p (decide (signedMag na ma - signedMag nb mb < 0)) (signedMag na ma - signedMag nb mb).natAbs 1 := by
  have hneg : classify (fneg b) = .fin (!nb) mb := by rw [classify_fneg, hb]; rfl
  rw [Int.sub_eq_add_neg, ← signedMag_not] at h ⊢
  exact fadd_fin ha hneg h

/-- Settles O45: on finite operands each operation is `roundQ` of its exact result. -/
theorem arithmeticRoundsTheExactResultOnce : Obligations.ArithmeticRoundsTheExactResultOnce := by
  intro p a b na nb ma mb ha hb
  refine ⟨fun h => ?_, fun h => ?_, ?_, fun h => ?_⟩
  · rw [fadd_fin ha hb h]
    exact roundQ_roundsTo p _ _ 1 Nat.one_pos
  · rw [fsub_fin ha hb h]
    exact roundQ_roundsTo p _ _ 1 Nat.one_pos
  · rw [fmul_fin ha hb]
    exact roundQ_roundsTo p _ _ _ (Nat.two_pow_pos _)
  · rw [fdiv_fin ha hb h]
    exact roundQ_roundsTo p _ _ mb (Nat.pos_of_ne_zero h)

/-! ### Coefficients -/

theorem roundQ_zero (p : Prec) (den : Nat) : roundQ p false 0 den = 0 := by
  simp [roundQ, withSign]

/-- `RN_P` of a scaled value is `roundQ` of it, zero included (R14). -/
theorem ofFix_eq_roundQ (p : Prec) (x : Int) :
    ofFix p x = roundQ p (decide (x < 0)) (x.natAbs * 2 ^ unitExp p) (2 ^ trigBits) := by
  unfold ofFix ofRat
  split
  · next h =>
    obtain rfl : x = 0 := Int.natAbs_eq_zero.1 h
    simpa using (roundQ_zero p _).symm
  · rfl

theorem ofFix_roundsTo (p : Prec) (x : Int) :
    RoundsTo p (decide (x < 0)) (x.natAbs * 2 ^ unitExp p) (2 ^ trigBits) (ofFix p x) :=
  ofFix_eq_roundQ p x ▸ roundQ_roundsTo p _ _ _ (Nat.two_pow_pos trigBits)

/-- Off its exact zeros, CAS_P is `RN_P` of the unrounded sum (R122). -/
theorem cas_eq_ofFix {k n : Nat} (p : Prec) (h3 : 8 * (k % n) ≠ 3 * n) (h7 : 8 * (k % n) ≠ 7 * n) :
    cas p k n = ofFix p ((circleFix k n).1 + (circleFix k n).2) :=
  if_neg (not_or.2 ⟨h3, h7⟩)

/-- Settles O58: every coefficient is `ofFix` of its scaled value. -/
theorem coefficientsAreRoundedOnce : Obligations.CoefficientsAreRoundedOnce := by
  intro p k n _
  refine ⟨ofFix_roundsTo p _, ofFix_roundsTo p _, fun h3 h7 => ?_⟩
  rw [cas_eq_ofFix p h3 h7]
  exact ofFix_roundsTo p _

end Sys2Proof.Machine
end

section
/-! PROOFS. The rules of a step that the whole-machine statements share: whose step it is and what it leaves, what a register write
does over the bus, and what a step can do to STATUS. -/

namespace Sys2Proof.Machine

/-! ### Whose step it is -/

@[simp] theorem Engine.isBusy_pass (e : Engine) : e.pass.isBusy = e.isBusy := by cases e <;> rfl

@[simp] theorem Engine.pass_eq_idle {e : Engine} : e.pass = .idle ↔ e = .idle := by cases e <;> simp [Engine.pass]

theorem Engine.isBusy_iff {e : Engine} : e.isBusy = true ↔ ∃ r n, e = .busy r n := by cases e <;> simp [Engine.isBusy]

/-- Letting a host step pass keeps the captured command. -/
theorem Engine.eq_busy_of_pass {e : Engine} {r : LockedRegs} {n : Nat} (h : e.pass = .busy r n) : ∃ m, e = .busy r m := by
  cases e with
  | idle => cases h
  | busy r' m =>
    cases h
    exact ⟨m, rfl⟩

/-- No host step passes before a completion when there is none to come. -/
theorem State.setEngine_pass_of_idle {s : State} (h : s.engine = .idle) : s.setEngine s.engine.pass = s := by
  have hp : s.engine.pass = s.engine := by rw [h]; rfl
  rw [hp]
  rfl

/-- In the host's turn its next event is taken, unless it is held (R72, R253). -/
theorem step_of_hostTurn {s : State} {ev : HostEvent} {rest : List HostEvent} (hturn : HostTurn s) (hh : s.host = ev :: rest)
    (hheld : ev.held s.params = false) : step s = hostStep ev rest (s.setEngine s.engine.pass) := by
  cases he : s.engine with
  | idle =>
    have hs := State.setEngine_pass_of_idle he
    rw [he] at hs
    rw [hs]
    simp [step, blockStep, he, hh]
  | busy r n =>
    have hn : n ≠ 0 := by simpa [HostTurn, he] using hturn
    have hnext : engineIsNext s n = false := by simp [engineIsNext, hh, hn, hheld]
    simp [step, blockStep, he, hh, hnext]

/-- A step that answers a next state is idle, the host's, or the completion of a command that passes its checks. -/
theorem step_next_cases {s t : State} (h : step s = .next t) :
    t = s ∨
      (∃ ev rest, s.host = ev :: rest ∧ hostStep ev rest (s.setEngine s.engine.pass) = .next t) ∨
      ∃ r n i, s.engine = .busy r n ∧ decodeWord r.cmd = .ok i ∧ checkOf i r s = none ∧ t = finishCommand (effectOf i r s) := by
  rcases step_cases s with ⟨-, -, hs⟩ | ⟨ev, rest, hh, he, hs⟩ | ⟨ev, rest, r, n, hh, he, -, hs⟩ | ⟨r, n, he, -, hs⟩
  · exact .inl (Host.Outcome.next.inj (h.symm.trans hs))
  · refine .inr (.inl ⟨ev, rest, hh, ?_⟩)
    rw [State.setEngine_pass_of_idle he, ← hs, h]
  · refine .inr (.inl ⟨ev, rest, hh, ?_⟩)
    rw [he, Engine.pass, ← hs, h]
  · rcases completionStep_cases he with ⟨i, hd, -, hc, hf⟩ | hf
    · exact .inr (.inr ⟨r, n, i, he, hd, hc, Host.Outcome.next.inj (h.symm.trans (hs.trans hf))⟩)
    · exact absurd (h.symm.trans (hs.trans hf)) nofun

/-- What a command answers: its issue at an IDLE engine, its completion at the BUSY one (R243, R244). -/
theorem exec_next_cases {i : Instr} {s t : State} (h : exec i s = .next t) :
    (s.engine = .idle ∧ t = issueCommand (encode i) (checkOf i s.locked s) s) ∨
      ∃ r n, s.engine = .busy r n ∧ t = finishCommand (effectOf i r s) := by
  cases he : s.engine with
  | idle => exact .inl ⟨rfl, Host.Outcome.next.inj (h.symm.trans (exec_idle he i))⟩
  | busy r n =>
    rw [exec_busy he] at h
    split at h
    · exact .inr ⟨r, n, rfl, (Host.Outcome.next.inj h).symm⟩
    · cases h

/-- A host step other than reset leaves the parameters, the results and the context file (R31, R35). -/
theorem hostStep_frame {ev : HostEvent} {rest : List HostEvent} {s t : State} (h : hostStep ev rest s = .next t)
    (hev : ev ≠ .reset) : t.params = s.params ∧ t.res = s.res ∧ t.ctxs = s.ctxs := by
  obtain ⟨u, hu, hcases⟩ := hostStep_cases ev rest s
  obtain rfl := Host.Outcome.next.inj (hu.symm.trans h)
  rcases hcases with ⟨hp, -, -, -, hr, hc, -⟩ | ⟨_, _, _, -, -, -, rfl⟩ | ⟨_, v, r, -, -, -, rfl⟩ | ⟨-, v, i, -, -, rfl⟩ |
    ⟨-, v, e, -, -, rfl⟩ | ⟨rfl, -⟩
  · exact ⟨hp, hr, hc⟩
  · exact ⟨rfl, rfl, rfl⟩
  · obtain ⟨hp, hr, hc, -⟩ := writeReg_frame (v.setWidth 32) (afterWrite rest s) r
    exact ⟨hp, hr, hc⟩
  · obtain ⟨hp, -, hr, hc, -⟩ := issueCommand_frame (encode i) (checkOf i s.locked s) (afterWrite rest s)
    exact ⟨hp, hr, hc⟩
  · obtain ⟨hp, -, hr, hc, -⟩ := issueCommand_frame (v.setWidth 32) (some ⟨.illegal, 0, 0⟩) (afterWrite rest s)
    exact ⟨hp, hr, hc⟩
  · exact absurd rfl hev

/-! ### Register writes -/

/-- The registers that are locked while BUSY (R37). -/
def Reg.isLocked : Reg → Bool
  | .cmd | .arg0 | .bBase _ | .bLen _ => true
  | _ => false

/-- The locked registers fill the locked offsets (R21, R37). -/
theorem Reg.lockedOffset_of_isLocked {x : Reg} (h : x.isLocked = true) : lockedOffset x.offset := by
  cases x with
  | bBase k | bLen k => simp only [Reg.offset]; omega
  | cmd | arg0 => decide
  | _ => simp [Reg.isLocked] at h

theorem Reg.exists_ofOffset_of_locked {off : Nat} (h : lockedOffset off) (q : Params) :
    ∃ x : Reg, Reg.ofOffset q off = some x ∧ x.isLocked = true := by
  obtain ⟨h0, h1, h4⟩ := h
  obtain ⟨k, rfl⟩ : ∃ k : Fin 10, off = 0x018 + 4 * k.val := ⟨⟨(off - 0x018) / 4, by omega⟩, by dsimp only; omega⟩
  fin_cases k <;> exact ⟨_, rfl, rfl⟩

/-- The map of R21 is the model's. -/
theorem specOffset_eq_offset (x : Reg) : specOffset x = x.offset := by
  cases x with
  | bBase k | bLen k => fin_cases k <;> rfl
  | _ => rfl

/-- A write to a locked register while BUSY (R37). -/
theorem writeReg_locked_busy {s : State} {x : Reg} (hx : x.isLocked = true) (hb : s.engine.isBusy = true) (v : Word) :
    writeReg v s x = s.setStatus s.status.overrun := by
  cases x <;> simp_all [Reg.isLocked, writeReg, writeLocked]

/-- Neither the failure nor the acceptance of a command touches OVR (R243). -/
theorem issueCommand_ovr (w : Word) (e : Option CmdError) (s : State) : (issueCommand w e s).status.ovr = s.status.ovr := by
  cases e <;> rfl

/-- What a register write does to STATUS (R26, R37). -/
theorem writeReg_status_cases (v : Word) (s : State) (x : Reg) :
    (writeReg v s x).status = s.status ∨ (x = .status ∧ (writeReg v s x).status = s.status.write v) ∨
      (x.isLocked = true ∧ s.engine.isBusy = true ∧ (writeReg v s x).status = s.status.overrun) := by
  have hlocked : ∀ r, (writeLocked s r).status = s.status ∨
      s.engine.isBusy = true ∧ (writeLocked s r).status = s.status.overrun := by
    intro r
    unfold writeLocked
    split
    · next hb => exact .inr ⟨hb, rfl⟩
    · exact .inl rfl
  cases x with
  | status => exact .inr (.inl ⟨rfl, rfl⟩)
  | cmd | arg0 | bBase | bLen => exact (hlocked _).imp_right fun h => .inr ⟨rfl, h⟩
  | _ => exact .inl rfl

/-- A REG offset is in no held region (R72). -/
theorem HostEvent.held_reg {op : BusOp} (q : Params) (h : op.offset < 0x1000) : (HostEvent.bus op).held q = false := by
  simp [HostEvent.held, regionOf, h]

/-- A register write that issues no command is `writeReg` (R68, R69); a CMD write while BUSY is one (R37). -/
theorem writeOffset_eq_writeReg {s : State} {off : Nat} {x : Reg} (hx : Reg.ofOffset s.params off = some x)
    (hcmd : x = .cmd → s.engine ≠ .idle) (v : Word) : writeOffset off v s = .next (writeReg v s x) := by
  unfold writeOffset
  rw [hx]
  cases x with
  | cmd =>
    cases he : s.engine with
    | idle => exact absurd he (hcmd rfl)
    | busy r n => simp [writeCmd, he]
  | _ => rfl

/-- A 32-bit write to a register in the host's turn, but for an issuing CMD write (R66, R69). -/
theorem step_writeReg {s : State} {off : Nat} {x : Reg} {v : BitVec 64} {rest : List HostEvent} (hturn : HostTurn s)
    (hx : Reg.ofOffset s.params off = some x) (hoff : off < 0x1000 ∧ off % 4 = 0) (hcmd : x = .cmd → s.engine ≠ .idle)
    (hh : s.host = .bus (.write off 4 v) :: rest) :
    step s = .next (writeReg (v.setWidth 32) (afterWrite rest (s.setEngine s.engine.pass)) x) := by
  have hwrite : hostStep (.bus (.write off 4 v)) rest (s.setEngine s.engine.pass) =
      writeOffset off (v.setWidth 32) (afterWrite rest (s.setEngine s.engine.pass)) := by
    simp [hostStep, transact, regionOf, regAccessOk, hoff, afterWrite]
  rw [step_of_hostTurn hturn hh (HostEvent.held_reg _ hoff.1), hwrite]
  exact writeOffset_eq_writeReg (s := afterWrite rest (s.setEngine s.engine.pass)) hx
    (fun h hp => hcmd h (Engine.pass_eq_idle.1 hp)) _

/-! ### STATUS -/

/-- What a host step can do to STATUS: nothing, a STATUS write (R26), OVR (R37), a command's start or failure, which leave OVR
(R240, R243), a reset. -/
theorem hostStep_status_cases {ev : HostEvent} {rest : List HostEvent} {s t : State} (h : hostStep ev rest s = .next t) :
    t.status = s.status ∨
      (∃ v, ev = .bus (.write 0x014 4 v) ∧ t.status = s.status.write (v.setWidth 32)) ∨
      (s.engine.isBusy = true ∧ ∃ off v, ev = .bus (.write off 4 v) ∧ lockedOffset off ∧ t.status = s.status.overrun) ∨
      (s.engine = .idle ∧ (∃ v, ev = .bus (.write 0x018 4 v)) ∧ t.status.ovr = s.status.ovr) ∨
      (ev = .reset ∧ t.status = .reset) := by
  obtain ⟨u, hu, hcases⟩ := hostStep_cases ev rest s
  obtain rfl := Host.Outcome.next.inj (hu.symm.trans h)
  rcases hcases with ⟨-, -, hs, -⟩ | ⟨_, _, _, -, -, -, rfl⟩ | ⟨off, v, x, rfl, hx, -, rfl⟩ | ⟨he, v, i, rfl, -, rfl⟩ |
    ⟨he, v, e, rfl, -, rfl⟩ | ⟨rfl, rfl⟩
  · exact .inl hs
  · exact .inl rfl
  · have hoff := Reg.ofOffset_offset hx
    rcases writeReg_status_cases (v.setWidth 32) (afterWrite rest s) x with hs | ⟨rfl, hs⟩ | ⟨hl, hb, hs⟩
    · exact .inl hs
    · exact .inr (.inl ⟨v, by rw [← hoff]; rfl, hs⟩)
    · exact .inr (.inr (.inl ⟨hb, off, v, rfl, hoff ▸ Reg.lockedOffset_of_isLocked hl, hs⟩))
  · exact .inr (.inr (.inr (.inl ⟨he, ⟨v, rfl⟩, issueCommand_ovr ..⟩)))
  · exact .inr (.inr (.inr (.inl ⟨he, ⟨v, rfl⟩, issueCommand_ovr ..⟩)))
  · exact .inr (.inr (.inr (.inr ⟨rfl, rfl⟩)))

/-- What a step can do to STATUS: what a host step can, or set DONE at a completion (R244). -/
theorem step_status_cases {s t : State} (h : step s = .next t) :
    t.status = s.status ∨
      (∃ v rest, s.host = .bus (.write 0x014 4 v) :: rest ∧ t.status = s.status.write (v.setWidth 32)) ∨
      (∃ r n off v rest, s.engine = .busy r n ∧ lockedOffset off ∧ s.host = .bus (.write off 4 v) :: rest ∧
        t.status = s.status.overrun) ∨
      (∃ v rest, s.host = .bus (.write 0x018 4 v) :: rest ∧ s.engine = .idle ∧ t.status.ovr = s.status.ovr) ∨
      (∃ rest, s.host = .reset :: rest ∧ t.status = .reset) ∨
      t.status = s.status.finish := by
  rcases step_next_cases h with rfl | ⟨ev, rest, hh, hstep⟩ | ⟨r, n, i, -, -, -, rfl⟩
  · exact .inl rfl
  · rcases hostStep_status_cases hstep with hs | ⟨v, rfl, hs⟩ | ⟨hb, off, v, rfl, hl, hs⟩ | ⟨he, ⟨v, rfl⟩, hs⟩ | ⟨rfl, hs⟩
    · exact .inl hs
    · exact .inr (.inl ⟨v, rest, hh, hs⟩)
    · obtain ⟨r, n, he⟩ := Engine.isBusy_iff.1 ((Engine.isBusy_pass _).symm.trans hb)
      exact .inr (.inr (.inl ⟨r, n, off, v, rest, he, hl, hh, hs⟩))
    · exact .inr (.inr (.inr (.inl ⟨v, rest, hh, Engine.pass_eq_idle.1 he, hs⟩)))
    · exact .inr (.inr (.inr (.inr (.inl ⟨rest, hh, hs⟩))))
  · obtain ⟨-, -, hs, -⟩ := effectOf_frame i r s
    exact .inr (.inr (.inr (.inr (.inr (congrArg Status.finish hs)))))

end Sys2Proof.Machine
end

section
/-! PROOFS. The invariant is kept by every step (O9): one lemma for each thing a step can do. -/

namespace Sys2Proof.Machine

/-! ### No check reports code 0 -/

/-- A check that fails reports an error code (R241). -/
def ReportsCode (o : Option CmdError) : Prop := ∀ e, o = some e → e.code ≠ .ok

theorem reportsCode_none : ReportsCode none := fun _ h => nomatch h

theorem reportsCode_some {e : CmdError} (h : e.code ≠ .ok) : ReportsCode (some e) := fun _ he => Option.some.inj he ▸ h

theorem reportsCode_ite {c : Prop} [Decidable c] {a b : Option CmdError} (ha : ReportsCode a) (hb : ReportsCode b) :
    ReportsCode (if c then a else b) := by
  split
  · exact ha
  · exact hb

theorem reportsCode_or {a b : Option CmdError} (ha : ReportsCode a) (hb : ReportsCode b) : ReportsCode (a.or b) := by
  cases a with
  | none => exact hb
  | some e => exact ha

theorem reportsCode_findSome? {α : Type} (u : List α) {f : α → Option CmdError} (hf : ∀ x, ReportsCode (f x)) :
    ReportsCode (u.findSome? f) := by
  intro e he
  obtain ⟨x, -, hx⟩ := List.exists_of_findSome?_eq_some he
  exact hf x e hx

/-- One failing test with a code of its own. -/
theorem reportsCode_test {c : Prop} [Decidable c] {e : CmdError} (h : e.code ≠ .ok) :
    ReportsCode (if c then some e else none) :=
  reportsCode_ite (reportsCode_some h) reportsCode_none

theorem checkCtx_reportsCode (c : Nat) (kind : Kind) (p : Prec) (s : State) : ReportsCode (checkCtx c kind p s) :=
  reportsCode_ite (reportsCode_some nofun) <| reportsCode_ite (reportsCode_some nofun) <|
    reportsCode_ite (reportsCode_some nofun) <| reportsCode_test nofun

theorem overlapError_reportsCode (r : LockedRegs) (p : Prec) (u : Uses) : ReportsCode (overlapError r p u) := by
  induction u with
  | nil => exact reportsCode_none
  | cons x u ih => exact reportsCode_or (reportsCode_findSome? _ fun _ => reportsCode_test nofun) ih

theorem checkBufs_reportsCode (r : LockedRegs) (p : Prec) (d : Nat) (u : Uses) : ReportsCode (checkBufs r p d u) :=
  reportsCode_or (reportsCode_findSome? _ fun _ => reportsCode_test nofun) <|
    reportsCode_or (reportsCode_findSome? _ fun _ => reportsCode_test nofun) <|
      reportsCode_or (reportsCode_findSome? _ fun _ => reportsCode_test nofun) (overlapError_reportsCode r p u)

theorem checkConfig_reportsCode (c : Nat) (ok : Nat → Bool) (r : LockedRegs) (s : State) : ReportsCode (checkConfig c ok r s) :=
  reportsCode_ite (reportsCode_some nofun) <| reportsCode_test nofun

/-- No command fails with code 0 (R240, R241). -/
theorem checkOf_reportsCode (i : Instr) (r : LockedRegs) (s : State) : ReportsCode (checkOf i r s) := by
  cases i with
  | cfgFft | cfgRfft | cfgGz | cfgDht => exact checkConfig_reportsCode _ _ _ _
  | fftShift p => exact reportsCode_ite (reportsCode_some nofun) (checkBufs_reportsCode _ _ _ _)
  | gzDir c p =>
    exact reportsCode_or (checkCtx_reportsCode _ _ _ _) <| reportsCode_ite (reportsCode_some nofun) (checkBufs_reportsCode _ _ _ _)
  | _ => exact reportsCode_or (checkCtx_reportsCode _ _ _ _) (checkBufs_reportsCode _ _ _ _)

/-! ### The command of a word -/

/-- A decoded command has a four-bit context index (R91). -/
theorem wellFormed_of_decodeWord {w : Word} {i : Instr} (h : decodeWord w = .ok i) : i.WellFormed := by
  obtain ⟨-, -, -, hctx, -⟩ := decodeWord_eq_ok.1 h
  have hlt : ctxField w < 16 := Nat.mod_lt _ (by decide)
  rwa [hctx] at hlt

/-- The word of a well-formed command decodes to it (R99). -/
theorem decodeWord_encode {i : Instr} (h : i.WellFormed) : decodeWord (encode i) = .ok i := by
  obtain ⟨hop, hrsv0, hctx, hprec, hrsv1⟩ := encode_fields h
  exact decodeWord_eq_ok.2 ⟨hrsv0, hrsv1, hop, hctx, hprec⟩

/-! ### The invariant, part by part -/

/-- The status of a running command, as its CMD write left it (R243). -/
abbrev Status.Fresh (x : Status) : Prop := x.done = false ∧ x.err = false ∧ x.errCode = .ok

/-- A BUSY engine runs an accepted command on the registers it captured (R36, R244). -/
theorem engineInv_busy {s : State} {r : LockedRegs} {n : Nat} (he : s.engine = .busy r n) :
    EngineInv s ↔ r = s.locked ∧ (∃ i, decodeWord r.cmd = .ok i ∧ checkOf i r s = none) ∧ s.status.Fresh := by
  rw [EngineInv, he]
  cases hd : decodeWord r.cmd <;> simp [hd]

theorem engineInv_idle {s : State} (he : s.engine = .idle) : EngineInv s := by
  rw [EngineInv, he]
  trivial

/-- A step that lets the running command be, and what it runs on, keeps the engine's part of the invariant. -/
theorem EngineInv.congr {s t : State} (h : EngineInv s) (he : ∀ r n, t.engine = .busy r n → ∃ m, s.engine = .busy r m)
    (hp : t.params = s.params) (hc : t.ctxs = s.ctxs) (hl : t.engine.isBusy = true → t.locked = s.locked)
    (hs : s.status.Fresh → t.status.Fresh) : EngineInv t := by
  cases hte : t.engine with
  | idle => exact engineInv_idle hte
  | busy r n =>
    obtain ⟨m, hse⟩ := he r n hte
    obtain ⟨hr, ⟨i, hd, hcheck⟩, hfresh⟩ := (engineInv_busy hse).1 h
    exact (engineInv_busy hte).2
      ⟨hr.trans (hl (hte ▸ rfl)).symm, ⟨i, hd, (checkOf_congr i r hp hc).trans hcheck⟩, hs hfresh⟩

/-- No register write makes a running command's status stale (R26, R37). -/
theorem writeReg_status_fresh {s : State} (h : s.status.Fresh) (v : Word) (x : Reg) : (writeReg v s x).status.Fresh := by
  obtain ⟨hdone, herr, hcode⟩ := h
  rcases writeReg_status_cases v s x with hs | ⟨-, hs⟩ | ⟨-, -, hs⟩ <;> rw [hs]
  · exact ⟨hdone, herr, hcode⟩
  · exact ⟨by simp [Status.write, hdone], by simp [Status.write, herr], hcode⟩
  · exact ⟨hdone, herr, hcode⟩

/-- No register write sets ERR or touches ERRCODE (R26, R248). -/
theorem writeReg_statusInv {s : State} (h : StatusInv s.status) (v : Word) (x : Reg) : StatusInv (writeReg v s x).status := by
  rcases writeReg_status_cases v s x with hs | ⟨-, hs⟩ | ⟨-, -, hs⟩ <;> rw [hs]
  · exact h
  · exact fun herr => h (Bool.and_eq_true_iff.1 herr).1
  · exact h

/-! ### What each thing a step can do keeps -/

/-- Nothing but the queue, the answer and the draws. -/
theorem State.Inv.of_sameBlock {s t : State} (h : s.Inv) (hst : SameBlock s t) : t.Inv := by
  obtain ⟨hp, -, hs, hl, -, hc, hm, he⟩ := hst
  exact {
    params  := hp ▸ h.params
    nslots  := hc ▸ hp ▸ h.nslots
    slots   := hc ▸ hp ▸ h.slots
    memWf   := hm ▸ h.memWf
    memSize := hm ▸ hp ▸ h.memSize
    engine  := h.engine.congr (fun r n hb => ⟨n, he ▸ hb⟩) hp hc (fun _ => hl) (fun hf => hs ▸ hf)
    status  := hs ▸ h.status }

/-- A host step passing before the completion (R286). -/
theorem State.Inv.pass {s : State} (h : s.Inv) : (s.setEngine s.engine.pass).Inv :=
  { h with
    engine := h.engine.congr (t := s.setEngine s.engine.pass) (fun _ _ hb => Engine.eq_busy_of_pass hb) rfl rfl (fun _ => rfl) id }

/-- A permitted host write to DMEM (R60, R70). -/
theorem State.Inv.store {s : State} (h : s.Inv) {a width : Nat} (hok : dmemAccessOk s.params a width = true) (v : Nat) :
    (s.setDmem (s.dmem.store width a v)).Inv := by
  obtain ⟨-, -, hend⟩ := of_decide_eq_true hok
  exact { h with
    memWf   := Memory.store_wf h.memWf _ _ _
    memSize := Memory.store_within _ _ _ h.memSize hend
    engine  := h.engine.congr (fun _ n hb => ⟨n, hb⟩) rfl rfl (fun _ => rfl) id }

/-- A register write that issues no command (R25, R26, R37). -/
theorem State.Inv.writeReg {s : State} (h : s.Inv) (v : Word) (x : Reg) : (writeReg v s x).Inv := by
  obtain ⟨hp, -, hc, hm, he, -⟩ := writeReg_frame v s x
  exact {
    params  := hp ▸ h.params
    nslots  := hc ▸ hp ▸ h.nslots
    slots   := hc ▸ hp ▸ h.slots
    memWf   := hm ▸ h.memWf
    memSize := hm ▸ hp ▸ h.memSize
    engine  := h.engine.congr (fun _ n hb => ⟨n, he ▸ hb⟩) hp hc (fun hb => writeReg_locked_of_busy (he ▸ hb) v x)
      (fun hf => writeReg_status_fresh hf v x)
    status  := writeReg_statusInv h.status v x }

/-- A CMD write at an IDLE engine whose command fails (R240). -/
theorem State.Inv.issue_failed {s : State} (h : s.Inv) (he : s.engine = .idle) (w : Word) {e : CmdError} (hcode : e.code ≠ .ok) :
    (issueCommand w (some e) s).Inv :=
  { h with
    engine := engineInv_idle he
    status := fun _ => hcode }

/-- A CMD write at an IDLE engine whose command passes its checks (R243). -/
theorem State.Inv.issue_accepted {s : State} (h : s.Inv) {i : Instr} (hi : i.WellFormed) (hcheck : checkOf i s.locked s = none) :
    (issueCommand (encode i) none s).Inv :=
  { h with
    engine := (engineInv_busy rfl).2 ⟨rfl, ⟨i, decodeWord_encode hi, checkOf_accepted hcheck _⟩, rfl, rfl, rfl⟩
    status := nofun }

/-- A CMD write of a legal word at an IDLE engine. -/
theorem State.Inv.issue {s : State} (h : s.Inv) (he : s.engine = .idle) {i : Instr} (hi : i.WellFormed) :
    (issueCommand (encode i) (checkOf i s.locked s) s).Inv := by
  cases hcheck : checkOf i s.locked s with
  | none => exact h.issue_accepted hi hcheck
  | some e => exact h.issue_failed he _ (checkOf_reportsCode i _ _ e hcheck)

/-- The effect of a command that passed its checks leaves NCTX slots, each within R33. -/
theorem State.Inv.effectOf_slots {s : State} (h : s.Inv) {i : Instr} {r : LockedRegs} (hcheck : checkOf i r s = none) :
    (effectOf i r s).ctxs.length = s.params.nctx ∧ ∀ x ∈ (effectOf i r s).ctxs, x.Inv s.params := by
  cases hi : isConfig i with
  | false =>
    rw [effectOf_ctxs hi]
    exact ⟨h.nslots, h.slots⟩
  | true =>
    obtain ⟨x, hset, hx, -⟩ := configured_slot_inv hi hcheck
    rw [hset]
    refine ⟨by rw [List.length_set, h.nslots], fun y hy => ?_⟩
    rcases List.mem_or_eq_of_mem_set hy with hy | rfl
    · exact h.slots y hy
    · exact hx

/-- The completion of a command that passed its checks (R244). -/
theorem State.Inv.finish {s : State} (h : s.Inv) {i : Instr} {r : LockedRegs} (hcheck : checkOf i r s = none) :
    (finishCommand (effectOf i r s)).Inv := by
  obtain ⟨hp, -, hs, -⟩ := effectOf_frame i r s
  obtain ⟨hlen, hslots⟩ := h.effectOf_slots hcheck
  exact {
    params  := hp.symm ▸ h.params
    nslots  := hlen.trans (congrArg Params.nctx hp.symm)
    slots   := hp.symm ▸ hslots
    memWf   := effectOf_wf h.memWf i r
    memSize := hp.symm ▸ effectOf_within hcheck h.memSize
    engine  := engineInv_idle rfl
    status  := by
      have hfin : (finishCommand (effectOf i r s)).status = s.status.finish := congrArg Status.finish hs
      rw [hfin]
      exact h.status }

/-- The reset input, whatever it interrupts (R280, R281). -/
theorem State.Inv.reset {s : State} (h : s.Inv) : (resetBlock s).Inv :=
  (resetStateMeetsTheInvariant s.params h.params).of_sameBlock ⟨rfl, rfl, rfl, rfl, rfl, rfl, rfl, rfl⟩

/-- Every host step. -/
theorem State.Inv.hostStep {s t : State} {ev : HostEvent} {rest : List HostEvent} (h : s.Inv)
    (hstep : hostStep ev rest s = .next t) : t.Inv := by
  obtain ⟨u, hu, hcases⟩ := hostStep_cases ev rest s
  obtain rfl := Host.Outcome.next.inj (hu.symm.trans hstep)
  have hafter : (afterWrite rest s).Inv := h.of_sameBlock ⟨rfl, rfl, rfl, rfl, rfl, rfl, rfl, rfl⟩
  rcases hcases with hsame | ⟨off, width, v, -, -, hok, rfl⟩ | ⟨_, v, x, -, -, -, rfl⟩ | ⟨he, v, i, -, hd, rfl⟩ |
    ⟨he, v, e, -, -, rfl⟩ | ⟨-, rfl⟩
  · exact h.of_sameBlock hsame
  · exact (h.store hok v.toNat).of_sameBlock ⟨rfl, rfl, rfl, rfl, rfl, rfl, rfl, rfl⟩
  · exact hafter.writeReg _ x
  · rw [← checkOf_congr i s.locked (s := s) (t := afterWrite rest s) rfl rfl]
    exact hafter.issue he (wellFormed_of_decodeWord hd)
  · exact hafter.issue_failed he _ nofun
  · exact (h.of_sameBlock (t := s.setHost rest) ⟨rfl, rfl, rfl, rfl, rfl, rfl, rfl, rfl⟩).reset

/-- Settles O9: by the kinds of step, and for the host's by everything a host step can do. -/
theorem everyStepKeepsTheInvariant : Obligations.EveryStepKeepsTheInvariant := by
  intro s t h hstep
  rcases step_next_cases hstep with rfl | ⟨ev, rest, -, hhost⟩ | ⟨r, n, i, -, -, hcheck, rfl⟩
  · exact h
  · exact h.pass.hostStep hhost
  · exact h.finish hcheck

end Sys2Proof.Machine
end
section
/-! PROOFS. What changes the context file, the result registers and the flags. -/

namespace Sys2Proof.Machine

/-! ### The context file and the result registers -/

/-- What a configuration command does to the context file (R164). -/
theorem effectOf_ctxs_of_isConfig {i : Instr} (h : isConfig i = true) (r : LockedRegs) (s : State) :
    (effectOf i r s).ctxs = s.ctxs.set i.ctx { valid := true, kind := specKind i, prec := i.prec, n := r.arg0 } := by
  cases i with
  | cfgFft | cfgRfft | cfgGz | cfgDht => rfl
  | _ => simp [isConfig] at h

theorem isGoertzel_iff {i : Instr} : isGoertzel i = true ↔ ∃ c p, i = .gzDir c p := by
  cases i <;> simp [isGoertzel]

/-- Of the kinds of step, only a completion's effect and a reset reach the result registers and the context file. -/
theorem step_res_ctxs_cases {s t : State} (h : step s = .next t) :
    (t.res = s.res ∧ t.ctxs = s.ctxs) ∨ (∃ rest, s.host = .reset :: rest) ∨
      ∃ r n i, s.engine = .busy r n ∧ decodeWord r.cmd = .ok i ∧ t.res = (effectOf i r s).res ∧
        t.ctxs = (effectOf i r s).ctxs := by
  rcases step_next_cases h with rfl | ⟨ev, rest, hh, hhost⟩ | ⟨r, n, i, he, hd, -, rfl⟩
  · exact .inl ⟨rfl, rfl⟩
  · by_cases hev : ev = .reset
    · exact .inr (.inl ⟨rest, hev ▸ hh⟩)
    · obtain ⟨-, hr, hc⟩ := hostStep_frame hhost hev
      exact .inl ⟨hr, hc⟩
  · exact .inr (.inr ⟨r, n, i, he, hd, rfl, rfl⟩)

/-- Settles O25: the effect that changes a slot is a configuration command's. -/
theorem slotsChangeOnlyByConfigurationOrReset : Obligations.SlotsChangeOnlyByConfigurationOrReset := by
  intro s t h hne
  rcases step_res_ctxs_cases h with ⟨-, hc⟩ | hreset | ⟨r, n, i, he, hd, -, hc⟩
  · exact absurd hc hne
  · exact .inr hreset
  · cases hi : isConfig i with
    | true => exact .inl ⟨r, n, i, he, hd, hi, hc.trans (effectOf_ctxs_of_isConfig hi r s)⟩
    | false => exact absurd (hc.trans (effectOf_ctxs hi r s)) hne

/-- Settles O26: the effect that changes a result register is GZ_DIR's. -/
theorem resultsChangeOnlyByGoertzelOrReset : Obligations.ResultsChangeOnlyByGoertzelOrReset := by
  intro s t h hne
  rcases step_res_ctxs_cases h with ⟨hr, -⟩ | hreset | ⟨r, n, i, he, hd, hr, -⟩
  · exact absurd hr hne
  · exact .inr hreset
  · cases hi : isGoertzel i with
    | true =>
      obtain ⟨c, p, rfl⟩ := isGoertzel_iff.1 hi
      exact .inl ⟨r, n, c, p, he, hd⟩
    | false => exact absurd (hr.trans (effectOf_res hi r s)) hne

/-! ### The flags -/

/-- A flag that a STATUS write clears has its bit written as 1 (R26). -/
theorem getLsbD_of_cleared {v : BitVec 64} {n : Nat} {old new : Bool} (hn : n < 32) (hold : old = true) (hnew : new = false)
    (h : new = (old && !(v.setWidth 32).getLsbD n)) : v.getLsbD n = true := by
  simpa [hold, hnew, hn] using h

/-- A flag that keeps its value is not cleared. -/
theorem not_cleared_of_eq {P : Prop} {old new : Bool} (h : new = old) (hold : old = true) (hnew : new = false) : P :=
  absurd (hold.symm.trans (h.symm.trans hnew)) nofun

/-- Settles O28, by what a step can do to STATUS: only a STATUS write, a CMD write and a reset take a flag from 1 to 0. -/
theorem flagsAreClearedOnlyAsTheSpecSays : Obligations.FlagsAreClearedOnlyAsTheSpecSays := by
  intro s t h
  rcases step_status_cases h with hs | ⟨v, rest, hh, hs⟩ | ⟨_, _, _, _, _, -, -, -, hs⟩ | ⟨v, rest, hh, he, hovr⟩ |
    ⟨rest, hh, -⟩ | hs
  · -- nothing happens to STATUS
    exact ⟨not_cleared_of_eq (congrArg Status.done hs), not_cleared_of_eq (congrArg Status.err hs),
      not_cleared_of_eq (congrArg Status.ovr hs)⟩
  · -- a STATUS write
    exact ⟨fun h1 h0 => .inl ⟨v, rest, hh, getLsbD_of_cleared (by decide) h1 h0 (congrArg Status.done hs)⟩,
      fun h1 h0 => .inl ⟨v, rest, hh, getLsbD_of_cleared (by decide) h1 h0 (congrArg Status.err hs)⟩,
      fun h1 h0 => .inl ⟨v, rest, hh, getLsbD_of_cleared (by decide) h1 h0 (congrArg Status.ovr hs)⟩⟩
  · -- an overrun sets OVR
    rw [hs]
    exact ⟨not_cleared_of_eq rfl, not_cleared_of_eq rfl, nofun⟩
  · -- a CMD write at an IDLE engine leaves OVR
    exact ⟨fun _ _ => .inr (.inl ⟨v, rest, hh, he⟩), fun _ _ => .inr (.inl ⟨v, rest, hh, he⟩), not_cleared_of_eq hovr⟩
  · -- a reset
    exact ⟨fun _ _ => .inr (.inr ⟨rest, hh⟩), fun _ _ => .inr (.inr ⟨rest, hh⟩), fun _ _ => .inr ⟨rest, hh⟩⟩
  · -- a completion sets DONE
    rw [hs]
    exact ⟨nofun, not_cleared_of_eq rfl, not_cleared_of_eq rfl⟩

/-- Settles O30, by what a step can do to STATUS: only an overrun takes OVR from 0 to 1. -/
theorem overrunIsSetOnlyByLockedWrites : Obligations.OverrunIsSetOnlyByLockedWrites := by
  intro s t h h0 h1
  have hset : t.status.ovr ≠ s.status.ovr := by simp [h0, h1]
  rcases step_status_cases h with hs | ⟨v, rest, -, hs⟩ | ⟨r, n, off, v, rest, he, hl, hh, -⟩ | ⟨_, _, -, -, hovr⟩ |
    ⟨_, -, hs⟩ | hs
  · exact absurd (congrArg Status.ovr hs) hset
  · -- a STATUS write only clears
    rw [hs] at h1
    exact absurd (h0.symm.trans (Bool.and_eq_true_iff.1 h1).1) nofun
  · exact ⟨r, n, off, v, rest, he, hl, hh⟩
  · exact absurd hovr hset
  · rw [hs] at h1
    cases h1
  · exact absurd (congrArg Status.ovr hs) hset

end Sys2Proof.Machine
end

section
/-! PROOFS. The register file: the bits of the packed registers, what reads and writes of registers do, and the interrupt line. -/

namespace Sys2Proof.Machine

/-! ### Bits of a packed word -/

/-- Bit `n` of a word whose number has the one-bit field `b` there. -/
theorem getLsbD_of_field {w : Word} {n : Nat} {b : Bool} (h : w.toNat / 2 ^ n % 2 = bit b) : w.getLsbD n = b := by
  rw [BitVec.getLsbD, Nat.testBit_eq_decide_div_mod_eq, h]
  cases b <;> rfl

/-- The field of `k` bits from bit `n` up, as a number. -/
theorem toNat_extractLsb'_word (w : Word) (n k : Nat) : (w.extractLsb' n k).toNat = w.toNat / 2 ^ n % 2 ^ k := by
  rw [BitVec.extractLsb'_toNat, Nat.shiftRight_eq_div_pow]

/-- A field whose number is given. -/
theorem extractLsb'_of_field {w : Word} {n k : Nat} {x : BitVec k} (h : w.toNat / 2 ^ n % 2 ^ k = x.toNat) :
    w.extractLsb' n k = x :=
  BitVec.eq_of_toNat_eq ((toNat_extractLsb'_word w n k).trans h)

theorem ErrCode.toNat_lt (c : ErrCode) : c.toNat < 16 := by cases c <;> decide

/-- R241's codes are the model's. -/
theorem specErrCode_eq_toNat (c : ErrCode) : specErrCode c = c.toNat := by cases c <;> rfl

/-- The bits of STATUS (R26). -/
theorem Status.word_fields (x : Status) (b : Bool) :
    (x.word b).getLsbD 0 = b ∧ (x.word b).getLsbD 1 = x.done ∧ (x.word b).getLsbD 2 = x.err ∧
      (x.word b).getLsbD 3 = x.ovr ∧ (x.word b).extractLsb' 4 4 = 0 ∧
      ((x.word b).extractLsb' 8 8).toNat = x.errCode.toNat ∧ (x.word b).extractLsb' 16 4 = x.errA ∧
      (x.word b).extractLsb' 20 4 = x.errB ∧ (x.word b).extractLsb' 24 8 = 0 := by
  have hw := x.word_toNat b
  have hcode := x.errCode.toNat_lt
  have ha := x.errA.isLt
  have hb := x.errB.isLt
  have h0 := bit_le b
  have h1 := bit_le x.done
  have h2 := bit_le x.err
  have h3 := bit_le x.ovr
  refine ⟨getLsbD_of_field ?_, getLsbD_of_field ?_, getLsbD_of_field ?_, getLsbD_of_field ?_, extractLsb'_of_field ?_,
    (toNat_extractLsb'_word _ _ _).trans ?_, extractLsb'_of_field ?_, extractLsb'_of_field ?_, extractLsb'_of_field ?_⟩ <;>
    simp only [BitVec.ofNat_eq_ofNat, BitVec.toNat_ofNat, hw] <;> omega

/-- From bit 4 up STATUS shows the error code and indices alone. -/
theorem Status.word_getLsbD_of_four_le {x y : Status} (hc : y.errCode = x.errCode) (ha : y.errA = x.errA) (hb : y.errB = x.errB)
    (b : Bool) {n : Nat} (hn : 4 ≤ n) : (y.word b).getLsbD n = (x.word b).getLsbD n := by
  have hhigh : (y.word b).toNat / 2 ^ 4 = (x.word b).toNat / 2 ^ 4 := by
    have := bit_le b
    have := bit_le x.done
    have := bit_le x.err
    have := bit_le x.ovr
    have := bit_le y.done
    have := bit_le y.err
    have := bit_le y.ovr
    rw [Status.word_toNat, Status.word_toNat, hc, ha, hb]
    omega
  obtain ⟨k, rfl⟩ := Nat.exists_eq_add_of_le' hn
  simp only [BitVec.getLsbD, ← Nat.testBit_div_two_pow, hhigh]

/-- Settles O32: the fields of the word, with R241's codes. -/
theorem statusReadsAsItsFields : Obligations.StatusReadsAsItsFields := by
  intro s
  rw [specErrCode_eq_toNat]
  exact s.status.word_fields s.engine.isBusy

/-! ### What the registers read as -/

theorem ctrlWord_fields (s : State) : s.ctrlWord.getLsbD 0 = s.ie ∧ s.ctrlWord.extractLsb' 1 31 = 0 := by
  have hb := bit_le s.ie
  have hw : s.ctrlWord.toNat = bit s.ie := by
    rw [State.ctrlWord, BitVec.toNat_ofNat]
    omega
  refine ⟨getLsbD_of_field ?_, extractLsb'_of_field ?_⟩ <;>
    simp only [BitVec.ofNat_eq_ofNat, BitVec.toNat_ofNat, hw] <;> omega

/-- The fields of CAPS (R23). -/
theorem capsWord_fields {q : Params} (hq : q.Legal) :
    ((capsWord q).extractLsb' 0 5).toNat = q.log2Nmax ∧ (capsWord q).extractLsb' 5 3 = 0 ∧
      ((capsWord q).extractLsb' 8 5).toNat = q.nctx ∧ (capsWord q).extractLsb' 13 3 = 0 ∧
      (capsWord q).getLsbD 16 = true ∧ (capsWord q).getLsbD 17 = true ∧ (capsWord q).extractLsb' 18 14 = 0 := by
  obtain ⟨-, hlog, -, hctx, -⟩ := hq
  have hw : (capsWord q).toNat = q.log2Nmax + 256 * q.nctx + 65536 + 131072 := by
    rw [capsWord, BitVec.toNat_ofNat]
    omega
  have hbit : bit true = 1 := rfl
  refine ⟨(toNat_extractLsb'_word _ _ _).trans ?_, extractLsb'_of_field ?_, (toNat_extractLsb'_word _ _ _).trans ?_,
    extractLsb'_of_field ?_, getLsbD_of_field ?_, getLsbD_of_field ?_, extractLsb'_of_field ?_⟩ <;>
    simp only [BitVec.ofNat_eq_ofNat, BitVec.toNat_ofNat, hw, hbit] <;> omega

theorem Kind.code_lt (k : Kind) : k.code < 8 := by cases k <;> decide

/-- R30's KIND values are the model's. -/
theorem specKindCode_eq_code (k : Kind) : specKindCode k = k.code := by cases k <;> rfl

theorem Prec.bit_eq_bit_decide (p : Prec) : p.bit = Machine.bit (decide (p = .f64)) := by cases p <;> rfl

/-- The fields of CTXc_CFG (R31). -/
theorem Slot.cfgWord_fields (x : Slot) :
    x.cfgWord.getLsbD 0 = x.valid ∧ (x.cfgWord.extractLsb' 1 3).toNat = x.kind.code ∧
      x.cfgWord.getLsbD 4 = decide (x.prec = .f64) ∧ x.cfgWord.extractLsb' 5 27 = 0 := by
  have hk := x.kind.code_lt
  have hv := bit_le x.valid
  have hp := bit_le (decide (x.prec = .f64))
  have hw : x.cfgWord.toNat = bit x.valid + 2 * x.kind.code + 16 * bit (decide (x.prec = .f64)) := by
    rw [Slot.cfgWord, BitVec.toNat_ofNat, Prec.bit_eq_bit_decide]
    omega
  refine ⟨getLsbD_of_field ?_, (toNat_extractLsb'_word _ _ _).trans ?_, getLsbD_of_field ?_, extractLsb'_of_field ?_⟩ <;>
    simp only [BitVec.ofNat_eq_ofNat, BitVec.toNat_ofNat, hw] <;> omega

theorem State.slot_of_getElem? {s : State} {c : Nat} {x : Slot} (h : s.ctxs[c]? = some x) : s.slot c = x := by
  simp [State.slot, List.getD_eq_getElem?_getD, h]

/-- Settles O36: the packed registers by their fields; the others are the words they hold. -/
theorem registersReadAsTheirFields : Obligations.RegistersReadAsTheirFields := by
  intro s hq
  obtain ⟨hlog, hrsv5, hnctx, hrsv13, hf64, hf32, hrsv18⟩ := capsWord_fields hq
  obtain ⟨hie, hrsv1⟩ := ctrlWord_fields s
  have hsize : (readReg s .dmemSize).toNat = s.params.dmemBytes := by
    obtain ⟨-, -, -, -, -, -, hmax⟩ := hq
    exact (BitVec.toNat_ofNat ..).trans (Nat.mod_eq_of_lt (by omega))
  refine ⟨rfl, rfl, hlog, hrsv5, hnctx, hrsv13, hf64, hf32, hrsv18, hsize, hie, hrsv1, rfl, rfl, rfl, rfl, rfl, rfl, rfl, rfl,
    rfl, rfl, rfl, rfl, rfl, rfl, rfl, fun c => ?_⟩
  obtain ⟨hvalid, hkind, hprec, hrsv⟩ := (s.slot c).cfgWord_fields
  rw [specKindCode_eq_code]
  exact ⟨fun _ => State.slot_of_getElem?, hvalid, hkind, hprec, hrsv, rfl⟩

/-! ### Reads -/

/-- What a register reads as does not depend on the queue, the answer or the host steps left. -/
theorem readReg_pass (s : State) (rest : List HostEvent) (x : Reg) :
    readReg ((s.setEngine s.engine.pass).setHost rest) x = readReg s x := by
  cases x with
  | status => exact congrArg s.status.word (Engine.isBusy_pass s.engine)
  | _ => rfl

/-- Settles O35: a read is found at its register's offset; a WAIT is a read of STATUS. -/
theorem registerReadsAnswerTheRegister : Obligations.RegisterReadsAnswerTheRegister := by
  intro s rest hturn
  refine ⟨fun x hq hx hh => ?_, fun hh => ?_⟩
  · rw [specOffset_eq_offset] at hh
    have hoff := Reg.offset_ok hq hx
    rw [step_of_hostTurn hturn hh (HostEvent.held_reg _ hoff.1)]
    have hread : readOffset ((s.setEngine s.engine.pass).setHost rest) x.offset = readReg s x := by
      simp [readOffset, Reg.ofOffset_offset_of_inFile hq hx, readReg_pass]
    have hstep : hostStep (.bus (.read x.offset 4)) rest (s.setEngine s.engine.pass) =
        .next (((s.setEngine s.engine.pass).setHost rest).reply
          (.value ((readOffset ((s.setEngine s.engine.pass).setHost rest) x.offset).setWidth 64))) := by
      simp [hostStep, transact, regionOf, regAccessOk, hoff]
    rw [hstep, hread]
    rfl
  · have hdone : (readReg s .status).getLsbD 1 = s.status.done := by
      obtain ⟨-, hdone, -⟩ := s.status.word_fields s.engine.isBusy
      exact hdone
    have hread : (s.setEngine s.engine.pass).statusWord = readReg s .status := readReg_pass s rest .status
    rw [step_of_hostTurn hturn hh rfl, hdone, hostStep, hread]
    cases hd : s.status.done with
    | true => simp [hd, State.setHost, State.setAnswer, State.setEngine]
    | false => simp [hd, hh, State.setAnswer, State.setEngine]

/-! ### Writes -/

/-- Settles O33: STATUS takes `Status.write`, which from bit 4 up shows no change. -/
theorem statusWriteClearsOnlyWrittenOnes : Obligations.StatusWriteClearsOnlyWrittenOnes := by
  intro s v rest hturn hh
  refine ⟨s.status.write (v.setWidth 32), step_writeReg (x := .status) hturn rfl (by decide) nofun hh, fun n => ?_⟩
  obtain ⟨hbusy, hdone, herr, hovr, -⟩ := s.status.word_fields s.engine.isBusy
  obtain ⟨hbusy', hdone', herr', hovr', -⟩ := (s.status.write (v.setWidth 32)).word_fields s.engine.isBusy
  rcases Nat.lt_or_ge n 4 with hn | hn
  · rw [State.statusWord]
    interval_cases n
    · rw [hbusy', hbusy]
      simp
    · rw [hdone', hdone]
      simp [Status.write]
    · rw [herr', herr]
      simp [Status.write]
    · rw [hovr', hovr]
      simp [Status.write]
  · have hn' : ¬ (n = 1 ∨ n = 2 ∨ n = 3) := by omega
    rw [Status.word_getLsbD_of_four_le (x := s.status) (y := s.status.write (v.setWidth 32)) rfl rfl rfl _ hn, State.statusWord,
      decide_eq_false hn']
    simp

/-- Settles O39: no arm of a register write answers a read-only register with another state. -/
theorem readOnlyRegistersIgnoreWrites : Obligations.ReadOnlyRegistersIgnoreWrites := by
  intro s x v rest hq hturn hx hro hh
  rw [specOffset_eq_offset] at hh
  rw [step_writeReg hturn (Reg.ofOffset_offset_of_inFile hq hx) (Reg.offset_ok hq hx) (by rintro rfl; exact hro.elim) hh]
  cases x with
  | ctrl | status | cmd | arg0 | bBase | bLen => exact hro.elim
  | _ => rfl

/-- Settles O29: a locked offset is a locked register's, and its write while BUSY is an overrun. -/
theorem lockedWritesWhileBusySetOverrun : Obligations.LockedWritesWhileBusySetOverrun := by
  intro s r n off v rest he hoff hh
  obtain ⟨x, hx, hlocked⟩ := Reg.exists_ofOffset_of_locked hoff s.params
  obtain ⟨-, hle, h4⟩ := hoff
  have hturn : HostTurn s := by simp [HostTurn, he]
  have hbusy : (afterWrite rest (s.setEngine s.engine.pass)).engine.isBusy = true := by
    simp [afterWrite, he, Engine.isBusy, Engine.pass]
  rw [step_writeReg hturn hx ⟨by omega, h4⟩ (by simp [he]) hh, writeReg_locked_busy hlocked hbusy, he]
  rfl

/-- A write to ARG0 or a descriptor register at an IDLE engine stores the value (R28, R29). -/
theorem step_storesLocked {s : State} {off : Nat} {x : Reg} {v : BitVec 64} {rest : List HostEvent} {r : LockedRegs}
    (he : s.engine = .idle) (hx : Reg.ofOffset s.params off = some x) (hoff : off < 0x1000 ∧ off % 4 = 0) (hcmd : x ≠ .cmd)
    (hw : writeReg (v.setWidth 32) (afterWrite rest s) x = writeLocked (afterWrite rest s) r)
    (hh : s.host = .bus (.write off 4 v) :: rest) :
    step s = .next { s with host := rest, answer := some .written, locked := r } := by
  have hturn : HostTurn s := by simp [HostTurn, he]
  have hidle : (afterWrite rest s).engine.isBusy = false := by simp [afterWrite, he, Engine.isBusy]
  rw [step_writeReg hturn hx hoff (fun h => absurd h hcmd) hh, State.setEngine_pass_of_idle he, hw, writeLocked, hidle]
  rfl

/-- Settles O37, register by register. -/
theorem registerWritesStoreTheValue : Obligations.RegisterWritesStoreTheValue := by
  intro s v rest
  refine ⟨fun hturn hh => ?_, fun he => ⟨?_, ?_, ?_, ?_, ?_, ?_, ?_, ?_, ?_⟩⟩
  · rw [step_writeReg (x := .ctrl) hturn rfl (by decide) nofun hh, writeReg, BitVec.getLsbD_setWidth]
    rfl
  · exact step_storesLocked (x := .arg0) he rfl (by decide) nofun rfl
  · exact step_storesLocked (x := .bBase 0) he rfl (by decide) nofun rfl
  · exact step_storesLocked (x := .bLen 0) he rfl (by decide) nofun rfl
  · exact step_storesLocked (x := .bBase 1) he rfl (by decide) nofun rfl
  · exact step_storesLocked (x := .bLen 1) he rfl (by decide) nofun rfl
  · exact step_storesLocked (x := .bBase 2) he rfl (by decide) nofun rfl
  · exact step_storesLocked (x := .bLen 2) he rfl (by decide) nofun rfl
  · exact step_storesLocked (x := .bBase 3) he rfl (by decide) nofun rfl
  · exact step_storesLocked (x := .bLen 3) he rfl (by decide) nofun rfl

/-! ### The interrupt line -/

/-- DONE and the line at the end of a command, failed or completed (R240, R244, R252). -/
theorem done_of_exec_idle {i : Instr} {s t : State} (h : exec i s = .next t) (hidle : t.engine = .idle) :
    t.status.done = true ∧ t.ie = s.ie := by
  rcases exec_next_cases h with ⟨-, rfl⟩ | ⟨r, n, -, rfl⟩
  · cases hcheck : checkOf i s.locked s with
    | none =>
      rw [hcheck] at hidle
      cases hidle
    | some e => exact ⟨rfl, rfl⟩
  · obtain ⟨-, hie, -⟩ := effectOf_frame i r s
    exact ⟨rfl, hie⟩

/-- Settles O34: the line is a view of the two registers, and every end of a command sets DONE. -/
theorem endOfCommandDrivesTheInterruptLine : Obligations.EndOfCommandDrivesTheInterruptLine := by
  refine ⟨fun s => ⟨?_, fun _ _ => rfl⟩, fun i s t h hidle => ?_⟩
  · obtain ⟨hie, -⟩ := ctrlWord_fields s
    obtain ⟨-, hdone, -⟩ := s.status.word_fields s.engine.isBusy
    exact (congrArg₂ and hie hdone).symm
  · obtain ⟨hdone, hie⟩ := done_of_exec_idle h hidle
    exact ⟨hdone, by rw [State.irq, hdone, hie, Bool.and_true]⟩

end Sys2Proof.Machine
end

section
/-! PROOFS. DMEM: which accesses the bus port refuses, holds and performs, what a step does to DMEM, and what a completion
writes. -/

namespace Sys2Proof.Machine

/-! ### Regions and held accesses -/

/-- The DMEM window (R61). -/
theorem regionOf_eq_dmem {q : Params} {off a : Nat} :
    regionOf q off = .dmem a ↔ 0x1000000 ≤ off ∧ off < 0x1000000 + q.dmemBytes ∧ a = off - 0x1000000 := by
  constructor
  · intro h
    unfold regionOf at h
    split_ifs at h with hreg hwin
    rw [dmemWindow] at hwin h
    obtain ⟨hlo, hhi⟩ := hwin
    exact ⟨hlo, hhi, (Region.dmem.inj h).symm⟩
  · rintro ⟨hlo, hhi, ha⟩
    exact ha ▸ regionOf_window hlo hhi

/-- The reserved regions: between the registers and the window, and past the end of DMEM (R61). -/
theorem regionOf_reserved {q : Params} {off : Nat} (h : 0x1000 ≤ off)
    (hwin : off < 0x1000000 ∨ 0x1000000 + q.dmemBytes ≤ off) : regionOf q off = .reserved := by
  rw [regionOf, if_neg (by omega), if_neg (by rw [dmemWindow]; omega)]

/-- A permitted access lies in the window (R61, R70). -/
theorem regionOf_of_dmemAccessOk {q : Params} {a width : Nat} (h : dmemAccessOk q a width = true) :
    regionOf q (0x1000000 + a) = .dmem a := by
  obtain ⟨hwidth, -, hend⟩ := of_decide_eq_true h
  exact regionOf_eq_dmem.2 ⟨by omega, by omega, by omega⟩

/-- An access is held exactly when it is one to the DMEM window (R72). -/
theorem HostEvent.held_bus {op : BusOp} {q : Params} :
    (HostEvent.bus op).held q = true ↔ ∃ a, regionOf q op.offset = .dmem a := by
  cases hr : regionOf q op.offset <;> simp [HostEvent.held, hr]

/-- At an IDLE engine the host's next event is taken, held or not (R72, R253). -/
theorem step_of_idle {s : State} {ev : HostEvent} {rest : List HostEvent} (he : s.engine = .idle) (hh : s.host = ev :: rest) :
    step s = hostStep ev rest s := by
  simp [step, blockStep, he, hh]

/-- While BUSY a held access is not taken: the next step is the completion (R72). -/
theorem step_of_held {s : State} {r : LockedRegs} {n : Nat} {ev : HostEvent} {rest : List HostEvent}
    (he : s.engine = .busy r n) (hh : s.host = ev :: rest) (hheld : ev.held s.params = true) :
    step s = completionStep r s := by
  simp [step, blockStep, engineIsNext, he, hh, hheld]

/-- A completion leaves an IDLE engine, the queue and the parameters (R244). -/
theorem completionStep_frame {s t : State} {r : LockedRegs} {n : Nat} (he : s.engine = .busy r n)
    (h : completionStep r s = .next t) : t.engine = .idle ∧ t.host = s.host ∧ t.params = s.params := by
  rcases completionStep_cases he with ⟨i, -, -, -, hf⟩ | hf
  · obtain rfl := Host.Outcome.next.inj (hf.symm.trans h)
    obtain ⟨hp, -, -, -, -, hhost, -⟩ := effectOf_frame i r s
    exact ⟨rfl, hhost, hp⟩
  · exact absurd (hf.symm.trans h) nofun

/-- A host step while BUSY takes an event that is not held, and lets one host step pass (R72, R286). -/
theorem hostStep_of_step_busy {s t : State} {r : LockedRegs} {n : Nat} (he : s.engine = .busy r n)
    (hn : engineIsNext s n = false) (h : step s = .next t) :
    ∃ ev rest, s.host = ev :: rest ∧ ev.held s.params = false ∧
      hostStep ev rest (s.setEngine (.busy r (n - 1))) = .next t := by
  cases hh : s.host with
  | nil => simp [engineIsNext, hh] at hn
  | cons ev rest =>
    have hheld : ev.held s.params = false := by
      rw [engineIsNext, hh] at hn
      exact (Bool.or_eq_false_iff.1 hn).2
    have hs : step s = hostStep ev rest (s.setEngine (.busy r (n - 1))) := by
      simp [step, blockStep, he, hn, hh, Engine.pass]
    exact ⟨ev, rest, rfl, hheld, hs.symm.trans h⟩

/-! ### Reserved offsets and refused accesses -/

/-- No register lies at a reserved offset (R21, R67). -/
theorem Reg.ofOffset_reserved {q : Params} {off : Nat}
    (h : 0x050 ≤ off ∧ off < 0x080 ∨ 0x080 + 8 * q.nctx ≤ off) : Reg.ofOffset q off = none := by
  unfold Reg.ofOffset
  iterate 20
    refine (if_neg ?_).trans ?_
    · omega
  exact (if_neg (by omega)).trans (if_neg (by omega))

/-- Settles O38: a reserved offset holds no register, so a read finds 0 and a write nothing to change. -/
theorem reservedOffsetsReadZeroAndIgnoreWrites : Obligations.ReservedOffsetsReadZeroAndIgnoreWrites := by
  intro s off v rest hturn halign hres
  have hoff : off < 0x1000 := by omega
  have hnone : Reg.ofOffset s.params off = none := Reg.ofOffset_reserved (by omega)
  refine ⟨fun hh => ?_, fun hh => ?_⟩ <;> rw [step_of_hostTurn hturn hh (HostEvent.held_reg _ hoff)]
  · simp [hostStep, transact, regionOf, regAccessOk, hoff, halign, readOffset, hnone, State.setEngine, State.setHost,
      State.setAnswer]
  · simp [hostStep, transact, regionOf, regAccessOk, hoff, halign, writeOffset, hnone, State.setEngine, State.setHost,
      State.setAnswer]

/-- What the bus port refuses (R66, R70, R250): a wrong width or alignment in its region, or a reserved region. -/
def Refused (q : Params) (off width : Nat) : Prop :=
  match regionOf q off with
  | .reg      => regAccessOk off width = false
  | .dmem a   => dmemAccessOk q a width = false
  | .reserved => True

/-- A refused access answers a bus error and changes nothing else (R250). -/
theorem hostStep_refused {s : State} {op : BusOp} {off width : Nat} {v : BitVec 64} (rest : List HostEvent)
    (hop : op = .read off width ∨ op = .write off width v) (h : Refused s.params off width) :
    hostStep (.bus op) rest s = .next { s with host := rest, answer := some .busError } := by
  have hbus : transact op (s.setHost rest) = .next ((s.setHost rest).reply .busError) := by
    unfold Refused at h
    rcases hop with rfl | rfl <;> cases hr : regionOf s.params off <;> simp_all [transact]
  exact hbus

/-- Settles O40: the accesses it lists are refused ones; those outside the window are never held, and an IDLE engine holds none. -/
theorem badAccessesAnswerABusError : Obligations.BadAccessesAnswerABusError := by
  intro s off width v rest hhost
  obtain ⟨op, hop, hh⟩ : ∃ op : BusOp, (op = .read off width ∨ op = .write off width v) ∧ s.host = .bus op :: rest := by
    rcases hhost with hh | hh
    · exact ⟨_, .inl rfl, hh⟩
    · exact ⟨_, .inr rfl, hh⟩
  have hoff : op.offset = off := by rcases hop with rfl | rfl <;> rfl
  refine ⟨fun hturn hbad => ?_, fun he hlo hhi hbad => ?_⟩
  · have hregion : regionOf s.params off = .reg ∧ regAccessOk off width = false ∨ regionOf s.params off = .reserved := by
      rcases hbad with ⟨hreg, hacc⟩ | hgap | hpast
      · exact .inl ⟨if_pos hreg, decide_eq_false (by omega)⟩
      · exact .inr (regionOf_reserved (by omega) (by omega))
      · exact .inr (regionOf_reserved (by omega) (by omega))
    have href : Refused s.params off width := by
      rcases hregion with ⟨hr, hacc⟩ | hr
      · simpa [Refused, hr] using hacc
      · simp [Refused, hr]
    have hheld : (HostEvent.bus op).held s.params = false := by
      rcases hregion with ⟨hr, -⟩ | hr <;> simp [HostEvent.held, hoff, hr]
    rw [step_of_hostTurn hturn hh hheld]
    exact hostStep_refused rest hop href
  · have href : Refused s.params off width := by
      rw [Refused, regionOf_window hlo hhi]
      refine decide_eq_false fun ⟨hwidth, halign, hend⟩ => ?_
      rcases hbad with hbad | hbad | hbad
      · exact hbad hwidth
      · exact hbad halign
      · exact Nat.not_le.2 hbad hend
    rw [step_of_idle he hh]
    exact hostStep_refused rest hop href

/-! ### Accesses to DMEM -/

/-- A permitted read of the window at an IDLE engine (R62, R70, R74). -/
theorem step_read_window {s : State} {a width : Nat} {rest : List HostEvent} (he : s.engine = .idle)
    (hok : dmemAccessOk s.params a width = true) (hh : s.host = .bus (.read (0x1000000 + a) width) :: rest) :
    step s = .next { s with
      host := rest
      draws := s.draws + width
      answer := some (.value (BitVec.ofNat 64 (s.dmem.load width a s.draws))) } := by
  rw [step_of_idle he hh]
  simp [hostStep, transact, regionOf_of_dmemAccessOk hok, hok, State.setHost, State.setDraws, State.setAnswer]

/-- A permitted write to the window at an IDLE engine (R62, R70). -/
theorem step_write_window {s : State} {a width : Nat} {v : BitVec 64} {rest : List HostEvent} (he : s.engine = .idle)
    (hok : dmemAccessOk s.params a width = true) (hh : s.host = .bus (.write (0x1000000 + a) width v) :: rest) :
    step s = .next { s with host := rest, dmem := s.dmem.store width a v.toNat, answer := some .written } := by
  rw [step_of_idle he hh]
  simp [hostStep, transact, regionOf_of_dmemAccessOk hok, hok, State.setHost, State.setDmem, State.setAnswer]

/-- The answer to a read of DMEM spells the bytes it loads, each as its own draw, zero-extended (R62, R74). -/
theorem Memory.answer_bytes (m : Memory) {width : Nat} (hwidth : width ≤ 8) (a t : Nat) :
    (BitVec.ofNat 64 (m.load width a t)).toNat < 2 ^ (8 * width) ∧
      ∀ i < width, (BitVec.ofNat 64 (m.load width a t)).extractLsb' (8 * i) 8 = m.read (a + i) (t + i) := by
  have hlt : m.load width a t < 2 ^ (8 * width) := by
    rw [Nat.pow_mul]
    exact m.load_lt width a t
  have h64 : (BitVec.ofNat 64 (m.load width a t)).toNat = m.load width a t :=
    Nat.mod_eq_of_lt (hlt.trans_le (Nat.pow_le_pow_right (by decide) (by omega)))
  refine ⟨h64.symm ▸ hlt, fun i hi => ?_⟩
  rw [extractLsb'_byte_eq_ofNat, h64]
  exact BitVec.eq_of_toNat_eq (by rw [← Memory.load_byte m width a t i hi, BitVec.toNat_ofNat])

/-- Settles O59: a write stores the bytes of its value, a read answers the bytes it loads. -/
theorem hostDmemAccessesMoveLittleEndianBytes : Obligations.HostDmemAccessesMoveLittleEndianBytes := by
  intro s a width v rest he hwidth halign hend
  have hok : dmemAccessOk s.params a width = true := decide_eq_true ⟨hwidth, halign, hend⟩
  exact ⟨fun hh => ⟨_, step_write_window he hok hh,
      fun i hi => (extractLsb'_byte_eq_ofNat v i).symm ▸ s.dmem.byteAt?_store_inside width a v.toNat i hi,
      fun b hb => s.dmem.byteAt?_store_outside width a v.toNat b hb⟩,
    fun hh => ⟨_, step_read_window he hok hh, s.dmem.answer_bytes (by omega) a s.draws⟩⟩

/-- Settles O43: a one-byte read of a byte nothing has written loads the draw itself. -/
theorem unwrittenByteReadsAsItsOwnDraw : Obligations.UnwrittenByteReadsAsItsOwnDraw := by
  intro s a rest he ha hnone hh
  have hok : dmemAccessOk s.params a 1 = true := decide_eq_true ⟨.inl rfl, Nat.mod_one a, ha⟩
  have hload : s.dmem.load 1 a s.draws = (Config.freeByte s.draws).toNat := by
    have hread : s.dmem.byteAt? a = none := hnone
    simp [Memory.load, Memory.read, hread]
  rw [step_read_window he hok hh, hload, BitVec.ofNat_toNat]

/-- Settles O42: the access is held, so the step is the completion, which leaves the queue and an IDLE engine to perform it. -/
theorem dmemAccessesAreHeldUntilCompletion : Obligations.DmemAccessesAreHeldUntilCompletion := by
  intro s t r n off width v rest _ he hlo hend hwidth halign hstep
  obtain ⟨a, rfl⟩ := Nat.exists_eq_add_of_le hlo
  rw [Nat.add_sub_cancel_left] at hend halign ⊢
  have hok : dmemAccessOk s.params a width = true := decide_eq_true ⟨hwidth, halign, hend⟩
  have hcompletes : ∀ op : BusOp, op.offset = 0x1000000 + a → s.host = .bus op :: rest →
      completionStep r s = .next t ∧ t.engine = .idle ∧ t.host = s.host ∧ t.params = s.params := by
    intro op hop hh
    have hheld : (HostEvent.bus op).held s.params = true :=
      HostEvent.held_bus.2 ⟨a, hop ▸ regionOf_of_dmemAccessOk hok⟩
    have hc : completionStep r s = .next t := (step_of_held he hh hheld).symm.trans hstep
    exact ⟨hc, completionStep_frame he hc⟩
  refine ⟨fun hh => ?_, fun hh => ?_, fun hh => ?_⟩
  · obtain ⟨hc, hidle, hhost, -⟩ := hh.elim (hcompletes _ rfl) (hcompletes _ rfl)
    exact ⟨hc, hidle, hhost⟩
  · obtain ⟨-, hidle, hhost, hp⟩ := hcompletes _ rfl hh
    exact step_read_window hidle (hp ▸ hok) (hhost.trans hh)
  · obtain ⟨-, hidle, hhost, hp⟩ := hcompletes _ rfl hh
    exact step_write_window hidle (hp ▸ hok) (hhost.trans hh)

/-! ### What a step does to DMEM -/

/-- What a host step can do to DMEM: nothing, the store of a write to the window (R69), a reset. -/
theorem hostStep_dmem_cases {ev : HostEvent} {rest : List HostEvent} {s t : State} (h : hostStep ev rest s = .next t) :
    t.dmem = s.dmem ∨
      (∃ off width v, ev = .bus (.write off width v) ∧ regionOf s.params off = .dmem (off - 0x1000000) ∧
        t.dmem = s.dmem.store width (off - 0x1000000) v.toNat) ∨
      ev = .reset := by
  obtain ⟨u, hu, hcases⟩ := hostStep_cases ev rest s
  obtain rfl := Host.Outcome.next.inj (hu.symm.trans h)
  rcases hcases with ⟨-, -, -, -, -, -, hm, -⟩ | ⟨off, width, v, hev, hr, -, rfl⟩ | ⟨_, v, x, -, -, -, rfl⟩ |
    ⟨-, v, i, -, -, rfl⟩ | ⟨-, v, e, -, -, rfl⟩ | ⟨hev, -⟩
  · exact .inl hm
  · exact .inr (.inl ⟨off, width, v, hev, hr, rfl⟩)
  · obtain ⟨-, -, -, hm, -⟩ := writeReg_frame (v.setWidth 32) (afterWrite rest s) x
    exact .inl hm
  · obtain ⟨-, -, -, -, hm, -⟩ := issueCommand_frame (encode i) (checkOf i s.locked s) (afterWrite rest s)
    exact .inl hm
  · obtain ⟨-, -, -, -, hm, -⟩ := issueCommand_frame (v.setWidth 32) (some ⟨.illegal, 0, 0⟩) (afterWrite rest s)
    exact .inl hm
  · exact .inr (.inr hev)

/-- A host step other than reset while BUSY leaves the running command and the registers it runs on (R37, R79). -/
theorem hostStep_busy_frame {ev : HostEvent} {rest : List HostEvent} {s t : State} (h : hostStep ev rest s = .next t)
    (hb : s.engine.isBusy = true) (hev : ev ≠ .reset) : t.locked = s.locked ∧ t.engine = s.engine := by
  have hidle : s.engine ≠ .idle := fun he => by simp [he, Engine.isBusy] at hb
  obtain ⟨u, hu, hcases⟩ := hostStep_cases ev rest s
  obtain rfl := Host.Outcome.next.inj (hu.symm.trans h)
  rcases hcases with ⟨-, -, -, hl, -, -, -, he⟩ | ⟨_, _, _, -, -, -, rfl⟩ | ⟨_, v, x, -, -, -, rfl⟩ | ⟨he, -⟩ | ⟨he, -⟩ |
    ⟨hreset, -⟩
  · exact ⟨hl, he⟩
  · exact ⟨rfl, rfl⟩
  · obtain ⟨-, -, -, -, he, -⟩ := writeReg_frame (v.setWidth 32) (afterWrite rest s) x
    exact ⟨writeReg_locked_of_busy (s := afterWrite rest s) hb _ x, he⟩
  · exact absurd he hidle
  · exact absurd he hidle
  · exact absurd hreset hev

/-- Settles O31: of the host steps that reach DMEM, a reset is excluded and a write to the window is held. -/
theorem hostCannotDisturbARunningCommand : Obligations.HostCannotDisturbARunningCommand := by
  intro s t r n he hn hnoreset hstep
  obtain ⟨ev, rest, hh, hheld, hhost⟩ := hostStep_of_step_busy he hn hstep
  have hev : ev ≠ .reset := fun hr => hnoreset rest (hr ▸ hh)
  obtain ⟨hp, hres, hctxs⟩ := hostStep_frame hhost hev
  obtain ⟨hl, hengine⟩ := hostStep_busy_frame hhost rfl hev
  have hm : t.dmem = s.dmem := by
    rcases hostStep_dmem_cases hhost with hm | ⟨off, width, v, rfl, hr, -⟩ | hr
    · exact hm
    · exact absurd ((HostEvent.held_bus (op := .write off width v)).2 ⟨_, hr⟩) (by simp [hheld])
    · exact absurd hr hev
  exact ⟨hm, hctxs, hres, hl, hp, hengine⟩

/-- Settles O27: by the kinds of step; a store changes only the bytes it covers, an effect only those of its buffers. -/
theorem dmemChangesOnlyByItsWriters : Obligations.DmemChangesOnlyByItsWriters := by
  intro s t a hstep hne
  rcases step_next_cases hstep with rfl | ⟨ev, rest, hh, hhost⟩ | ⟨r, n, i, he, hd, -, rfl⟩
  · exact absurd rfl hne
  · rcases hostStep_dmem_cases hhost with hm | ⟨off, width, v, rfl, hr, hm⟩ | rfl
    · exact absurd (congrArg (Memory.byteAt? · a) hm) hne
    · obtain ⟨hlo, -⟩ := regionOf_eq_dmem.1 hr
      have hcovers : ¬ (a < off - 0x1000000 ∨ off - 0x1000000 + width ≤ a) := fun hout =>
        hne ((congrArg (Memory.byteAt? · a) hm).trans (Memory.byteAt?_store_outside _ _ _ _ _ hout))
      exact .inl ⟨off, width, v, rest, hh, hlo, by omega, by omega⟩
    · exact .inr (.inr ⟨rest, hh⟩)
  · refine .inr (.inl ?_)
    by_contra hnone
    exact hne (effectOf_outside i r s a fun k m hk hin => hnone ⟨r, n, i, k, m, he, hd, hk, hin⟩)

/-- Settles O23: the listed buffers are those of `writesOf`, outside which an effect leaves every byte. -/
theorem completionWritesOnlyItsOutputBuffers : Obligations.CompletionWritesOnlyItsOutputBuffers := by
  intro i s t r m a he hexec n hout
  obtain ⟨r', m', he', rfl⟩ : ∃ r' m', s.engine = .busy r' m' ∧ t = finishCommand (effectOf i r' s) := by
    rcases exec_next_cases hexec with ⟨hidle, -⟩ | h
    · exact absurd (he.symm.trans hidle) nofun
    · exact h
  obtain ⟨rfl, -⟩ := Engine.busy.inj (he.symm.trans he')
  refine effectOf_outside i r s a fun k len hk => ?_
  cases i with
  | cfgFft | cfgRfft | cfgGz | cfgDht | gzDir => cases hk
  | fftDir | fftInv | fftInvn | rfftDir | rfftDirc =>
    obtain ⟨hfst, hsnd⟩ := hout
    rcases List.mem_pair.1 hk with h | h
    · cases h
      exact hfst
    · cases h
      exact hsnd
  | fftShift | rfftInv | rfftInvn | dhtDir | dhtInvn =>
    cases List.mem_singleton.1 hk
    exact hout

end Sys2Proof.Machine
end

section
/-! PROOFS. The encoding: a word is the sum of its fields, the legal words are the words of the well-formed commands, the rows of
the opcode table select them, and a program's operations carry them. -/

namespace Sys2Proof

/-! ### A word and its fields -/

theorem Instr.op_bounds (i : Instr) : 1 ≤ i.op ∧ i.op ≤ 15 := by cases i <;> simp [Instr.op]

theorem bit_precField (w : Word) : (precField w).bit = w.toNat / 4096 % 2 := by
  rw [precField]
  split
  · next h => exact h.symm
  · next h => exact (Nat.mod_two_ne_zero.1 h).symm

/-- The five fields of R90 cover the word. -/
theorem word_toNat_eq_fields (w : Word) :
    w.toNat = opField w + 32 * rsv0Field w + 256 * ctxField w + 4096 * (precField w).bit + 8192 * rsv1Field w := by
  rw [bit_precField, opField, rsv0Field, ctxField, rsv1Field]
  omega

/-- R99: a word that decodes is the word of its command. -/
theorem encode_of_decodeWord {w : Word} {i : Instr} (h : decodeWord w = .ok i) : encode i = w := by
  have hwf := Machine.wellFormed_of_decodeWord h
  obtain ⟨hrsv0, hrsv1, hop, hctx, hprec⟩ := decodeWord_eq_ok.1 h
  have hw := word_toNat_eq_fields w
  rw [hrsv0, hrsv1, hop, hctx, hprec] at hw
  apply BitVec.eq_of_toNat_eq
  rw [encode_toNat hwf, hw]
  omega

/-- Every operation code of R94 is a command's, with any context and precision but FFT_SHIFT's context (R91). -/
theorem exists_instr_of_fields {op c : Nat} (p : Prec) (h1 : 1 ≤ op) (h15 : op ≤ 15) (hshift : op ≠ 8 ∨ c = 0) :
    ∃ i : Instr, i.op = op ∧ i.ctx = c ∧ i.prec = p := by
  interval_cases op
  · exact ⟨.cfgFft c p, rfl, rfl, rfl⟩
  · exact ⟨.cfgRfft c p, rfl, rfl, rfl⟩
  · exact ⟨.cfgGz c p, rfl, rfl, rfl⟩
  · exact ⟨.cfgDht c p, rfl, rfl, rfl⟩
  · exact ⟨.fftDir c p, rfl, rfl, rfl⟩
  · exact ⟨.fftInv c p, rfl, rfl, rfl⟩
  · exact ⟨.fftInvn c p, rfl, rfl, rfl⟩
  · exact ⟨.fftShift p, rfl, (hshift.resolve_left (· rfl)).symm, rfl⟩
  · exact ⟨.rfftDir c p, rfl, rfl, rfl⟩
  · exact ⟨.rfftDirc c p, rfl, rfl, rfl⟩
  · exact ⟨.rfftInv c p, rfl, rfl, rfl⟩
  · exact ⟨.rfftInvn c p, rfl, rfl, rfl⟩
  · exact ⟨.gzDir c p, rfl, rfl, rfl⟩
  · exact ⟨.dhtDir c p, rfl, rfl, rfl⟩
  · exact ⟨.dhtInvn c p, rfl, rfl, rfl⟩

/-- FFT_SHIFT, operation code 8, is the one command without a context (R91). -/
theorem Instr.ctx_of_op {i : Instr} : i.op ≠ 8 ∨ i.ctx = 0 := by
  cases i with
  | fftShift p => exact .inr rfl
  | _ => exact .inl (by simp [Instr.op])

/-- R97: exactly the legal words decode. -/
theorem exists_decodeWord_iff {w : Word} : (∃ i, decodeWord w = .ok i) ↔ LegalWord w := by
  constructor
  · rintro ⟨i, h⟩
    obtain ⟨hrsv0, hrsv1, hop, hctx, -⟩ := decodeWord_eq_ok.1 h
    obtain ⟨h1, h15⟩ := i.op_bounds
    rw [LegalWord, hop, hctx]
    exact ⟨hrsv0, hrsv1, h1, h15, Instr.ctx_of_op⟩
  · rintro ⟨hrsv0, hrsv1, h1, h15, hshift⟩
    obtain ⟨i, hop, hctx, hprec⟩ := exists_instr_of_fields (precField w) h1 h15 hshift
    exact ⟨i, decodeWord_eq_ok.2 ⟨hrsv0, hrsv1, hop.symm, hctx.symm, hprec.symm⟩⟩

/-- R97's legal words, on the bits. -/
theorem legalWord_iff_bits {w : Word} :
    LegalWord w ↔
      w.extractLsb' 5 3 = 0 ∧ w.extractLsb' 13 19 = 0 ∧ 1 ≤ (w.extractLsb' 0 5).toNat ∧ (w.extractLsb' 0 5).toNat ≤ 15 ∧
        ((w.extractLsb' 0 5).toNat ≠ 8 ∨ w.extractLsb' 8 4 = 0) := by
  have hlt := w.isLt
  have hrsv1 : w.toNat / 2 ^ 13 % 2 ^ 19 = rsv1Field w := Nat.mod_eq_of_lt (by omega)
  have hop : w.toNat / 2 ^ 0 % 2 ^ 5 = opField w := by rw [pow_zero, Nat.div_one]; rfl
  simp only [← BitVec.toNat_inj, Machine.toNat_extractLsb'_word, hrsv1, hop]
  rfl

/-! ### The opcode table -/

/-- A mask of two runs of ones, `a` bits from bit 0 up and `b` bits from bit `k` up. -/
theorem and_two_runs (x : Nat) {a k : Nat} (b : Nat) (h : a ≤ k) :
    x &&& (2 ^ k * (2 ^ b - 1) + (2 ^ a - 1)) = 2 ^ k * (x / 2 ^ k % 2 ^ b) + x % 2 ^ a := by
  have hpow : 2 ^ a ≤ 2 ^ k := Nat.pow_le_pow_right (by decide) h
  have hlow : 2 ^ a - 1 < 2 ^ k := by have := Nat.two_pow_pos a; omega
  rw [← Nat.div_add_mod (x &&& _) (2 ^ k), Nat.and_div_two_pow, Nat.and_mod_two_pow, Nat.mul_add_mod,
    Nat.mod_eq_of_lt hlow, Nat.mul_add_div (Nat.two_pow_pos k), Nat.div_eq_of_lt hlow, Nat.add_zero,
    Nat.and_two_pow_sub_one_eq_mod, Nat.and_two_pow_sub_one_eq_mod, Nat.mod_mod_of_dvd _ (Nat.pow_dvd_pow 2 h)]

/-- The row of a command: every field is fixed but CTX and PREC, and for FFT_SHIFT every field but PREC (R95). -/
def Instr.row (i : Instr) : OpRow :=
  ⟨i.mnemonic, if i.op = 8 then 0xFFFFEFFF else 0xFFFFE0FF, BitVec.ofNat 32 i.op⟩

/-- The table lists the rows in the order of the operation codes (R94). -/
theorem opTable_getElem?_op (i : Instr) : opTable[i.op - 1]? = some i.row := by cases i <;> rfl

theorem Instr.row_congr {i j : Instr} (h : i.op = j.op) : i.row = j.row :=
  Option.some.inj ((opTable_getElem?_op i).symm.trans (h ▸ opTable_getElem?_op j))

theorem mem_opTable {row : OpRow} : row ∈ opTable ↔ ∃ i : Instr, i.row = row := by
  constructor
  · intro h
    obtain ⟨k, hrow⟩ := List.mem_iff_getElem?.1 h
    have hk : k < 15 := (List.getElem?_eq_some_iff.1 hrow).1
    obtain ⟨i, hop, -, -⟩ := exists_instr_of_fields (op := k + 1) (c := 0) .f32 (by omega) (by omega) (.inr rfl)
    have hi := opTable_getElem?_op i
    rw [hop, Nat.add_sub_cancel, hrow] at hi
    exact ⟨i, (Option.some.inj hi).symm⟩
  · rintro ⟨i, rfl⟩
    exact List.mem_of_getElem? (opTable_getElem?_op i)

/-- R95: what a row's mask and pattern say of the fields of a word. -/
theorem Instr.row_selects_iff {i : Instr} {w : Word} :
    w &&& i.row.mask = i.row.pattern ↔
      rsv0Field w = 0 ∧ rsv1Field w = 0 ∧ opField w = i.op ∧ (opField w ≠ 8 ∨ ctxField w = 0) := by
  have hlt := w.isLt
  have hop := i.op_bounds
  have hand : ∀ mask : Word, w &&& mask = i.row.pattern ↔ w.toNat &&& mask.toNat = i.op := by
    intro mask
    rw [← BitVec.toNat_inj, BitVec.toNat_and, Instr.row, BitVec.toNat_ofNat, Nat.mod_eq_of_lt (by omega)]
  rw [hand, rsv0Field, rsv1Field, opField, ctxField, Instr.row]
  split
  · have hmask : w.toNat &&& (0xFFFFEFFF : Word).toNat = 8192 * (w.toNat / 8192 % 524288) + w.toNat % 4096 :=
      and_two_runs w.toNat (a := 12) (k := 13) 19 (by decide)
    rw [hmask]
    omega
  · have hmask : w.toNat &&& (0xFFFFE0FF : Word).toNat = 8192 * (w.toNat / 8192 % 524288) + w.toNat % 256 :=
      and_two_runs w.toNat (a := 8) (k := 13) 19 (by decide)
    rw [hmask]
    omega

end Sys2Proof

namespace Sys2Proof.Machine

/-- Settles O1: the decoder's one lemma, at the fields of the word. -/
theorem decodeOfEncodeIsTheCommand : Obligations.DecodeOfEncodeIsTheCommand := by
  intro i rest h
  have hword := decodeWord_encode h
  exact ⟨hword, by rw [decode_bytesOfWord, hword]; rfl⟩

/-- Settles O2: the word is the sum of its fields, and these are the command's. -/
theorem encodeOfDecodeIsTheWord : Obligations.EncodeOfDecodeIsTheWord := fun _ _ h =>
  ⟨encode_of_decodeWord h, wellFormed_of_decodeWord h⟩

/-- Settles O4: the rows are the commands' own, and a row selects the words that have its command's fixed fields. -/
theorem maskAndPatternSelectTheCommand : Obligations.MaskAndPatternSelectTheCommand := by
  intro w m
  constructor
  · rintro ⟨i, hd, rfl⟩
    obtain ⟨hrsv0, hrsv1, hop, hctx, -⟩ := decodeWord_eq_ok.1 hd
    refine ⟨i.row, mem_opTable.2 ⟨i, rfl⟩, rfl, Instr.row_selects_iff.2 ⟨hrsv0, hrsv1, hop, ?_⟩⟩
    rw [hop, hctx]
    exact Instr.ctx_of_op
  · rintro ⟨row, hrow, rfl, hsel⟩
    obtain ⟨i, rfl⟩ := mem_opTable.1 hrow
    obtain ⟨hrsv0, hrsv1, hop, hshift⟩ := Instr.row_selects_iff.1 hsel
    obtain ⟨h1, h15⟩ := i.op_bounds
    obtain ⟨j, hj⟩ := exists_decodeWord_iff.2 ⟨hrsv0, hrsv1, hop ▸ h1, hop ▸ h15, hshift⟩
    obtain ⟨-, -, hopj, -⟩ := decodeWord_eq_ok.1 hj
    exact ⟨j, hj, congrArg OpRow.mnemonic (Instr.row_congr (hopj.symm.trans hop))⟩

/-! ### Words and expansions -/

/-- The word of R99 as the encoder adds it up. -/
theorem specWord_eq (i : Instr) : specWord i = i.op + i.ctx * 256 + i.prec.bit * 4096 := by
  have hprec : ∀ p, specWord.precBit p = p.bit * 4096 := fun p => by cases p <;> rfl
  cases i <;> simp only [specWord, Instr.op, Instr.ctx, Instr.prec, hprec] <;> omega

theorem assemble_of_wellFormed {i : Instr} (h : i.WellFormed) : assemble i = some (encode i) := if_pos h

theorem assemble_of_ctx_above {i : Instr} (h : 15 < i.ctx) : assemble i = none := if_neg (Nat.not_lt.2 h)

theorem length_fill (p : Prec) (off : Nat) (v : List (Fp p)) : (fill p off v).length = v.length := by
  induction v generalizing off with
  | nil => rfl
  | cons x v ih => simp [fill, wrm, ih]

/-- FILL writes element `i` at its own offset (R102). -/
theorem getElem?_fill (p : Prec) (off : Nat) (v : List (Fp p)) {i : Nat} (hi : i < v.length) :
    (fill p off v)[i]? =
      some (.bus (.write (0x1000000 + (off + elemBytes p * i)) (elemBytes p) (BitVec.setWidth 64 (at0 v i)))) := by
  induction v generalizing off i with
  | nil => exact absurd hi (Nat.not_lt_zero i)
  | cons x v ih =>
    cases i with
    | zero =>
      rw [fill, BitVec.ofNat_toNat]
      rfl
    | succ i =>
      have hoff : off + elemBytes p * (i + 1) = off + elemBytes p + elemBytes p * i := by rw [Nat.mul_succ]; omega
      rw [hoff]
      exact ih _ (Nat.lt_of_succ_lt_succ hi)

/-- Settles O5: the words by R99's sum, FILL by induction, and the rest as the definitions stand. -/
theorem workedEncodingsAndExpansions : Obligations.WorkedEncodingsAndExpansions := by
  have hwords : ∀ i : Instr, (i.WellFormed → (encode i).toNat = specWord i ∧ assemble i = some (encode i)) ∧
      (15 < i.ctx → assemble i = none) := fun i =>
    ⟨fun h => ⟨(encode_toNat h).trans (specWord_eq i).symm, assemble_of_wellFormed h⟩, assemble_of_ctx_above⟩
  refine ⟨hwords, fun x v => ?_, fun _ _ _ => ⟨rfl, rfl⟩, fun _ _ => ⟨rfl, rfl, rfl⟩, rfl, rfl, fun k base len => ?_,
    fun p off v => ⟨length_fill p off v, fun i hi => ?_⟩,
    rfl, rfl, rfl, rfl, rfl, rfl, rfl, rfl, rfl, rfl, rfl, rfl, rfl, rfl⟩
  · rw [specOffset_eq_offset]
    exact ⟨rfl, rfl⟩
  · rw [specOffset_eq_offset, specOffset_eq_offset]
    rfl
  · rw [specElemBytes_eq_elemBytes]
    exact getElem?_fill p off v hi

end Sys2Proof.Machine
end

section
/-! PROOFS. The CMD write at an IDLE engine: an illegal word ends with ILLEGAL, and a command with the first error, in the order of
R247, whose condition holds, or in its acceptance. -/

namespace Sys2Proof.Machine

/-! ### Illegal words -/

/-- The two ends of a CMD write at an IDLE engine (R240, R243). -/
theorem issueCommand_some (w : Word) (e : CmdError) (s : State) : issueCommand w (some e) s = failedState w e s := rfl

theorem issueCommand_none (w : Word) (s : State) : issueCommand w none s = acceptedState w s := rfl

/-- The write of a word that spells no command (R97, R243). -/
theorem writeCmd_illegal {w : Word} {s : State} (he : s.engine = .idle) (h : ∀ i, decodeWord w ≠ .ok i) :
    writeCmd w s = .next (failedState w ⟨.illegal, 0, 0⟩ s) := by
  rcases writeCmd_cases w s with ⟨r, n, hbusy, -⟩ | ⟨-, i, hd, -⟩ | ⟨-, e, -, hw⟩
  · exact absurd (he.symm.trans hbusy) nofun
  · exact absurd hd (h i)
  · rw [hw, issueCommand_some]

/-- The write over the bus, at an IDLE engine (R66, R69). -/
theorem step_writeCmd {s : State} {v : BitVec 64} {rest : List HostEvent} (he : s.engine = .idle)
    (hh : s.host = .bus (.write 0x018 4 v) :: rest) : step s = writeCmd (v.setWidth 32) (afterWrite rest s) :=
  step_of_idle he hh

theorem step_writeCmd_illegal {s : State} {v : BitVec 64} {rest : List HostEvent} (he : s.engine = .idle)
    (h : ∀ i, decodeWord (v.setWidth 32) ≠ .ok i) (hh : s.host = .bus (.write 0x018 4 v) :: rest) :
    step s = .next (failedState (v.setWidth 32) ⟨.illegal, 0, 0⟩ { s with host := rest, answer := some .written }) :=
  (step_writeCmd he hh).trans (writeCmd_illegal (s := afterWrite rest s) he h)

/-- Settles O3: legality is that of the fields, and ILLEGAL is code 1. -/
theorem exactlyTheLegalWordsAreCommands : Obligations.ExactlyTheLegalWordsAreCommands := by
  intro w
  refine ⟨exists_decodeWord_iff.trans legalWord_iff_bits, fun h s he => ⟨writeCmd_illegal he h, ?_, ?_⟩⟩
  · obtain ⟨-, -, -, -, -, hcode, -⟩ := (failedState w ⟨.illegal, 0, 0⟩ s).status.word_fields s.engine.isBusy
    exact BitVec.eq_of_toNat_eq hcode
  · rintro v rest rfl hh
    exact step_writeCmd_illegal he h hh

/-! ### The first failing check -/

/-- The first error of a list whose condition holds (R247). -/
def firstError (l : List (Bool × CmdError)) : Option CmdError := (l.find? fun x => x.1).map Prod.snd

@[simp] theorem firstError_nil : firstError [] = none := rfl

@[simp] theorem firstError_cons (b : Bool) (e : CmdError) (l : List (Bool × CmdError)) :
    firstError ((b, e) :: l) = if b then some e else firstError l := by cases b <;> rfl

theorem firstError_append (l m : List (Bool × CmdError)) : firstError (l ++ m) = (firstError l).or (firstError m) := by
  rw [firstError, List.find?_append, Option.map_or]
  rfl

/-- A list of tests of one kind, over the descriptors or their pairs. -/
theorem firstError_map {α : Type} (u : List α) (q : α → Prop) [DecidablePred q] (f : α → CmdError) :
    firstError (u.map fun x => (decide (q x), f x)) = u.findSome? fun x => if q x then some (f x) else none := by
  induction u with
  | nil => rfl
  | cons x u ih => by_cases hx : q x <;> simp [hx, ih]

/-- The context errors in the order R246 tests them, as `specErrors` lists them. -/
def contextErrors (c : Nat) (kind : Kind) (p : Prec) (s : State) : List (Bool × CmdError) :=
  [(decide (s.params.nctx ≤ c), ⟨.ctxRange, 0, 0⟩), (!(s.slot c).valid, ⟨.notConfigured, 0, 0⟩),
    (decide ((s.slot c).kind ≠ kind), ⟨.kind, 0, 0⟩), (decide ((s.slot c).prec ≠ p), ⟨.prec, 0, 0⟩)]

/-- check_ctx reports the first of them. -/
theorem checkCtx_eq_firstError (c : Nat) (kind : Kind) (p : Prec) (s : State) :
    checkCtx c kind p s = firstError (contextErrors c kind p s) := by
  simp [checkCtx, contextErrors]

/-- Spans that share a byte are those that are not apart (R65). -/
theorem overlaps_iff_not_apart (s : State) (p : Prec) (k l : Fin 4) :
    (s.locked.desc k).overlaps (s.locked.desc l) p = true ↔ ¬ Apart s p k l := by
  rw [Desc.overlaps, decide_eq_true_eq]
  simp only [Apart, Desc.start, Desc.stop]
  omega

/-- The overlap checks go through the pairs in increasing order (R242). -/
theorem overlapError_eq_firstError (p : Prec) (s : State) (u : Uses) :
    overlapError s.locked p u =
      firstError ((pairsOf u).map fun x => (decide (¬ Apart s p x.1.1 x.2.1), ⟨.overlap, x.1.1, x.2.1⟩)) := by
  induction u with
  | nil => rfl
  | cons x u ih =>
    rw [overlapError, pairsOf, List.map_append, firstError_append, List.map_map, ← ih]
    simp only [overlaps_iff_not_apart]
    exact congrArg (Option.or · _) (firstError_map u (fun y => ¬ Apart s p x.1 y.1) _).symm

/-- check_bufs, in R242's order. -/
theorem checkBufs_eq_firstError (p : Prec) (s : State) (u : Uses) :
    checkBufs s.locked p s.params.dmemBytes u = firstError (bufferErrors p s u) := by
  have halign : alignError s.locked p u = firstError
      (u.map fun x => (decide ((s.locked.desc x.1).base.toNat % elemBytes p ≠ 0), ⟨.align, x.1, 0⟩)) := by
    simp only [firstError_map, alignError, Desc.aligned, decide_eq_false_iff_not, ne_eq]
  have hrange : rangeError s.locked p s.params.dmemBytes u = firstError
      (u.map fun x => (decide (s.params.dmemBytes < (s.locked.desc x.1).base.toNat +
        elemBytes p * (s.locked.desc x.1).len.toNat), ⟨.range, x.1, 0⟩)) := by
    simp only [firstError_map, rangeError, Desc.inRange, decide_eq_false_iff_not, not_le]
    rfl
  rw [bufferErrors, firstError_append, firstError_append, firstError_append, firstError_map, ← halign, ← hrange,
    ← overlapError_eq_firstError, Option.or_assoc, Option.or_assoc]
  rfl

/-- A configuration command's checks, in R247's order; its size check is its kind's (R160 to R163). -/
theorem checkConfig_eq_firstError (c : Nat) (kind : Kind) (ok : Nat → Bool) (s : State)
    (hok : ∀ n, badSize kind s.params n = (decide (n = 0) || decide (2 ^ s.params.log2Nmax < n) || !ok n)) :
    checkConfig c ok s.locked s = firstError
      [(decide (s.params.nctx ≤ c), ⟨.ctxRange, 0, 0⟩), (badSize kind s.params s.locked.arg0.toNat, ⟨.size, 0, 0⟩)] := by
  rw [checkConfig, firstError_cons, firstError_cons, firstError_nil, hok]
  exact if_congr decide_eq_true_iff.symm rfl (if_congr (by simp [Params.nmax, or_assoc]) rfl rfl)

/-- The checks of a transform command: the context, then the buffers (R246, R242). -/
theorem checkTransform_eq_firstError (c : Nat) (kind : Kind) (p : Prec) (s : State) (u : Uses) :
    (checkCtx c kind p s).or (checkBufs s.locked p s.params.dmemBytes u) =
      firstError (contextErrors c kind p s ++ bufferErrors p s u) := by
  rw [firstError_append, ← checkCtx_eq_firstError, ← checkBufs_eq_firstError]

/-- The checks of every command report the first error, in R247's order, whose condition holds. -/
theorem checkOf_eq_firstError (i : Instr) (s : State) : checkOf i s.locked s = firstError (specErrors i s) := by
  cases i with
  | cfgFft c p => exact checkConfig_eq_firstError c .fft sizeOkFft s fun _ => rfl
  | cfgRfft c p => exact checkConfig_eq_firstError c .rfft sizeOkRfft s fun _ => by rw [sizeOkRfft, Bool.not_and]; rfl
  | cfgGz c p => exact checkConfig_eq_firstError c .gz sizeOkAny s fun _ => rfl
  | cfgDht c p => exact checkConfig_eq_firstError c .dht sizeOkAny s fun _ => rfl
  | fftShift p =>
    rw [checkOf, checkFftShift, checkBufs_eq_firstError]
    simp only [specErrors, firstError_cons, decide_eq_true_eq]
    rfl
  | gzDir c p =>
    rw [checkOf, checkGzDir, checkBufs_eq_firstError, checkCtx_eq_firstError]
    simp only [specErrors, firstError_append, firstError_cons, decide_eq_true_eq, contextErrors]
    rfl
  | fftDir c p | fftInv c p | fftInvn c p => exact checkTransform_eq_firstError c .fft p s _
  | rfftDir c p | rfftDirc c p | rfftInv c p | rfftInvn c p => exact checkTransform_eq_firstError c .rfft p s _
  | dhtDir c p | dhtInvn c p => exact checkTransform_eq_firstError c .dht p s _

/-- Settles O13: the checks are the list of R247, and a command at an IDLE engine is issued with what they report. -/
theorem firstFailingCheckIsReported : Obligations.FirstFailingCheckIsReported := by
  refine fun s he => ⟨fun w h => writeCmd_illegal he h, fun v rest h hh => step_writeCmd_illegal he h hh, fun i => ?_⟩
  rw [exec_idle he, checkOf_eq_firstError, firstError]
  cases (specErrors i s).find? fun x => x.1 with
  | none => rw [Option.map_none, issueCommand_none]
  | some x => rw [Option.map_some, issueCommand_some]

end Sys2Proof.Machine
end

section
/-! PROOFS. The numbers: what a pattern stands for, the canonical NaN, the special operands, and the exact scaling by N. -/

namespace Sys2Proof.Machine

/-! ### What a pattern stands for -/

/-- A pattern by its three fields (R124). -/
theorem classify_fields {p : Prec} (v : Fp p) :
    let e := (v.extractLsb' (fracBits p) (expBits p)).toNat
    let f := (v.extractLsb' 0 (fracBits p)).toNat
    classify v = if e = 2 ^ expBits p - 1 then (if f = 0 then .inf v.msb else .nan) else if e = 0 then .fin v.msb f
      else .fin v.msb ((2 ^ fracBits p + f) * 2 ^ (e - 1)) := by
  simp only [BitVec.extractLsb'_toNat, Nat.shiftRight_eq_div_pow, BitVec.msb_eq_decide, pow_zero, Nat.div_one]
  rfl

/-- The value of a normal pattern, from smallest subnormals to the formula of R124. -/
theorem normal_value (p : Prec) {e : Nat} (he : e ≠ 0) (f : Nat) :
    (((2 ^ fracBits p + f) * 2 ^ (e - 1) : Nat) : ℚ) / 2 ^ unitExp p =
      (1 + (f : ℚ) / 2 ^ fracBits p) * (2 : ℚ) ^ ((e : ℤ) - (bias p : Nat)) := by
  obtain ⟨k, rfl⟩ : ∃ k, e = k + 1 := ⟨e - 1, by omega⟩
  have hu : unitExp p + 1 = bias p + fracBits p := by cases p <;> rfl
  have hk : ((k + 1 : Nat) : ℤ) - (bias p : Nat) = (k : ℤ) + (fracBits p : Nat) - (unitExp p : Nat) := by omega
  rw [hk, zpow_sub₀ two_ne_zero, zpow_add₀ two_ne_zero, zpow_natCast, zpow_natCast, zpow_natCast, Nat.add_sub_cancel]
  push_cast
  field_simp

/-- The classes of the patterns of a format, with their values (R124). -/
theorem classify_values {p : Prec} (v : Fp p) :
    let e := (v.extractLsb' (fracBits p) (expBits p)).toNat
    let f := (v.extractLsb' 0 (fracBits p)).toNat
    (e = 2 ^ expBits p - 1 → f = 0 → classify v = .inf v.msb) ∧ (e = 2 ^ expBits p - 1 → f ≠ 0 → classify v = .nan) ∧
      (e = 0 → classify v = .fin v.msb f) ∧
      (e ≠ 0 → e ≠ 2 ^ expBits p - 1 → ∃ m, classify v = .fin v.msb m ∧
        (m : ℚ) / 2 ^ unitExp p = (1 + (f : ℚ) / 2 ^ fracBits p) * (2 : ℚ) ^ ((e : ℤ) - (bias p : Nat))) := by
  intro e f
  have hv := classify_fields v
  have htop : 0 ≠ 2 ^ expBits p - 1 := by cases p <;> decide
  refine ⟨fun he hf => ?_, fun he hf => ?_, fun he => ?_, fun h0 he => ⟨_, ?_, normal_value p h0 f⟩⟩
  · exact hv.trans ((if_pos he).trans (if_pos hf))
  · exact hv.trans ((if_pos he).trans (if_neg hf))
  · exact hv.trans ((if_neg (he.trans_ne htop)).trans (if_pos he))
  · exact hv.trans ((if_neg he).trans (if_neg h0))

/-- Settles O44: the classes of a format, at binary32 and at binary64. -/
theorem patternsStandForTheirValues : Obligations.PatternsStandForTheirValues :=
  ⟨fun v => classify_values (p := .f32) v, fun v => classify_values (p := .f64) v⟩

/-! ### The operations on special operands -/

section SpecialOperands

variable {p : Prec} {a b : Fp p} {na nb : Bool} {ma mb : Nat}

theorem ops_nan_left (ha : classify a = .nan) (b : Fp p) :
    fadd a b = canonicalNaN p ∧ fmul a b = canonicalNaN p ∧ fdiv a b = canonicalNaN p := by
  simp [fadd, fmul, fdiv, ha]

theorem ops_nan_right (a : Fp p) (hb : classify b = .nan) :
    fadd a b = canonicalNaN p ∧ fmul a b = canonicalNaN p ∧ fdiv a b = canonicalNaN p := by
  cases ha : classify a <;> simp [fadd, fmul, fdiv, ha, hb]

theorem ops_inf_inf (ha : classify a = .inf na) (hb : classify b = .inf nb) :
    fadd a b = (if na = nb then withSign p na (infBits p) else canonicalNaN p) ∧
      fmul a b = withSign p (na ^^ nb) (infBits p) ∧ fdiv a b = canonicalNaN p := by
  simp [fadd, fmul, fdiv, ha, hb]

theorem ops_inf_fin (ha : classify a = .inf na) (hb : classify b = .fin nb mb) :
    fadd a b = withSign p na (infBits p) ∧
      fmul a b = (if mb = 0 then canonicalNaN p else withSign p (na ^^ nb) (infBits p)) ∧
      fdiv a b = withSign p (na ^^ nb) (infBits p) := by
  simp [fadd, fmul, fdiv, ha, hb]

theorem ops_fin_inf (ha : classify a = .fin na ma) (hb : classify b = .inf nb) :
    fadd a b = withSign p nb (infBits p) ∧
      fmul a b = (if ma = 0 then canonicalNaN p else withSign p (na ^^ nb) (infBits p)) ∧
      fdiv a b = withSign p (na ^^ nb) 0 := by
  simp [fadd, fmul, fdiv, ha, hb]

/-- An exact zero sum is -0 only when both operands are negative (R128). -/
theorem fadd_fin_zero (ha : classify a = .fin na ma) (hb : classify b = .fin nb mb)
    (h : signedMag na ma + signedMag nb mb = 0) : fadd a b = withSign p (na && nb) 0 := by
  simp [fadd, ha, hb, h]

end SpecialOperands

/-! ### Canonical NaNs -/

/-- A value that is the canonical NaN if it is a NaN at all (R127). -/
def CanonicalIfNaN {p : Prec} (v : Fp p) : Prop := classify v = .nan → v = canonicalNaN p

theorem canonicalIfNaN_nan (p : Prec) : CanonicalIfNaN (canonicalNaN p) := fun _ => rfl
theorem canonicalIfNaN_inf (p : Prec) (n : Bool) : CanonicalIfNaN (withSign p n (infBits p)) := by simp [CanonicalIfNaN]
theorem canonicalIfNaN_zero (p : Prec) (n : Bool) : CanonicalIfNaN (withSign p n 0) := by simp [CanonicalIfNaN]
theorem canonicalIfNaN_roundQ (p : Prec) (n : Bool) (num : Nat) {den : Nat} (h : 0 < den) :
    CanonicalIfNaN (roundQ p n num den) := fun hn => absurd hn (roundQ_ne_nan p n num h)
theorem canonicalIfNaN_ite {p : Prec} {c : Prop} [Decidable c] {v w : Fp p} (hv : CanonicalIfNaN v) (hw : CanonicalIfNaN w) :
    CanonicalIfNaN (if c then v else w) := by split <;> assumption

theorem fadd_canonical {p : Prec} (a b : Fp p) : CanonicalIfNaN (fadd a b) := by
  unfold fadd
  split
  · exact canonicalIfNaN_nan p
  · exact canonicalIfNaN_nan p
  · exact canonicalIfNaN_ite (canonicalIfNaN_inf p _) (canonicalIfNaN_nan p)
  · exact canonicalIfNaN_inf p _
  · exact canonicalIfNaN_inf p _
  · exact canonicalIfNaN_ite (canonicalIfNaN_zero p _) (canonicalIfNaN_roundQ p _ _ Nat.one_pos)

theorem fmul_canonical {p : Prec} (a b : Fp p) : CanonicalIfNaN (fmul a b) := by
  unfold fmul
  split
  · exact canonicalIfNaN_nan p
  · exact canonicalIfNaN_nan p
  · exact canonicalIfNaN_inf p _
  · exact canonicalIfNaN_ite (canonicalIfNaN_nan p) (canonicalIfNaN_inf p _)
  · exact canonicalIfNaN_ite (canonicalIfNaN_nan p) (canonicalIfNaN_inf p _)
  · exact canonicalIfNaN_roundQ p _ _ (Nat.two_pow_pos _)

theorem fdiv_canonical {p : Prec} (a b : Fp p) : CanonicalIfNaN (fdiv a b) := by
  unfold fdiv
  split
  · exact canonicalIfNaN_nan p
  · exact canonicalIfNaN_nan p
  · exact canonicalIfNaN_nan p
  · exact canonicalIfNaN_inf p _
  · exact canonicalIfNaN_zero p _
  · split
    · exact canonicalIfNaN_ite (canonicalIfNaN_nan p) (canonicalIfNaN_inf p _)
    · next h => exact canonicalIfNaN_roundQ p _ _ (Nat.pos_of_ne_zero h)

theorem ops_of_nan {p : Prec} {a b : Fp p} (h : classify a = .nan ∨ classify b = .nan) :
    fadd a b = canonicalNaN p ∧ fmul a b = canonicalNaN p ∧ fdiv a b = canonicalNaN p :=
  h.elim (fun ha => ops_nan_left ha b) (fun hb => ops_nan_right a hb)

theorem classify_fneg_nan {p : Prec} {b : Fp p} (h : classify b = .nan) : classify (fneg b) = .nan := by
  rw [classify_fneg, h]
  rfl

theorem getLsbD_fneg {p : Prec} (a : Fp p) (i : Nat) :
    (fneg a).getLsbD i = (a.getLsbD i ^^ decide (i = fpWidth p - 1)) := by
  have hw : 0 < fpWidth p := by cases p <;> decide
  rw [fneg, BitVec.getLsbD_xor, BitVec.getLsbD_ofNat, signWeight, Nat.testBit_two_pow, ← Bool.decide_and]
  congr 2
  rw [eq_iff_iff]
  omega

/-! ### The moves -/

theorem at0_mem {p : Prec} {x : List (Fp p)} {i : Nat} (h : i < x.length) : at0 x i ∈ x := by
  rw [at0, List.getD_eq_getElem _ _ h]
  exact List.getElem_mem h

theorem cat0_mem {p : Prec} {z : List (Cpx p)} {i : Nat} (h : i < z.length) : cat0 z i ∈ z := by
  rw [cat0, List.getD_eq_getElem _ _ h]
  exact List.getElem_mem h

theorem shiftPerm_mem {p : Prec} {x : List (Fp p)} (h : 0 < x.length) {v : Fp p} (hv : v ∈ shiftPerm x x.length) : v ∈ x := by
  obtain ⟨i, -, rfl⟩ := List.mem_map.1 hv
  exact at0_mem (Nat.mod_lt _ h)

theorem bitrevList_mem {p : Prec} {x : List (Fp p)} {b : Nat} (h : x.length = 2 ^ b) {v : Fp p}
    (hv : v ∈ bitrevList x (2 ^ b)) : v ∈ x := by
  obtain ⟨i, -, rfl⟩ := List.mem_map.1 hv
  rw [Nat.log2_two_pow]
  exact at0_mem (h ▸ bitrev_lt b i)

theorem bitrevCpx_mem {p : Prec} {z : List (Cpx p)} {b : Nat} (h : z.length = 2 ^ b) {v : Cpx p}
    (hv : v ∈ bitrevCpx z (2 ^ b)) : v ∈ z := by
  obtain ⟨i, -, rfl⟩ := List.mem_map.1 hv
  rw [Nat.log2_two_pow]
  exact cat0_mem (h ▸ bitrev_lt b i)

theorem pack_mem {p : Prec} {x : List (Fp p)} {v : Cpx p} (hv : v ∈ pack x x.length) : v.re ∈ x ∧ v.im ∈ x := by
  obtain ⟨i, hi, rfl⟩ := List.mem_map.1 hv
  have hlt := List.mem_range.1 hi
  exact ⟨at0_mem (by omega), at0_mem (by omega)⟩

/-- Settles O46: a NaN can only be the canonical one, and the moves read within their input. -/
theorem arithmeticNaNsAreCanonical : Obligations.ArithmeticNaNsAreCanonical := by
  refine ⟨by decide, by decide, fun p a b => ⟨fadd_canonical a b, fadd_canonical a (fneg b), fmul_canonical a b,
    fdiv_canonical a b, fun h => ?_, getLsbD_fneg a, fun x n hn hx => ?_, fun z n b hz hb v => ?_⟩⟩
  · obtain ⟨hadd, hmul, hdiv⟩ := ops_of_nan h
    have hsub : fadd a (fneg b) = canonicalNaN p := (ops_of_nan (h.imp_right classify_fneg_nan)).1
    exact ⟨hadd, hsub, hmul, hdiv⟩
  · subst hx
    refine ⟨fun v => shiftPerm_mem hn, fun b hb v hv => ?_, fun z => pack_mem⟩
    rw [hb] at hv
    exact bitrevList_mem hb hv
  · subst hb
    exact bitrevCpx_mem hz

/-! ### Signed zeros and infinities -/

theorem fneg_withSign (p : Prec) (n : Bool) {bits : Nat} (h : bits < signWeight p) :
    fneg (withSign p n bits) = withSign p (!n) bits := by
  have h2 : 2 ^ fpWidth p = 2 * signWeight p := by cases p <;> rfl
  have toNat (n : Bool) : (withSign p n bits).toNat = (if n then signWeight p else 0) + bits := by
    rw [withSign, BitVec.toNat_ofNat, Nat.mod_eq_of_lt]
    split <;> omega
  refine BitVec.eq_of_toNat_eq ?_
  rw [fneg_toNat, toNat, toNat]
  cases n with
  | false => simp [Nat.not_le.2 h, Nat.add_comm]
  | true => simp

theorem infBits_lt_signWeight (p : Prec) : infBits p < signWeight p := by cases p <;> decide

theorem fneg_zero (p : Prec) (n : Bool) : fneg (withSign p n 0) = withSign p (!n) 0 :=
  fneg_withSign p n (Nat.two_pow_pos _)

theorem fneg_inf (p : Prec) (n : Bool) : fneg (withSign p n (infBits p)) = withSign p (!n) (infBits p) :=
  fneg_withSign p n (infBits_lt_signWeight p)

theorem roundQ_zero_left (p : Prec) (n : Bool) (den : Nat) : roundQ p n 0 den = withSign p n 0 := by
  simp [roundQ]

theorem fadd_zero_zero (p : Prec) (m n : Bool) : fadd (withSign p m 0) (withSign p n 0) = withSign p (m && n) 0 :=
  fadd_fin_zero (classify_zero p m) (classify_zero p n) (by cases m <;> cases n <;> rfl)

theorem fsub_zero_zero (p : Prec) (m n : Bool) : fsub (withSign p m 0) (withSign p n 0) = withSign p (m && !n) 0 := by
  rw [fsub, fneg_zero, fadd_zero_zero]

theorem fadd_fneg_self {p : Prec} {a : Fp p} {n : Bool} {m : Nat} (ha : classify a = .fin n m) :
    fadd a (fneg a) = withSign p false 0 := by
  have hneg : classify (fneg a) = .fin (!n) m := by rw [classify_fneg, ha]; rfl
  have h := fadd_fin_zero ha hneg (by rw [signedMag_not, add_neg_cancel])
  rwa [Bool.and_not_self] at h

theorem fmul_of_zero {p : Prec} {a b : Fp p} {na nb : Bool} {ma mb : Nat} (ha : classify a = .fin na ma)
    (hb : classify b = .fin nb mb) (h : ma = 0 ∨ mb = 0) : fmul a b = withSign p (na ^^ nb) 0 := by
  rw [fmul_fin ha hb, Nat.mul_eq_zero.2 h, roundQ_zero_left]

/-- Settles O47: the operations' equations at the classes of the operands. -/
theorem specialOperandsFollowIeee754 : Obligations.SpecialOperandsFollowIeee754 := by
  intro p a b na nb ma mb zero inf
  have hinf (n : Bool) : classify (inf n) = .inf n := classify_inf p n
  have hsub (x : Fp p) (n : Bool) : fsub x (inf n) = fadd x (inf (!n)) := by rw [fsub, fneg_inf]
  refine ⟨classify_zero p na, hinf na, rfl, fun ha => ⟨fadd_fneg_self ha, fadd_fneg_self ha⟩, fadd_zero_zero p _ _,
    fadd_zero_zero p _ _, fadd_zero_zero p _ _, fadd_zero_zero p _ _, fsub_zero_zero p _ _, fsub_zero_zero p _ _,
    fsub_zero_zero p _ _, fsub_zero_zero p _ _, fmul_of_zero, fun hb => ?_, fun hb h0 => ?_, fun hb => ?_, ?_⟩
  · obtain ⟨hadd, -, hdiv⟩ := ops_inf_fin (hinf na) hb
    obtain ⟨hadd', -, hdiv'⟩ := ops_fin_inf hb (hinf na)
    have hneg : classify (fneg b) = .fin (!nb) mb := by rw [classify_fneg, hb]; rfl
    refine ⟨hadd, hadd', (ops_inf_fin (hinf na) hneg).1, ?_, Bool.xor_comm nb na ▸ hdiv', hdiv⟩
    rw [hsub]
    exact (ops_fin_inf hb (hinf (!na))).1
  · obtain ⟨-, hmul, -⟩ := ops_inf_fin (hinf na) hb
    obtain ⟨-, hmul', -⟩ := ops_fin_inf hb (hinf na)
    exact ⟨hmul.trans (if_neg h0), Bool.xor_comm nb na ▸ hmul'.trans (if_neg h0)⟩
  · exact ⟨(ops_inf_fin (hinf na) hb).2.1, (ops_fin_inf hb (hinf na)).2.1⟩
  · have hadd (m n : Bool) : fadd (inf m) (inf n) = if m = n then inf m else canonicalNaN p :=
      (ops_inf_inf (hinf m) (hinf n)).1
    obtain ⟨-, hmul, hdiv⟩ := ops_inf_inf (hinf na) (hinf nb)
    refine ⟨?_, ?_, ?_, ?_, hmul, hdiv⟩ <;> simp [hsub, hadd]

/-! ### Scaling by N -/

/-- No finite pattern stands for more than the largest finite value. -/
theorem le_maxMag_of_fin {p : Prec} {w : Fp p} {neg : Bool} {m : Nat} (h : classify w = .fin neg m) : m ≤ maxMag p := by
  have htop : topExp p + 3 = 2 ^ expBits p := by cases p <;> decide
  have hpow : 2 ^ (fracBits p + 1) = 2 ^ fracBits p * 2 := pow_succ _ _
  have hf := Nat.mod_lt w.toNat (Nat.two_pow_pos (fracBits p))
  have he := Nat.mod_lt (w.toNat / 2 ^ fracBits p) (Nat.two_pow_pos (expBits p))
  unfold classify at h
  simp only at h
  split_ifs at h with h1 h2 h3
  · injection h with _ h
    have := Nat.two_pow_pos (topExp p)
    calc m ≤ 2 ^ (fracBits p + 1) - 1 := by omega
      _ ≤ maxMag p := Nat.le_mul_of_pos_right _ this
  · injection h with _ h
    rw [← h]
    exact Nat.mul_le_mul (by omega) (Nat.pow_le_pow_right two_pos (by omega))

/-- Rounding does not pass a value of the format: between two of them it stays between them. -/
theorem RoundsTo.between {p : Prec} {neg nl nh : Bool} {num den lo hi : Nat} {v wl wh : Fp p} (h : RoundsTo p neg num den v)
    (hden : 0 < den) (hwl : classify wl = .fin nl lo) (hwh : classify wh = .fin nh hi) (hlo : lo * den ≤ num)
    (hhi : num ≤ hi * den) : ∃ m, classify v = .fin neg m ∧ lo ≤ m ∧ m ≤ hi := by
  have htop : 0 < den * 2 ^ topExp p := Nat.mul_pos hden (Nat.two_pow_pos _)
  have hmax := Nat.mul_le_mul_right den (le_maxMag_of_fin hwh)
  have hfin : ¬ den * (2 * maxMag p + 2 ^ topExp p) ≤ 2 * num := by
    rw [show den * (2 * maxMag p + 2 ^ topExp p) = 2 * (maxMag p * den) + den * 2 ^ topExp p by ring]
    omega
  rw [RoundsTo, if_neg hfin] at h
  obtain ⟨m, hv, hnear⟩ := h
  have hl := (hnear wl nl lo hwl).1
  have hh := (hnear wh nh hi hwh).1
  rw [← Nat.cast_mul, ← Nat.cast_mul] at hl hh
  exact ⟨m, hv, Nat.le_of_mul_le_mul_right (by omega) hden, Nat.le_of_mul_le_mul_right (by omega) hden⟩

/-- A value of the format is its own rounding. -/
theorem RoundsTo.exact {p : Prec} {neg neg' : Bool} {m den : Nat} {v w : Fp p} (h : RoundsTo p neg (m * den) den v)
    (hden : 0 < den) (hw : classify w = .fin neg' m) : classify v = .fin neg m := by
  obtain ⟨k, hv, hlo, hhi⟩ := h.between hden hw hw le_rfl le_rfl
  rwa [Nat.le_antisymm hhi hlo] at hv

/-- Every `n` up to 2^20 has a pattern: its significand at full width. -/
theorem exists_pattern_of_le (p : Prec) {n : Nat} (hn : n ≤ 2 ^ 20) :
    ∃ w : Fp p, classify w = .fin false (n * 2 ^ unitExp p) := by
  rcases Nat.eq_zero_or_pos n with rfl | hpos
  · exact ⟨withSign p false 0, by rw [classify_zero, Nat.zero_mul]⟩
  have hsize : 20 ≤ fracBits p ∧ fracBits p ≤ unitExp p ∧ unitExp p + 22 < fracBits p + (2 ^ expBits p - 1) := by
    cases p <;> decide
  obtain ⟨l, hl⟩ : ∃ l, l = Nat.log2 n := ⟨_, rfl⟩
  have hl20 : l < 21 := hl ▸ (Nat.log2_lt hpos.ne').2 (by omega)
  have hlo : 2 ^ l ≤ n := hl ▸ Nat.log2_self_le hpos.ne'
  have hhi : n < 2 ^ (l + 1) := hl ▸ Nat.lt_log2_self
  obtain ⟨k, hk⟩ : ∃ k, l + k = fracBits p := ⟨fracBits p - l, by omega⟩
  obtain ⟨e, he⟩ : ∃ e, k + e = unitExp p := ⟨unitExp p - k, by omega⟩
  have hm1 : 2 ^ fracBits p ≤ n * 2 ^ k := by rw [← hk, pow_add]; exact Nat.mul_le_mul_right _ hlo
  have hm2 : n * 2 ^ k ≤ 2 ^ (fracBits p + 1) := by
    rw [← hk, Nat.add_right_comm, pow_add]
    exact Nat.mul_le_mul_right _ hhi.le
  have hinf : e * 2 ^ fracBits p + n * 2 ^ k < infBits p :=
    calc e * 2 ^ fracBits p + n * 2 ^ k ≤ (e + 2) * 2 ^ fracBits p := by rw [pow_succ] at hm2; rw [Nat.add_mul]; omega
      _ < infBits p := Nat.mul_lt_mul_of_pos_right (by omega) (Nat.two_pow_pos _)
  exact ⟨_, by rw [classify_bits p false hm2 (.inr hm1) hinf, Nat.mul_assoc, ← pow_add, he]⟩

/-- The conversion of N is exact (R138). -/
theorem classify_ofNatP (p : Prec) {n : Nat} (hn : n ≤ 2 ^ 20) : classify (ofNatP p n) = .fin false (n * 2 ^ unitExp p) := by
  obtain ⟨w, hw⟩ := exists_pattern_of_le p hn
  refine RoundsTo.exact (den := 1) ?_ Nat.one_pos hw
  rw [Nat.mul_one]
  exact roundQ_roundsTo p false _ 1 Nat.one_pos

/-- The pattern of 2^-b: a bare exponent. -/
theorem classify_two_pow_neg (p : Prec) {b : Nat} (hb : b ≤ 20) :
    classify (BitVec.ofNat (fpWidth p) ((bias p - b) * 2 ^ fracBits p)) = .fin false (2 ^ (unitExp p - b)) := by
  have hsize : 21 < bias p ∧ unitExp p + 1 = bias p + fracBits p ∧ bias p < 2 ^ expBits p - 1 := by cases p <;> decide
  obtain ⟨e, he⟩ : ∃ e, bias p - b = e + 1 := ⟨bias p - b - 1, by omega⟩
  have hbits : (bias p - b) * 2 ^ fracBits p = e * 2 ^ fracBits p + 2 ^ fracBits p := by rw [he, Nat.succ_mul]
  have hpat : BitVec.ofNat (fpWidth p) ((bias p - b) * 2 ^ fracBits p) =
      withSign p false (e * 2 ^ fracBits p + 2 ^ fracBits p) := by simp [withSign, hbits]
  have hinf : e * 2 ^ fracBits p + 2 ^ fracBits p < infBits p := by
    rw [← hbits]
    exact Nat.mul_lt_mul_of_pos_right (by omega) (Nat.two_pow_pos _)
  rw [hpat, classify_bits p false (Nat.pow_le_pow_right two_pos (Nat.le_succ _)) (.inr le_rfl) hinf, ← pow_add,
    show fracBits p + e = unitExp p - b by omega]

/-- Dividing by 2^b and multiplying by 2^-b: the same class of special result, or the same quotient rounded once. -/
theorem fdiv_two_pow_eq_fmul {p : Prec} {b : Nat} (hb : b ≤ 20) (v : Fp p) :
    fdiv v (ofNatP p (2 ^ b)) = fmul v (BitVec.ofNat _ ((bias p - b) * 2 ^ fracBits p)) := by
  have hN := classify_ofNatP p (Nat.pow_le_pow_right two_pos hb)
  have hI := classify_two_pow_neg p hb
  have hu : b ≤ unitExp p := hb.trans (by cases p <;> decide)
  cases hv : classify v with
  | nan => rw [(ops_nan_left hv _).2.2, (ops_nan_left hv _).2.1]
  | inf n => rw [(ops_inf_fin hv hN).2.2, (ops_inf_fin hv hI).2.1, if_neg (Nat.two_pow_pos _).ne']
  | fin n m =>
    rw [fdiv_fin hv hN (Nat.mul_pos (Nat.two_pow_pos _) (Nat.two_pow_pos _)).ne', fmul_fin hv hI]
    have hk : 2 ^ unitExp p = 2 ^ (unitExp p - b) * 2 ^ b := by rw [← pow_add, Nat.sub_add_cancel hu]
    conv_lhs => rw [Nat.mul_comm (2 ^ b), show m * 2 ^ unitExp p = m * 2 ^ (unitExp p - b) * 2 ^ b by rw [hk, Nat.mul_assoc]]
    exact roundQ_mul_right p _ _ _ (Nat.two_pow_pos b)

/-- Settles O48, with N and its inverse at their exact values. -/
theorem scalingByAPowerOfTwoMultipliesByTheInverse : Obligations.ScalingByAPowerOfTwoMultipliesByTheInverse :=
  fun p _ hb => ⟨fun _ _ => rfl, fun _ hn => classify_ofNatP p hn, fdiv_two_pow_eq_fmul hb⟩

end Sys2Proof.Machine
end

section
/-! PROOFS. The units: bit reversal, the moves of PACK and UNZIP, and the loops of the rules that write a stage in place, pair by
pair. -/

namespace Sys2Proof.Machine

variable {p : Prec}

/-! ### Bit reversal -/

/-- The sum of R130, bit by bit from the lowest. -/
theorem bitrev_eq_sum (b i : Nat) :
    bitrev b i = ((List.range b).map fun t => i / 2 ^ t % 2 * 2 ^ (b - 1 - t)).sum := by
  induction b generalizing i with
  | zero => rfl
  | succ b ih =>
    have htail (t : Nat) : i / 2 ^ (t + 1) % 2 * 2 ^ (b + 1 - 1 - (t + 1)) = i / 2 / 2 ^ t % 2 * 2 ^ (b - 1 - t) := by
      rw [pow_succ', Nat.div_div_eq_div_mul, show b + 1 - 1 - (t + 1) = b - 1 - t by omega]
    rw [bitrev, ih, List.range_succ_eq_map, List.map_cons, List.sum_cons, List.map_map]
    simp only [Function.comp_def, Nat.succ_eq_add_one, htail]
    simp

/-- The top bit of the index becomes the lowest of the reversed one. -/
theorem bitrev_high {b x j : Nat} (hx : x < 2) (hj : j < 2 ^ b) : bitrev (b + 1) (x * 2 ^ b + j) = 2 * bitrev b j + x := by
  induction b generalizing j with
  | zero =>
    obtain rfl : j = 0 := by simpa using hj
    simp [bitrev, Nat.mod_eq_of_lt hx]
  | succ b ih =>
    have hhalf : (x * 2 ^ (b + 1) + j) / 2 = x * 2 ^ b + j / 2 := by
      rw [show x * 2 ^ (b + 1) + j = j + 2 * (x * 2 ^ b) by ring, Nat.add_mul_div_left _ _ two_pos, Nat.add_comm]
    have hlow : (x * 2 ^ (b + 1) + j) % 2 = j % 2 := by
      rw [show x * 2 ^ (b + 1) + j = j + 2 * (x * 2 ^ b) by ring, Nat.add_mul_mod_self_left]
    rw [bitrev, hhalf, hlow, ih (by rw [pow_succ] at hj; omega), bitrev]
    ring

theorem bitrev_bitrev {b i : Nat} (hi : i < 2 ^ b) : bitrev b (bitrev b i) = i := by
  induction b generalizing i with
  | zero =>
    obtain rfl : i = 0 := by simpa using hi
    rfl
  | succ b ih =>
    rw [bitrev.eq_2 i, bitrev_high (Nat.mod_lt _ two_pos) (bitrev_lt b _), ih (by rw [pow_succ] at hi; omega),
      Nat.div_add_mod]

theorem getElem?_bitrevList {a : List (Fp p)} {b i : Nat} (ha : a.length = 2 ^ b) (hi : i < 2 ^ b) :
    (bitrevList a (2 ^ b))[i]? = a[bitrev b i]? := by
  have hlt : bitrev b i < a.length := ha ▸ bitrev_lt b i
  simp [bitrevList, hi, Nat.log2_two_pow, at0, hlt]

theorem getElem?_bitrevCpx {z : List (Cpx p)} {b i : Nat} (hz : z.length = 2 ^ b) (hi : i < 2 ^ b) :
    (bitrevCpx z (2 ^ b))[i]? = z[bitrev b i]? := by
  have hlt : bitrev b i < z.length := hz ▸ bitrev_lt b i
  simp [bitrevCpx, hi, Nat.log2_two_pow, cat0, hlt]

/-- Settles O49: reversing twice gives the index back, so reversal is a bijection. -/
theorem bitReversalIsItsOwnInverse : Obligations.BitReversalIsItsOwnInverse := by
  refine fun b => ⟨fun i _ => bitrev_eq_sum b i, fun i hi => ⟨bitrev_lt b i, bitrev_bitrev hi⟩, fun i j hi hj h => ?_,
    fun p a ha => ⟨length_bitrevList a _, fun i hi => getElem?_bitrevList ha hi⟩,
    fun p z hz => ⟨length_bitrevCpx z _, fun i hi => getElem?_bitrevCpx hz hi⟩⟩
  rw [← bitrev_bitrev hi, h, bitrev_bitrev hj]

/-! ### PACK and UNZIP -/

/-- A list is the list of its elements in order. -/
theorem map_at0_range (x : List (Fp p)) : (List.range x.length).map (at0 x) = x := by
  refine List.ext_getElem (by simp) fun i _ hi => ?_
  simp [at0, hi]

theorem map_cat0_range (z : List (Cpx p)) : (List.range z.length).map (cat0 z) = z := by
  refine List.ext_getElem (by simp) fun i _ hi => ?_
  simp [cat0, hi]

theorem cat0_pack (x : List (Fp p)) {m i : Nat} (hi : i < m) : cat0 (pack x (2 * m)) i = ⟨at0 x (2 * i), at0 x (2 * i + 1)⟩ :=
  cat0_map_range _ (by omega)

theorem at0_unzip (z : List (Cpx p)) {m i : Nat} (hi : i < m) :
    at0 (unzip z (2 * m)) (2 * i) = (cat0 z i).re ∧ at0 (unzip z (2 * m)) (2 * i + 1) = (cat0 z i).im := by
  rw [unzip, at0_map_range _ (by omega), at0_map_range _ (by omega), if_pos (by omega), if_neg (by omega),
    show 2 * i / 2 = i by omega, show (2 * i + 1) / 2 = i by omega]
  exact ⟨rfl, rfl⟩

theorem unzip_pack {x : List (Fp p)} {m : Nat} (hx : x.length = 2 * m) : unzip (pack x (2 * m)) (2 * m) = x := by
  conv_rhs => rw [← map_at0_range x, hx]
  refine List.map_congr_left fun i hi => ?_
  have hlt : i / 2 < m := by have := List.mem_range.1 hi; omega
  rw [cat0_pack x hlt]
  split
  · rw [show 2 * (i / 2) = i by omega]
  · rw [show 2 * (i / 2) + 1 = i by omega]

theorem pack_unzip {z : List (Cpx p)} {m : Nat} (hz : z.length = m) : pack (unzip z (2 * m)) (2 * m) = z := by
  conv_rhs => rw [← map_cat0_range z, hz]
  rw [pack, Nat.mul_div_cancel_left _ two_pos]
  refine List.map_congr_left fun i hi => ?_
  obtain ⟨hre, him⟩ := at0_unzip z (List.mem_range.1 hi)
  rw [hre, him]

/-- Settles O50, element by element. -/
theorem unzipInvertsPack : Obligations.UnzipInvertsPack := fun p m =>
  ⟨fun x hx => ⟨by rw [length_pack, Nat.mul_div_cancel_left _ two_pos], fun _ hi => cat0_pack x hi, unzip_pack hx⟩,
    fun z hz => ⟨fun _ hi => at0_unzip z hi, pack_unzip hz⟩⟩

/-! ### Loops that write a list in place, pair by pair -/

/-- Two folds of steps that agree on lists of length `n`, and keep that length. -/
theorem foldl_congr_of_length {α β : Type} {f f' : List α → β → List α} {n : Nat} {xs : List β}
    (hlen : ∀ z x, (f z x).length = n) (h : ∀ x ∈ xs, ∀ z, z.length = n → f z x = f' z x) {z : List α}
    (hz : z.length = n) : xs.foldl f z = xs.foldl f' z := by
  induction xs generalizing z with
  | nil => rfl
  | cons x xs ih =>
    rw [List.foldl_cons, List.foldl_cons, ← h x List.mem_cons_self z hz]
    exact ih (fun y hy => h y (List.mem_cons_of_mem x hy)) (hlen z x)

section PairLoop

variable {α β : Type} (P Q : β → Nat) (g : β → α → α → α × α) (d : α)

/-- One step of such a loop: the elements at `P x` and `Q x` are replaced by what `g x` makes of them. -/
def pairStep (z : List α) (x : β) : List α :=
  (z.set (P x) (g x (z.getD (P x) d) (z.getD (Q x) d)).1).set (Q x) (g x (z.getD (P x) d) (z.getD (Q x) d)).2

theorem length_foldl_pairStep (xs : List β) (z : List α) : (xs.foldl (pairStep P Q g d) z).length = z.length := by
  induction xs generalizing z with
  | nil => rfl
  | cons x xs ih => rw [List.foldl_cons, ih]; simp [pairStep]

variable {P Q}

theorem getElem?_pairStep_of_ne {x : β} {i : Nat} (hP : P x ≠ i) (hQ : Q x ≠ i) (z : List α) :
    (pairStep P Q g d z x)[i]? = z[i]? := by
  rw [pairStep, List.getElem?_set_ne hQ, List.getElem?_set_ne hP]

theorem getElem?_foldl_pairStep_of_ne {xs : List β} {i : Nat} (hP : ∀ x ∈ xs, P x ≠ i) (hQ : ∀ x ∈ xs, Q x ≠ i)
    (z : List α) : (xs.foldl (pairStep P Q g d) z)[i]? = z[i]? := by
  induction xs generalizing z with
  | nil => rfl
  | cons x xs ih =>
    rw [List.foldl_cons, ih (fun y hy => hP y (List.mem_cons_of_mem x hy)) (fun y hy => hQ y (List.mem_cons_of_mem x hy)),
      getElem?_pairStep_of_ne g d (hP x List.mem_cons_self) (hQ x List.mem_cons_self)]

/-- When each position has one owner among the steps, a pair holds at the end what its owner makes of the elements that stood
there at the beginning. -/
theorem getElem?_foldl_pairStep {xs : List β} (hxs : xs.Nodup) (owner : Nat → β)
    (hown : ∀ x ∈ xs, owner (P x) = x ∧ owner (Q x) = x ∧ P x ≠ Q x) {x : β} (hx : x ∈ xs) (z : List α)
    (hP : P x < z.length) (hQ : Q x < z.length) :
    (xs.foldl (pairStep P Q g d) z)[P x]? = some (g x (z.getD (P x) d) (z.getD (Q x) d)).1 ∧
      (xs.foldl (pairStep P Q g d) z)[Q x]? = some (g x (z.getD (P x) d) (z.getD (Q x) d)).2 := by
  have apart {y : β} (hy : y ∈ xs) (hne : y ≠ x) : P y ≠ P x ∧ Q y ≠ P x ∧ P y ≠ Q x ∧ Q y ≠ Q x := by
    obtain ⟨hxP, hxQ, -⟩ := hown x hx
    obtain ⟨hyP, hyQ, -⟩ := hown y hy
    refine ⟨fun h => hne ?_, fun h => hne ?_, fun h => hne ?_, fun h => hne ?_⟩
    · rw [← hyP, h, hxP]
    · rw [← hyQ, h, hxP]
    · rw [← hyP, h, hxQ]
    · rw [← hyQ, h, hxQ]
  induction xs generalizing z with
  | nil => cases hx
  | cons y xs ih =>
    obtain ⟨hy, hnodup⟩ := List.nodup_cons.1 hxs
    rw [List.foldl_cons]
    by_cases hyx : y = x
    · subst hyx
      have hne {w : β} (hw : w ∈ xs) : w ≠ y := fun h => hy (h ▸ hw)
      have hrest {w : β} (hw : w ∈ xs) := apart (List.mem_cons_of_mem y hw) (hne hw)
      rw [getElem?_foldl_pairStep_of_ne g d (fun w hw => (hrest hw).1) (fun w hw => (hrest hw).2.1),
        getElem?_foldl_pairStep_of_ne g d (fun w hw => (hrest hw).2.2.1) (fun w hw => (hrest hw).2.2.2)]
      have hPQ := (hown y List.mem_cons_self).2.2
      exact ⟨by simp [pairStep, hPQ.symm, hP], by simp [pairStep, hQ]⟩
    · have hmem : x ∈ xs := (List.mem_cons.1 hx).resolve_left (Ne.symm hyx)
      obtain ⟨hPP, hQP, hPQ, hQQ⟩ := apart List.mem_cons_self hyx
      have hlen : (pairStep P Q g d z y).length = z.length := by simp [pairStep]
      have h := ih hnodup (fun w hw => hown w (List.mem_cons_of_mem y hw)) hmem (pairStep P Q g d z y)
        (hlen.symm ▸ hP) (hlen.symm ▸ hQ) (fun hw => apart (List.mem_cons_of_mem y hw))
      simpa only [List.getD_eq_getElem?_getD, getElem?_pairStep_of_ne g d hPP hQP, getElem?_pairStep_of_ne g d hPQ hQQ] using h

end PairLoop

/-! ### Pairs `h` apart, in groups of `2·h` -/

/-- The two positions of pair `x.2` of group `x.1`, and the pair a position belongs to. -/
def pairLow (h : Nat) (x : Nat × Nat) : Nat := x.1 * (2 * h) + x.2
def pairHigh (h : Nat) (x : Nat × Nat) : Nat := x.1 * (2 * h) + x.2 + h
def pairOf (h i : Nat) : Nat × Nat := (i / (2 * h), i % (2 * h) % h)

theorem group_div_mod {h t r : Nat} (hr : r < 2 * h) : (t * (2 * h) + r) / (2 * h) = t ∧ (t * (2 * h) + r) % (2 * h) = r := by
  rw [Nat.add_comm, Nat.add_mul_div_right _ _ (by omega), Nat.add_mul_mod_self_right, Nat.div_eq_of_lt hr, Nat.mod_eq_of_lt hr,
    Nat.zero_add]
  exact ⟨rfl, rfl⟩

theorem pairOf_pairLow {h : Nat} {x : Nat × Nat} (hx : x.2 < h) : pairOf h (pairLow h x) = x := by
  obtain ⟨hq, hr⟩ := group_div_mod (h := h) (t := x.1) (r := x.2) (by omega)
  rw [pairOf, pairLow, hq, hr, Nat.mod_eq_of_lt hx]

theorem pairOf_pairHigh {h : Nat} {x : Nat × Nat} (hx : x.2 < h) : pairOf h (pairHigh h x) = x := by
  obtain ⟨hq, hr⟩ := group_div_mod (h := h) (t := x.1) (r := x.2 + h) (by omega)
  rw [pairOf, pairHigh, Nat.add_assoc, hq, hr, Nat.add_mod_right, Nat.mod_eq_of_lt hx]

/-- A position is the low or the high one of its pair, by the half of its group it lies in. -/
theorem pairLow_pairOf {h i : Nat} (hi : i % (2 * h) < h) : pairLow h (pairOf h i) = i := by
  rw [pairLow, pairOf, Nat.mod_eq_of_lt hi, Nat.mul_comm]
  exact Nat.div_add_mod i (2 * h)

theorem mod_sub_half {h i : Nat} (hh : 0 < h) (hi : ¬ i % (2 * h) < h) : i % (2 * h) % h = i % (2 * h) - h := by
  have := Nat.mod_lt i (show 0 < 2 * h by omega)
  rw [Nat.mod_eq_sub_mod (by omega), Nat.mod_eq_of_lt (by omega)]

theorem pairHigh_pairOf {h i : Nat} (hh : 0 < h) (hi : ¬ i % (2 * h) < h) : pairHigh h (pairOf h i) = i := by
  have := Nat.div_add_mod i (2 * h)
  rw [pairHigh, pairOf, mod_sub_half hh hi, Nat.mul_comm]
  simp only
  omega

theorem pairHigh_lt {c h : Nat} {x : Nat × Nat} (hc : x.1 < c) (hx : x.2 < h) : pairHigh h x < c * (2 * h) := by
  have := Nat.mul_le_mul_right (2 * h) (show x.1 + 1 ≤ c from hc)
  rw [Nat.succ_mul] at this
  rw [pairHigh]
  omega

/-- The loop over the groups and, in each, over its pairs is the list of its outputs. -/
theorem foldl_pairStep_groups {α : Type} (g : Nat × Nat → α → α → α × α) (d : α) {c h : Nat} (hh : 0 < h)
    {z : List α} (hz : z.length = c * (2 * h)) :
    (List.range c ×ˢ List.range h).foldl (pairStep (pairLow h) (pairHigh h) g d) z =
      (List.range (c * (2 * h))).map fun i =>
        if i % (2 * h) < h then (g (pairOf h i) (z.getD i d) (z.getD (i + h) d)).1
        else (g (pairOf h i) (z.getD (i - h) d) (z.getD i d)).2 := by
  have hmem {x : Nat × Nat} : x ∈ List.range c ×ˢ List.range h ↔ x.1 < c ∧ x.2 < h :=
    (List.pair_mem_product (x := x.1) (y := x.2)).trans (by rw [List.mem_range, List.mem_range])
  have hown (x : Nat × Nat) (hx : x ∈ List.range c ×ˢ List.range h) :
      pairOf h (pairLow h x) = x ∧ pairOf h (pairHigh h x) = x ∧ pairLow h x ≠ pairHigh h x :=
    have hx2 := (hmem.1 hx).2
    ⟨pairOf_pairLow hx2, pairOf_pairHigh hx2, (Nat.lt_add_of_pos_right hh).ne⟩
  refine List.ext_getElem? fun i => ?_
  rcases Nat.lt_or_ge i (c * (2 * h)) with hi | hi
  · have hq : (pairOf h i).1 < c := Nat.div_lt_of_lt_mul (by rwa [Nat.mul_comm])
    have hr : (pairOf h i).2 < h := Nat.mod_lt _ hh
    have hhigh : pairHigh h (pairOf h i) < z.length := hz ▸ pairHigh_lt hq hr
    have hpair : pairHigh h (pairOf h i) = pairLow h (pairOf h i) + h := rfl
    obtain ⟨hP, hQ⟩ := getElem?_foldl_pairStep g d (List.nodup_range.product List.nodup_range) (pairOf h) hown
      (hmem.2 ⟨hq, hr⟩) z (by omega) hhigh
    rw [List.getElem?_map, List.getElem?_range hi, Option.map_some]
    split
    · next hlow =>
      rwa [hpair, pairLow_pairOf hlow] at hP
    · next hlow =>
      rw [pairHigh_pairOf hh hlow] at hQ hpair
      rwa [show pairLow h (pairOf h i) = i - h by omega] at hQ
  · rw [List.getElem?_eq_none (by rwa [length_foldl_pairStep, hz]), List.getElem?_eq_none (by simpa using hi)]

/-- A loop in a loop is one loop over the pairs of indices. -/
theorem foldl_range_product {α : Type} (f : α → Nat × Nat → α) (c h : Nat) (z : α) :
    (List.range c ×ˢ List.range h).foldl f z =
      (List.range c).foldl (fun z t => (List.range h).foldl (fun z j => f z (t, j)) z) z := by
  change ((List.range c).flatMap fun t => (List.range h).map (Prod.mk t)).foldl f z = _
  rw [List.foldl_flatMap]
  simp only [List.foldl_map]

/-! ### The cascade -/

theorem loopButterfly_eq_pairStep (dir : Dir) (n stride hlf : Nat) (z : List (Cpx p)) (x : Nat × Nat) :
    loopButterfly dir n stride hlf (x.1 * (2 * hlf)) z x.2 =
      pairStep (pairLow hlf) (pairHigh hlf)
        (fun x u v => bfly u v (twiddle dir p (x.2 * stride) n)) ⟨0, 0⟩ z x := by
  cases dir <;> rfl

/-- A size is its number of groups times the size of a group. -/
theorem groups_mul_group {b t : Nat} (ht : t < b) : 2 ^ b / (2 * 2 ^ t) * (2 * 2 ^ t) = 2 ^ b := by
  rw [← pow_succ']
  exact Nat.div_mul_cancel (pow_dvd_pow 2 ht)

theorem loopStage_eq_cascadeStage (dir : Dir) {b t : Nat} (ht : t < b) {z : List (Cpx p)} (hz : z.length = 2 ^ b) :
    loopStage dir (2 ^ b) (t + 1) z = cascadeStage dir (2 ^ b) (t + 1) z := by
  have hn := groups_mul_group ht
  have h := foldl_pairStep_groups (c := 2 ^ b / (2 * 2 ^ t)) (fun x u v => bfly u v
    (twiddle dir p (x.2 * (2 ^ b / (2 * 2 ^ t))) (2 ^ b))) ⟨0, 0⟩ (Nat.two_pow_pos t) (hz.trans hn.symm)
  rw [foldl_range_product, hn] at h
  simp only [← loopButterfly_eq_pairStep] at h
  simp only [loopStage, cascadeStage, Nat.add_sub_cancel, pow_succ']
  refine h.trans (List.map_congr_left fun i _ => ?_)
  split
  · next hlow =>
    rw [pairOf, Nat.mod_eq_of_lt hlow]
    rfl
  · next hhigh =>
    rw [pairOf, mod_sub_half (Nat.two_pow_pos t) hhigh]
    rfl

/-- Settles O51: stage by stage, each the list of its loop's outputs. -/
theorem cascadeIsTheInPlaceLoop : Obligations.CascadeIsTheInPlaceLoop := by
  intro p dir b z _
  rw [cascade, loopCascade, Nat.log2_two_pow]
  refine foldl_congr_of_length (fun z t => length_cascadeStage dir _ _ z) (fun t ht z hz => ?_) (length_bitrevCpx z _)
  exact (loopStage_eq_cascadeStage dir (List.mem_range.1 ht) hz).symm

/-! ### The Hartley cascade -/

/-- The pair a Hartley butterfly writes: what it reads besides its own pair comes from the stage before, `a`. -/
def hartleyPair (n stride hlf : Nat) (a : List (Fp p)) (x : Nat × Nat) : Fp p × Fp p :=
  let g := x.1 * (2 * hlf)
  let w := trig p (x.2 * stride) n
  let t := fadd (fmul (at0 a (g + hlf + x.2)) w.re) (fmul (at0 a (g + hlf + (hlf - x.2) % hlf)) w.im)
  (fadd (at0 a (g + x.2)) t, fsub (at0 a (g + x.2)) t)

theorem loopHartleyPair_eq_pairStep (n stride hlf : Nat) (a b : List (Fp p)) (x : Nat × Nat) :
    loopHartleyPair n stride hlf (x.1 * (2 * hlf)) a b x.2 =
      pairStep (pairLow hlf) (pairHigh hlf)
        (fun x _ _ => hartleyPair n stride hlf a x) 0 b x := by
  simp only [loopHartleyPair, pairStep, pairLow, pairHigh, hartleyPair, Nat.add_right_comm _ hlf x.2]

theorem loopHartleyStage_eq_hartleyStage {b t : Nat} (ht : t < b) {a : List (Fp p)} (ha : a.length = 2 ^ b) :
    loopHartleyStage (2 ^ b) (t + 1) a = hartleyStage (2 ^ b) (t + 1) a := by
  have hn := groups_mul_group ht
  have h := foldl_pairStep_groups (c := 2 ^ b / (2 * 2 ^ t)) (fun x _ _ => hartleyPair (2 ^ b) (2 ^ b / (2 * 2 ^ t)) (2 ^ t) a x)
    0 (Nat.two_pow_pos t) (ha.trans hn.symm)
  rw [foldl_range_product, hn] at h
  simp only [← loopHartleyPair_eq_pairStep] at h
  simp only [loopHartleyStage, hartleyStage, Nat.add_sub_cancel, pow_succ']
  exact h

theorem hcascade_eq_loopHartley {b : Nat} (a : List (Fp p)) : hcascade (2 ^ b) a = loopHartley (2 ^ b) a := by
  rw [hcascade, loopHartley, Nat.log2_two_pow]
  refine foldl_congr_of_length (fun a t => length_hartleyStage _ _ a) (fun t ht a ha => ?_) (length_bitrevList a _)
  exact (loopHartleyStage_eq_hartleyStage (List.mem_range.1 ht) ha).symm

/-! ### The other real units -/

theorem twoP_eq_specTwo (p : Prec) : twoP p = specTwo p := by cases p <;> rfl
theorem halfP_eq_specHalf (p : Prec) : halfP p = specHalf p := by cases p <;> rfl

/-- The recurrence over the samples is the loop over their indices (R143). -/
theorem gsos_eq_loopGoertzel (a : List (Fp p)) (k : Nat) : gsos a.length a k = loopGoertzel a.length a k := by
  have h : a.foldl (gzStep (fmul (twoP p) (trig p k a.length).re)) (0, 0) =
      (List.range a.length).foldl (fun (s : Fp p × Fp p) i =>
        (fsub (fadd (at0 a i) (fmul (fmul (specTwo p) (trig p k a.length).re) s.1)) s.2, s.1)) (0, 0) := by
    rw [twoP_eq_specTwo]
    generalize fmul (specTwo p) (trig p k a.length).re = coef
    conv_lhs => rw [← map_at0_range a, List.foldl_map]
    rfl
  simp only [gsos, loopGoertzel, h]

theorem unpackBin_eq_loopUnpackBin (a b w : Cpx p) : unpackBin a b w = loopUnpackBin a b w := by
  simp only [unpackBin, loopUnpackBin, half, halfP_eq_specHalf]

theorem repackBin_eq_loopRepackBin (x y w : Cpx p) : repackBin x y w = loopRepackBin x y w := rfl

/-- Element `i` of a list computed index by index. -/
theorem getElem?_map_range {α : Type} (f : Nat → α) {n i : Nat} (h : i < n) : ((List.range n).map f)[i]? = some (f i) := by
  simp [h]

theorem unpack_elements {m : Nat} (hm : 1 ≤ m) (z : List (Cpx p)) :
    let x := unpack (2 * m) z
    x.length = m + 1 ∧ x[0]? = some ⟨fadd (cat0 z 0).re (cat0 z 0).im, 0⟩ ∧
      x[m]? = some ⟨fsub (cat0 z 0).re (cat0 z 0).im, 0⟩ ∧
      ∀ k, 1 ≤ k → k < m → x[k]? = some (loopUnpackBin (cat0 z k) (cat0 z (m - k)) (trig p k (2 * m))) := by
  refine ⟨by simp, ?_⟩
  simp only [unpack, Nat.mul_div_cancel_left m two_pos]
  refine ⟨?_, ?_, fun k hk1 hkm => ?_⟩
  · rw [getElem?_map_range _ (by omega), if_pos rfl]
  · rw [getElem?_map_range _ (by omega), if_neg (by omega), if_pos rfl]
  · rw [getElem?_map_range _ (by omega), if_neg (by omega), if_neg (by omega), unpackBin_eq_loopUnpackBin]

/-- Settles O52: the Hartley cascade stage by stage, the other units element by element. -/
theorem realUnitsAreTheirLoops : Obligations.RealUnitsAreTheirLoops := by
  refine ⟨fun p b a _ => hcascade_eq_loopHartley a, fun p n a ha => ⟨length_hdirect n a, fun k hk => ?_, fun k _ => ?_⟩,
    fun p m z hm _ => unpack_elements hm z, fun p m x _ _ => ?_⟩
  · exact getElem?_map_range _ hk
  · subst ha
    exact gsos_eq_loopGoertzel a k
  · refine ⟨by simp, fun k hk => ?_⟩
    simp only [repack, Nat.mul_div_cancel_left m two_pos]
    rw [getElem?_map_range _ hk, repackBin_eq_loopRepackBin]

end Sys2Proof.Machine
end

section
/-! PROOFS. The coefficients: the angle of a fraction, its quadrants and their mirrors, the bounds of a component, and how near the
scaled values are to the exact cosine and sine. -/

namespace Sys2Proof.Machine

/-! ### The angle of a fraction, whatever its terms -/

section Scaling

variable {m : Nat} (hm : 0 < m) (r d : Nat)
include hm

theorem angleFix_mul : angleFix (r * m) (d * m) = angleFix r d := by
  rw [angleFix, ← Nat.mul_assoc, Nat.mul_div_mul_right _ _ hm, angleFix]

theorem cosFix_mul : cosFix (r * m) (d * m) = cosFix r d := by rw [cosFix, angleFix_mul hm, cosFix]

theorem sinFix_mul : sinFix (r * m) (d * m) = sinFix r d := by rw [sinFix, angleFix_mul hm, sinFix]

theorem quadrantFix_mul : quadrantFix (r * m) (d * m) = quadrantFix r d := by
  rw [quadrantFix, ← Nat.mul_assoc, ← Nat.sub_mul, cosFix_mul hm, sinFix_mul hm, cosFix_mul hm, sinFix_mul hm, quadrantFix]
  simp only [Nat.mul_le_mul_right_iff hm]

end Scaling

/-- The scaled pair after `q` quarter turns. -/
def quarterTurn (q : Nat) (x : Nat × Nat) : Int × Int :=
  match q with
  | 0 => (x.1, x.2)
  | 1 => (-(x.2 : Int), x.1)
  | 2 => (-(x.1 : Int), -(x.2 : Int))
  | _ => (x.2, -(x.1 : Int))

/-- The reduction to lowest terms makes no difference. -/
theorem circleFix_eq_quarterTurn {n : Nat} (hn : 0 < n) (k : Nat) :
    circleFix k n = quarterTurn (4 * (k % n) / n) (quadrantFix (4 * (k % n) % n) n) := by
  obtain ⟨g, hg⟩ : ∃ g, g = Nat.gcd (k % n) n := ⟨_, rfl⟩
  have hpos : 0 < g := hg ▸ Nat.gcd_pos_of_pos_right _ hn
  obtain ⟨num, hnum⟩ : g ∣ k % n := hg ▸ Nat.gcd_dvd_left _ _
  obtain ⟨den, hden⟩ : g ∣ n := hg ▸ Nat.gcd_dvd_right _ _
  have hn' : k % n / g = num := by rw [hnum, Nat.mul_div_cancel_left _ hpos]
  have hd' : n / g = den := by conv_lhs => rw [hden, Nat.mul_div_cancel_left _ hpos]
  have h4 : 4 * (k % n) = 4 * num * g := by rw [hnum]; ring
  have hq : 4 * (k % n) / n = 4 * num / den := by
    rw [h4]; conv_lhs => rw [hden, Nat.mul_comm g, Nat.mul_div_mul_right _ _ hpos]
  have hr : quadrantFix (4 * (k % n) % n) n = quadrantFix (4 * num % den) den := by
    rw [h4]; conv_lhs => rw [hden, Nat.mul_comm g, Nat.mul_mod_mul_right, quadrantFix_mul hpos]
  rw [hq, hr]
  simp only [circleFix, ← hg, hn', hd']
  rfl

theorem circleFix_mod (k n : Nat) : circleFix (k % n) n = circleFix k n := by simp only [circleFix, Nat.mod_mod]

theorem circleFix_mul {m n : Nat} (hm : 0 < m) (hn : 0 < n) (k : Nat) : circleFix (k * m) (n * m) = circleFix k n := by
  rw [circleFix_eq_quarterTurn (Nat.mul_pos hn hm), circleFix_eq_quarterTurn hn, Nat.mul_mod_mul_right, ← Nat.mul_assoc,
    Nat.mul_div_mul_right _ _ hm, Nat.mul_mod_mul_right, quadrantFix_mul hm]

/-- Equal fractions of the circle have equal coefficients (R123 (c)). -/
theorem circleFix_congr {k n k' n' : Nat} (hn : 0 < n) (hn' : 0 < n') (h : k * n' = k' * n) : circleFix k n = circleFix k' n' := by
  rw [← circleFix_mul hn' hn k, h, Nat.mul_comm n, circleFix_mul hn hn']

theorem trig_congr (p : Prec) {k n k' n' : Nat} (hn : 0 < n) (hn' : 0 < n') (h : k * n' = k' * n) : trig p k n = trig p k' n' := by
  rw [trig, circleFix_congr hn hn' h, trig]

theorem trig_mod (p : Prec) (k n : Nat) : trig p (k % n) n = trig p k n := by rw [trig, circleFix_mod, trig]

/-- Settles O56: the entry's index is the same fraction of NMAX. -/
theorem romEntryIsTheTwiddle : Obligations.RomEntryIsTheTwiddle := by
  intro q p b k hb hk
  obtain ⟨e, he⟩ := Nat.exists_eq_add_of_le ((Nat.pow_le_pow_iff_right Nat.one_lt_two).1 hb)
  have hpos : 0 < 2 ^ e := Nat.two_pow_pos e
  rw [romEntry, Params.nmax, he, pow_add, Nat.mul_div_cancel_left _ (Nat.two_pow_pos b)]
  refine ⟨?_, trig_congr p (Nat.mul_pos (Nat.two_pow_pos b) hpos) (Nat.two_pow_pos b) (by ring)⟩
  have h := Nat.mul_le_mul_right (2 ^ e) (show 2 * k + 2 ≤ 2 ^ b by omega)
  rw [show (2 * k + 2) * 2 ^ e = 2 * (k * 2 ^ e) + 2 * 2 ^ e by ring] at h
  omega

/-! ### Exact values and symmetries -/

/-- The coefficients at the quarter points of the circle (R123 (a)). -/
theorem trig_quarters (p : Prec) :
    trig p 0 4 = ⟨specOne p, 0⟩ ∧ trig p 1 4 = ⟨0, specOne p⟩ ∧ trig p 2 4 = ⟨fneg (specOne p), 0⟩ ∧
      trig p 3 4 = ⟨0, fneg (specOne p)⟩ := by
  cases p <;> decide +kernel

theorem cas_quarters (p : Prec) :
    cas p 0 4 = specOne p ∧ cas p 1 4 = specOne p ∧ cas p 2 4 = fneg (specOne p) ∧ cas p 3 4 = fneg (specOne p) := by
  cases p <;> decide +kernel

/-- The two symmetries at the eighths of the circle: half-way through a quadrant cosine and sine are one number. -/
theorem trig_eighths (p : Prec) :
    (∀ j < 8, j ≠ 0 → j ≠ 4 → trig p (8 - j) 8 = conj (trig p j 8)) ∧ (trig p 4 8).im = 0 ∧
      ∀ j < 3, (trig p (2 - j) 8).re = (trig p j 8).im := by
  cases p <;> decide +kernel

/-- A multiple of a quarter of the circle is a quarter point. -/
theorem trig_of_quarter (p : Prec) {k n q : Nat} (hn : 0 < n) (h : 4 * (k % n) = q * n) : trig p k n = trig p q 4 := by
  rw [← trig_mod]
  exact trig_congr p hn (by decide) (by rw [Nat.mul_comm, h])

theorem cas_of_quarter (p : Prec) {k n q : Nat} (hn : 0 < n) (h : 4 * (k % n) = q * n) : cas p k n = cas p q 4 := by
  have hodd {c : Nat} (hc : c % 2 = 1) : 8 * (k % n) ≠ c * n := fun e => by
    have : 2 * q = c := Nat.eq_of_mul_eq_mul_right hn (by linarith)
    omega
  have hc : circleFix k n = circleFix q 4 := by
    rw [← circleFix_mod]
    exact circleFix_congr hn (by decide) (by rw [Nat.mul_comm, h])
  rw [cas_eq_ofFix p (hodd rfl) (hodd rfl), hc, cas_eq_ofFix p (by omega) (by omega)]

theorem roundQ_neg (p : Prec) (neg : Bool) (num den : Nat) : fneg (roundQ p neg num den) = roundQ p (!neg) num den :=
  fneg_withSign p neg (lt_of_le_of_lt (Nat.min_le_right _ _) (infBits_lt_signWeight p))

theorem ofFix_neg (p : Prec) {x : Int} (hx : x ≠ 0) : ofFix p (-x) = fneg (ofFix p x) := by
  rw [ofFix_eq_roundQ, ofFix_eq_roundQ, roundQ_neg, Int.natAbs_neg]
  congr 1
  rw [← decide_not]
  congr 1
  rw [eq_iff_iff]
  omega

/-- The mirror at the middle of a quadrant exchanges cosine and sine, but for the middle itself. -/
theorem quadrantFix_mirror {r d : Nat} (hr : r ≤ d) (h : 2 * r ≠ d) : quadrantFix (d - r) d = (quadrantFix r d).swap := by
  have hback : d - (d - r) = r := Nat.sub_sub_self hr
  unfold quadrantFix
  split_ifs with h1 h2 h2
  · omega
  · rfl
  · rw [hback]; rfl
  · omega

/-- Going the other way round the circle keeps the cosine and changes the sign of the sine. -/
theorem quarterTurn_reflect {q : Nat} (hq : q < 4) (x : Nat × Nat) :
    quarterTurn (3 - q) x.swap = ((quarterTurn q x).1, -(quarterTurn q x).2) := by
  interval_cases q <;> simp [quarterTurn]

theorem circleFix_reflect {k n : Nat} (hkn : k < n) (h8 : 8 * k % n ≠ 0) :
    circleFix (n - k) n = ((circleFix k n).1, -(circleFix k n).2) := by
  have hn : 0 < n := by omega
  have hk : 0 < k := Nat.pos_of_ne_zero fun h => h8 (by simp [h])
  obtain ⟨r, hr⟩ : ∃ r, r = 4 * k % n := ⟨_, rfl⟩
  obtain ⟨q, hq⟩ : ∃ q, q = 4 * k / n := ⟨_, rfl⟩
  have hdiv : n * q + r = 4 * k := hq ▸ hr ▸ Nat.div_add_mod (4 * k) n
  have hlt : r < n := hr ▸ Nat.mod_lt _ hn
  have hq4 : q < 4 := hq ▸ Nat.div_lt_of_lt_mul (by omega)
  have h2 : 8 * k = 2 * r + n * (2 * q) := by linarith
  have hr0 : r ≠ 0 := fun h => h8 (by rw [h2, h, Nat.mul_zero, Nat.zero_add, Nat.mul_mod_right])
  have hmid : 2 * r ≠ n := fun h => h8 (by rw [h2, h, Nat.add_mul_mod_self_left, Nat.mod_self])
  have h4 : 4 * (n - k) = (n - r) + n * (3 - q) := by
    have : n * q + n * (3 - q) = n * 3 := by rw [← Nat.mul_add, Nat.add_sub_of_le (by omega)]
    omega
  have hrem : n - r < n := by omega
  rw [circleFix_eq_quarterTurn hn, circleFix_eq_quarterTurn hn k, Nat.mod_eq_of_lt hkn, Nat.mod_eq_of_lt (show n - k < n by omega),
    h4, Nat.add_mul_mod_self_left, Nat.add_mul_div_left _ _ hn, Nat.mod_eq_of_lt hrem, Nat.div_eq_of_lt hrem, Nat.zero_add,
    quadrantFix_mirror hlt.le hmid, quarterTurn_reflect hq4, hq, hr]

/-- R123 (d): the reflected index has the conjugate, but at half a circle, where the sine is +0 both times. -/
theorem trig_reflect (p : Prec) {k n : Nat} (hk : 0 < k) (hkn : k < n) (him : (trig p k n).im ≠ 0) :
    trig p (n - k) n = conj (trig p k n) := by
  have hn : 0 < n := by omega
  by_cases h8 : 8 * k % n = 0
  · obtain ⟨j, hj⟩ := Nat.dvd_of_mod_eq_zero h8
    have hj8 : j < 8 := Nat.lt_of_mul_lt_mul_left (show n * j < n * 8 by omega)
    have hj0 : j ≠ 0 := by rintro rfl; omega
    have hrefl : 8 * (n - k) = n * (8 - j) := by rw [Nat.mul_sub, Nat.mul_sub, hj, Nat.mul_comm 8 n]
    obtain ⟨hconj, hzero, -⟩ := trig_eighths p
    rw [trig_congr p hn (by decide) (show k * 8 = j * n by linarith)] at him ⊢
    rw [trig_congr p hn (by decide) (show (n - k) * 8 = (8 - j) * n by linarith)]
    exact hconj j hj8 hj0 fun h => him (h ▸ hzero)
  · have hx : (circleFix k n).2 ≠ 0 := fun h => him (by rw [trig, h]; rfl)
    rw [trig, circleFix_reflect hkn h8, ofFix_neg p hx]
    rfl

theorem circleFix_mirror {d k : Nat} (hk : 0 < k) (hkd : k < d) (hmid : 2 * k ≠ d) :
    circleFix (d - k) (4 * d) = (circleFix k (4 * d)).swap := by
  have hpos : 0 < 4 * d := by omega
  have h4 : 4 * (d - k) = 4 * d - 4 * k := Nat.mul_sub 4 d k
  have hfirst {l : Nat} (hl : l < d) : circleFix l (4 * d) = quarterTurn 0 (quadrantFix (4 * l) (4 * d)) := by
    rw [circleFix_eq_quarterTurn hpos, Nat.mod_eq_of_lt (show l < 4 * d by omega), Nat.div_eq_of_lt (by omega),
      Nat.mod_eq_of_lt (by omega)]
  rw [hfirst (by omega), hfirst hkd, h4, quadrantFix_mirror (by omega) (by omega)]
  rfl

/-- R123 (e): within the first quadrant the mirrored index exchanges cosine and sine. -/
theorem trig_mirror_re (p : Prec) {d k : Nat} (hd : 0 < d) (hk : k ≤ d) :
    (trig p (d - k) (4 * d)).re = (trig p k (4 * d)).im := by
  have heighth {j : Nat} (h : 2 * k = j * d) (hj : j < 3) : (trig p (d - k) (4 * d)).re = (trig p k (4 * d)).im := by
    have h' : 2 * (d - k) = (2 - j) * d := by rw [Nat.mul_sub, Nat.sub_mul, h]
    rw [trig_congr p (by omega) (by decide) (show k * 8 = j * (4 * d) by linarith),
      trig_congr p (by omega) (by decide) (show (d - k) * 8 = (2 - j) * (4 * d) by linarith)]
    exact (trig_eighths p).2.2 j hj
  rcases Nat.eq_zero_or_pos k with h0 | h0
  · exact heighth (j := 0) (by omega) (by decide)
  rcases Nat.eq_or_lt_of_le hk with hkd | hkd
  · exact heighth (j := 2) (by omega) (by decide)
  by_cases hmid : 2 * k = d
  · exact heighth (j := 1) (by omega) (by decide)
  · rw [trig, circleFix_mirror h0 hkd hmid, trig]
    rfl

/-- Settles O54: the quarter points are those of a circle of four points, and the symmetries those of the reduction. -/
theorem coefficientsHaveTheListedSymmetries : Obligations.CoefficientsHaveTheListedSymmetries := by
  intro p k n hn one
  obtain ⟨t0, t1, t2, t3⟩ := trig_quarters p
  obtain ⟨c0, c1, c2, c3⟩ := cas_quarters p
  have quarter {q : Nat} {t : Cpx p} {c : Fp p} (ht : trig p q 4 = t) (hc : cas p q 4 = c) (h : 4 * (k % n) = q * n) :
      trig p k n = t ∧ cas p k n = c := ⟨(trig_of_quarter p hn h).trans ht, (cas_of_quarter p hn h).trans hc⟩
  refine ⟨fun h => quarter t0 c0 (by omega), fun h => quarter t1 c1 (by omega), quarter t2 c2, quarter t3 c3,
    fun h => if_pos h, trig_mod p k n, fun m hm => ?_, trig_reflect p, fun h4 hk => ?_⟩
  · exact trig_congr p (Nat.mul_pos hn hm) hn (by ring)
  · obtain ⟨d, rfl⟩ := Nat.dvd_of_mod_eq_zero h4
    rw [Nat.mul_div_cancel_left d (by decide)] at hk ⊢
    exact trig_mirror_re p (by omega) hk

/-! ### The scaled values near the exact ones -/

/-- The quadrant's pair is near the exact one: in the second half it is the mirrored pair of the first. -/
theorem quadrantFix_near {r d : Nat} (hd : 0 < d) (hr : r ≤ d) :
    |((quadrantFix r d).1 : ℝ) / 2 ^ trigBits - Real.cos (Real.pi / 2 * (r / d))| ≤ 16 / 2 ^ trigBits ∧
      |((quadrantFix r d).2 : ℝ) / 2 ^ trigBits - Real.sin (Real.pi / 2 * (r / d))| ≤ 16 / 2 ^ trigBits := by
  unfold quadrantFix
  split
  · next h => exact cosFix_sinFix_near hd h
  · next h =>
    obtain ⟨hcos, hsin⟩ := cosFix_sinFix_near hd (show 2 * (d - r) ≤ d by omega)
    have hd' : (d : ℝ) ≠ 0 := by exact_mod_cast hd.ne'
    have hangle : Real.pi / 2 * (((d - r : Nat) : ℝ) / d) = Real.pi / 2 - Real.pi / 2 * (r / d) := by
      rw [Nat.cast_sub hr]
      field_simp
    rw [hangle, Real.cos_pi_div_two_sub] at hcos
    rw [hangle, Real.sin_pi_div_two_sub] at hsin
    exact ⟨hsin, hcos⟩

/-- `q` quarter turns of a pair near the cosine and sine of `x`. -/
theorem quarterTurn_near {q : Nat} (hq : q < 4) {c s : Nat} {x e : ℝ} (hc : |(c : ℝ) / 2 ^ trigBits - Real.cos x| ≤ e)
    (hs : |(s : ℝ) / 2 ^ trigBits - Real.sin x| ≤ e) :
    |((quarterTurn q (c, s)).1 : ℝ) / 2 ^ trigBits - Real.cos (x + q * (Real.pi / 2))| ≤ e ∧
      |((quarterTurn q (c, s)).2 : ℝ) / 2 ^ trigBits - Real.sin (x + q * (Real.pi / 2))| ≤ e := by
  have neg {a b : ℝ} (h : |a / 2 ^ trigBits - b| ≤ e) : |(-a) / 2 ^ trigBits - -b| ≤ e := by
    rwa [neg_div, ← neg_sub', abs_neg]
  match q, hq with
  | 0, _ => simpa [quarterTurn] using And.intro hc hs
  | 1, _ =>
    rw [Nat.cast_one, one_mul, Real.cos_add_pi_div_two, Real.sin_add_pi_div_two]
    exact ⟨by simpa [quarterTurn] using neg hs, by simpa [quarterTurn] using hc⟩
  | 2, _ =>
    rw [show x + (2 : Nat) * (Real.pi / 2) = x + Real.pi by push_cast; ring, Real.cos_add_pi, Real.sin_add_pi]
    exact ⟨by simpa [quarterTurn] using neg hc, by simpa [quarterTurn] using neg hs⟩
  | 3, _ =>
    rw [show x + (3 : Nat) * (Real.pi / 2) = x + Real.pi + Real.pi / 2 by push_cast; ring, Real.cos_add_pi_div_two,
      Real.sin_add_pi_div_two, Real.cos_add_pi, Real.sin_add_pi, neg_neg]
    exact ⟨by simpa [quarterTurn] using hs, by simpa [quarterTurn] using neg hc⟩

/-- THE SCALED COEFFICIENTS are within sixteen units, `2^-252`, of the exact ones. -/
theorem circleFix_near {n : Nat} (hn : 0 < n) (k : Nat) :
    |((circleFix k n).1 : ℝ) / 2 ^ trigBits - (exactTrig k n).re| ≤ 16 / 2 ^ trigBits ∧
      |((circleFix k n).2 : ℝ) / 2 ^ trigBits - (exactTrig k n).im| ≤ 16 / 2 ^ trigBits := by
  have hmod : exactTrig k n = exactTrig (k % n) n := by
    have h := exactTwiddle_mod .inv hn 1 k
    rw [one_mul, one_mul] at h
    exact h.symm
  have hq : 4 * (k % n) / n < 4 := Nat.div_lt_of_lt_mul (by have := Nat.mod_lt k hn; omega)
  have hr : 4 * (k % n) % n ≤ n := (Nat.mod_lt _ hn).le
  have hangle : 2 * Real.pi * (k % n : Nat) / n =
      Real.pi / 2 * ((4 * (k % n) % n : Nat) / n) + (4 * (k % n) / n : Nat) * (Real.pi / 2) := by
    have hn' : (n : ℝ) ≠ 0 := by exact_mod_cast hn.ne'
    have hdiv : (4 * (k % n : Nat) : ℝ) = n * (4 * (k % n) / n : Nat) + (4 * (k % n) % n : Nat) := by
      exact_mod_cast (Nat.div_add_mod (4 * (k % n)) n).symm
    field_simp
    linear_combination hdiv
  obtain ⟨hcos, hsin⟩ := quadrantFix_near hn hr
  rw [hmod, circleFix_eq_quarterTurn hn]
  simp only [exactTrig, hangle]
  exact quarterTurn_near hq hcos hsin

/-- Settles O57: sixteen units of 2^-256 are less than 2^-250. -/
theorem scaledCoefficientsAreCosineAndSine : Obligations.ScaledCoefficientsAreCosineAndSine := by
  intro k n hn
  have hle : (16 : ℝ) / 2 ^ trigBits ≤ 1 / 2 ^ 250 := by norm_num [trigBits]
  obtain ⟨hcos, hsin⟩ := circleFix_near hn k
  exact ⟨hcos.trans hle, hsin.trans hle⟩

/-! ### The bounds of a component -/

/-- A scaled value that is at most 1, and 0 or well above the smallest normal one of both formats. -/
def InUnitRange (x : Nat) : Prop := x ≤ 2 ^ 256 ∧ (x = 0 ∨ 2 ^ 235 ≤ x)

theorem cosSeries_le (x2 n i : Nat) : cosSeries x2 n i ≤ 2 ^ trigBits := by
  cases n with
  | zero => exact le_rfl
  | succ n => exact Nat.sub_le _ _

theorem sinSeries_le (x2 n i : Nat) : sinSeries x2 n i ≤ 2 ^ trigBits := by
  cases n with
  | zero => exact le_rfl
  | succ n => exact Nat.sub_le _ _

theorem angleFix_le {r d : Nat} (hr : 2 * r ≤ d) : angleFix r d ≤ 2 ^ trigBits := by
  have hpi : halfPiFix ≤ 2 * 2 ^ trigBits := by decide
  refine Nat.div_le_of_le_mul ?_
  calc halfPiFix * r ≤ 2 * 2 ^ trigBits * r := Nat.mul_le_mul_right r hpi
    _ = 2 * r * 2 ^ trigBits := by ring
    _ ≤ d * 2 ^ trigBits := Nat.mul_le_mul_right _ hr

theorem sinFix_le {r d : Nat} (hr : 2 * r ≤ d) : sinFix r d ≤ 2 ^ trigBits :=
  Nat.div_le_of_le_mul (Nat.mul_le_mul (angleFix_le hr) (sinSeries_le _ _ _))

theorem sinFix_zero (d : Nat) : sinFix 0 d = 0 := by simp [sinFix, angleFix]

/-- A scaled value near one that is at least `2^-20` is not small. -/
theorem le_of_near {x : Nat} {y : ℝ} (h : |(x : ℝ) / 2 ^ trigBits - y| ≤ 16 / 2 ^ trigBits) (hy : 1 / 2 ^ 20 ≤ y) :
    2 ^ 235 ≤ x := by
  have hx := (abs_le.1 h).1
  have : (1 : ℝ) / 2 ^ 20 - 16 / 2 ^ trigBits ≤ x / 2 ^ trigBits := by linarith
  rw [le_div_iff₀ (by positivity)] at this
  have h2 : (2 : ℝ) ^ 235 ≤ (1 / 2 ^ 20 - 16 / 2 ^ trigBits) * 2 ^ trigBits := by norm_num [trigBits]
  exact_mod_cast h2.trans this

theorem cosFix_inUnitRange {r d : Nat} (hd : 0 < d) (hr : 2 * r ≤ d) : InUnitRange (cosFix r d) := by
  refine ⟨cosSeries_le _ _ _, .inr (le_of_near (cosFix_sinFix_near hd hr).1 ?_)⟩
  have hpi := Real.pi_pos
  have hhalf : (r : ℝ) / d ≤ 1 / 2 := by
    rw [div_le_div_iff₀ (by exact_mod_cast hd) two_pos]
    exact_mod_cast (by omega : r * 2 ≤ 1 * d)
  have hlin := Real.one_sub_mul_le_cos (x := Real.pi / 2 * (r / d)) (by positivity)
    (mul_le_of_le_one_right (by positivity) (by linarith))
  rw [show 2 / Real.pi * (Real.pi / 2 * (r / d)) = (r : ℝ) / d by field_simp] at hlin
  linarith

theorem sinFix_inUnitRange {r d : Nat} (hd : 0 < d) (hsize : d ≤ 2 ^ 20) (hr : 2 * r ≤ d) : InUnitRange (sinFix r d) := by
  refine ⟨sinFix_le hr, ?_⟩
  rcases Nat.eq_zero_or_pos r with rfl | hpos
  · exact .inl (sinFix_zero d)
  refine .inr (le_of_near (cosFix_sinFix_near hd hr).2 ?_)
  have hpi := Real.pi_pos
  have hd' : (0 : ℝ) < d := by exact_mod_cast hd
  have hone : (r : ℝ) / d ≤ 1 := by
    rw [div_le_one hd']
    exact_mod_cast (by omega : r ≤ d)
  have hlin := Real.mul_le_sin (x := Real.pi / 2 * (r / d)) (by positivity) (mul_le_of_le_one_right (by positivity) hone)
  rw [show 2 / Real.pi * (Real.pi / 2 * (r / d)) = (r : ℝ) / d by field_simp] at hlin
  refine le_trans ?_ hlin
  rw [div_le_div_iff₀ (by positivity) hd']
  exact_mod_cast Nat.mul_le_mul hpos hsize

theorem quadrantFix_inUnitRange {r d : Nat} (hd : 0 < d) (hsize : d ≤ 2 ^ 20) (hr : r ≤ d) :
    InUnitRange (quadrantFix r d).1 ∧ InUnitRange (quadrantFix r d).2 := by
  unfold quadrantFix
  split
  · next h => exact ⟨cosFix_inUnitRange hd h, sinFix_inUnitRange hd hsize h⟩
  · exact ⟨sinFix_inUnitRange hd hsize (by omega), cosFix_inUnitRange hd (by omega)⟩

theorem quarterTurn_inUnitRange (q : Nat) {x : Nat × Nat} (h1 : InUnitRange x.1) (h2 : InUnitRange x.2) :
    InUnitRange (quarterTurn q x).1.natAbs ∧ InUnitRange (quarterTurn q x).2.natAbs := by
  unfold quarterTurn
  split <;> simp [h1, h2]

theorem circleFix_inUnitRange {n : Nat} (hn : 0 < n) (hsize : n ≤ 2 ^ 20) (k : Nat) :
    InUnitRange (circleFix k n).1.natAbs ∧ InUnitRange (circleFix k n).2.natAbs := by
  rw [circleFix_eq_quarterTurn hn]
  obtain ⟨hcos, hsin⟩ := quadrantFix_inUnitRange hn hsize (Nat.mod_lt (4 * (k % n)) hn).le
  exact quarterTurn_inUnitRange _ hcos hsin

/-- Rounding such a value keeps it at most 1 and zero or normal. -/
theorem ofFix_bounds (p : Prec) {x : Int} (hx : InUnitRange x.natAbs) :
    ∃ neg m, classify (ofFix p x) = .fin neg m ∧ m ≤ 2 ^ unitExp p ∧ (m = 0 ∨ 2 ^ fracBits p ≤ m) := by
  obtain ⟨hle, h0 | hge⟩ := hx
  · obtain rfl := Int.natAbs_eq_zero.1 h0
    exact ⟨false, 0, classify_zero p false, Nat.zero_le _, .inl rfl⟩
  obtain ⟨one, hone⟩ := exists_pattern_of_le p (n := 1) (by decide)
  have hnormal : classify (withSign p false (0 * 2 ^ fracBits p + 2 ^ fracBits p)) = .fin false (2 ^ fracBits p * 2 ^ 0) :=
    classify_bits p false (Nat.pow_le_pow_right two_pos (Nat.le_succ _)) (.inl rfl) (by cases p <;> decide)
  rw [pow_zero, Nat.mul_one] at hnormal
  rw [Nat.one_mul] at hone
  have hlo : 2 ^ fracBits p * 2 ^ trigBits ≤ x.natAbs * 2 ^ unitExp p :=
    calc 2 ^ fracBits p * 2 ^ trigBits = 2 ^ 235 * 2 ^ (fracBits p + 21) := by rw [trigBits]; ring
      _ ≤ 2 ^ 235 * 2 ^ unitExp p := Nat.mul_le_mul_left _ (Nat.pow_le_pow_right two_pos (by cases p <;> decide))
      _ ≤ x.natAbs * 2 ^ unitExp p := Nat.mul_le_mul_right _ hge
  have hhi : x.natAbs * 2 ^ unitExp p ≤ 2 ^ unitExp p * 2 ^ trigBits := by
    rw [Nat.mul_comm]
    exact Nat.mul_le_mul_left _ hle
  obtain ⟨m, hm, hmlo, hmhi⟩ := (ofFix_roundsTo p x).between (Nat.two_pow_pos _) hnormal hone hlo hhi
  exact ⟨_, m, hm, hmhi, .inr hmlo⟩

/-- Settles O55: the scaled components are in that range, and so rounded. -/
theorem twiddleComponentsAreAtMostOneAndNormal : Obligations.TwiddleComponentsAreAtMostOneAndNormal := by
  intro p k n hn hsize v hv
  obtain ⟨hcos, hsin⟩ := circleFix_inUnitRange hn hsize k
  rcases hv with rfl | rfl
  · exact ofFix_bounds p hcos
  · exact ofFix_bounds p hsin

end Sys2Proof.Machine
end

section
/-! PROOFS. The ideal results: the engine's dataflow in exact arithmetic, rule by rule. -/

namespace Sys2Proof.Machine

theorem getElem_dft (dir : Dir) {n i : Nat} (z : List ℂ) (h : i < (dft dir n z).length) :
    (dft dir n z)[i] = dftBin dir n z i := by
  simp [dft]

/-- The inverse cascade of the forward one gives `2^b` times the input (R185). -/
theorem flowCascade_inv_fwd {b : Nat} {z : List ℂ} (hz : z.length = 2 ^ b) :
    flowCascade exactArith exactTrig .inv (2 ^ b) (flowCascade exactArith exactTrig .fwd (2 ^ b) z) =
      z.map fun v => ((2 ^ b : Nat) : ℂ) * v := by
  rw [flowCascade_exact, flowCascade_exact]
  refine List.ext_getElem (by simp [dft, hz]) fun i h1 h2 => ?_
  have hi : i < 2 ^ b := by simpa [dft] using h1
  rw [List.getElem_map, getElem_dft, dft_inv_fwd _ _ hi, List.getD_eq_getElem _ _ (hz ▸ hi)]

/-- The one-sided spectrum and the way back, of a real list of even power-of-two length (R206). -/
theorem realTransforms_exact {b : Nat} {x : List ℝ} (hx : x.length = 2 ^ (b + 1)) :
    let n := 2 ^ (b + 1)
    let spectrum := flowUnpack exactArith exactTrig n (flowCascade exactArith exactTrig .fwd (2 ^ b) (flowPack exactArith x n))
    spectrum = (List.range (2 ^ b + 1)).map (dftBin .fwd n (x.map Complex.ofReal)) ∧
      flowUnzip exactArith (flowCascade exactArith exactTrig .inv (2 ^ b) (flowRepack exactArith exactTrig n spectrum)) n =
        x.map fun v => (n : ℝ) * v := by
  have hpos : 0 < 2 ^ b := Nat.two_pow_pos b
  rw [pow_succ'] at hx ⊢
  intro n spectrum
  have hspectrum : spectrum = (List.range (2 ^ b + 1)).map (dftBin .fwd n (x.map Complex.ofReal)) := by
    rw [← flowUnpack_exact hpos, ← flowCascade_exact]
  refine ⟨hspectrum, ?_⟩
  rw [hspectrum, flowRepack_exact hpos, flowCascade_exact]
  exact flowUnzip_roundtrip x hx

/-- The cascade's output `k` is the Goertzel section's (R222). -/
theorem getElem?_flowCascade_eq_flowGsos {b k : Nat} {x : List ℝ} (hk : k < 2 ^ b) (hx : x.length = 2 ^ b) :
    (flowCascade exactArith exactTrig .fwd (2 ^ b) (x.map Complex.ofReal))[k]? =
      some (flowGsos exactArith exactTrig (2 ^ b) x k) := by
  rw [flowCascade_exact, flowGsos_exact (Nat.two_pow_pos b) x hx, dft, getElem?_map_range _ hk]

/-- Settles O60: the engine's units by their definitions, the ideal transforms by the laws of exact arithmetic. -/
theorem exactArithmeticGivesTheIdealResults : Obligations.ExactArithmeticGivesTheIdealResults := by
  refine ⟨fun p dir n k x z => ⟨cascade_eq_flow p dir n z, pack_eq_flow p x n, unpack_eq_flow p n z, repack_eq_flow p n z,
      unzip_eq_flow p z n, gsos_eq_flow p n x k, hcascade_eq_flow p n x, hdirect_eq_flow p n x⟩,
    fun b z hz => ⟨flowCascade_exact .fwd b z, flowCascade_exact .inv b z, flowCascade_inv_fwd hz⟩,
    fun b x _ => flowHcascade_exact b x, fun n x hn hx => ⟨flowHdirect_exact hn x, dht_dht n x hx⟩,
    fun b x hx => realTransforms_exact hx, fun n k x hk hx => ⟨flowGsos_exact (Nat.zero_lt_of_lt hk) x hx, ?_⟩⟩
  rintro b rfl
  exact getElem?_flowCascade_eq_flowGsos hk hx

end Sys2Proof.Machine
end

section
/-! PROOFS. The configuration commands: SIZE is an error of theirs alone, and what one whose checks pass does to its slot. -/

namespace Sys2Proof.Machine

/-! ### Which errors a command can report -/

/-- The first error is one of the list. -/
theorem exists_mem_of_firstError {l : List (Bool × CmdError)} {e : CmdError} (h : firstError l = some e) :
    ∃ x ∈ l, x.2 = e := by
  obtain ⟨x, hx, hxe⟩ := Option.map_eq_some_iff.1 h
  exact ⟨x, List.mem_of_find?_eq_some hx, hxe⟩

/-- The context errors are CTX_RANGE, NOT_CONFIGURED, KIND and PREC (R246). -/
theorem contextErrors_ne_size {c : Nat} {kind : Kind} {p : Prec} {s : State} {x : Bool × CmdError}
    (h : x ∈ contextErrors c kind p s) : x.2.code ≠ .size := by
  simp only [contextErrors, List.mem_cons, List.not_mem_nil, or_false] at h
  rcases h with rfl | rfl | rfl | rfl <;> exact nofun

/-- The buffer errors are LEN, ALIGN, RANGE and OVERLAP (R242). -/
theorem bufferErrors_ne_size {p : Prec} {s : State} {u : Uses} {x : Bool × CmdError} (h : x ∈ bufferErrors p s u) :
    x.2.code ≠ .size := by
  simp only [bufferErrors, List.mem_append, List.mem_map] at h
  rcases h with ((⟨_, -, rfl⟩ | ⟨_, -, rfl⟩) | ⟨_, -, rfl⟩) | ⟨_, -, rfl⟩ <;> exact nofun

/-- R247 lists SIZE for the configuration commands alone: the others test their context, their buffers, and PARITY or BIN. -/
theorem specErrors_ne_size {i : Instr} (hi : isConfig i = false) {s : State} {x : Bool × CmdError} (h : x ∈ specErrors i s) :
    x.2.code ≠ .size := by
  cases i with
  | cfgFft | cfgRfft | cfgGz | cfgDht => simp [isConfig] at hi
  | fftShift p =>
    rcases List.mem_cons.1 h with rfl | hbuf
    · exact nofun
    · exact bufferErrors_ne_size hbuf
  | gzDir c p =>
    rcases List.mem_append.1 h with hctx | hrest
    · exact contextErrors_ne_size hctx
    · rcases List.mem_cons.1 hrest with rfl | hbuf
      · exact nofun
      · exact bufferErrors_ne_size hbuf
  | _ =>
    rcases List.mem_append.1 h with hctx | hbuf
    · exact contextErrors_ne_size hctx
    · exact bufferErrors_ne_size hbuf

/-- Settles O14: the code is 0 of an accepted command, and of a failed one that of an error R247 lists for it. -/
theorem transformsNeverFailWithSize : Obligations.TransformsNeverFailWithSize := by
  intro i s t he hi h
  rw [exec_idle he, checkOf_eq_firstError] at h
  obtain rfl := Host.Outcome.next.inj h
  cases hfirst : firstError (specErrors i s) with
  | none => exact nofun
  | some e =>
    obtain ⟨x, hx, rfl⟩ := exists_mem_of_firstError hfirst
    exact specErrors_ne_size hi hx

/-! ### Commands that pass their checks -/

/-- A command whose checks pass at an IDLE engine is accepted, and its completion has its effect over the registers it captured
(R243, R244). -/
theorem runsTo_of_check {i : Instr} {s : State} (he : s.engine = .idle) (hcheck : checkOf i s.locked s = none) :
    RunsTo i s (finishCommand (effectOf i { s.locked with cmd := encode i } (acceptedState (encode i) s))) := by
  have haccept : exec i s = .next (acceptedState (encode i) s) := by rw [exec_idle he, hcheck, issueCommand_none]
  have hkept : checkOf i { s.locked with cmd := encode i } (acceptedState (encode i) s) = none :=
    checkOf_accepted hcheck (encode i)
  exact ⟨haccept, by rw [exec_busy (s := acceptedState (encode i) s) rfl, if_pos ⟨rfl, hkept⟩]⟩

/-- A configuration command whose checks pass sets its slot and nothing else (R160 to R164). -/
theorem runsTo_of_isConfig {i : Instr} {s : State} (hi : isConfig i = true) (he : s.engine = .idle)
    (hcheck : checkOf i s.locked s = none) :
    RunsTo i s { completedState (encode i) s with
      ctxs := s.ctxs.set i.ctx { valid := true, kind := specKind i, prec := i.prec, n := s.locked.arg0 } } := by
  have hrun := runsTo_of_check he hcheck
  cases i with
  | cfgFft | cfgRfft | cfgGz | cfgDht => exact hrun
  | _ => simp [isConfig] at hi

theorem sizeOkFft_two_pow (b : Nat) : sizeOkFft (2 ^ b) = true := (isPow2_iff _).2 ⟨b, rfl⟩

theorem sizeOkRfft_two_pow (b : Nat) : sizeOkRfft (2 ^ (b + 1)) = true := by
  have hhalf : 2 ^ (b + 1) / 2 = 2 ^ b := by rw [Nat.pow_succ, Nat.mul_div_cancel _ Nat.two_pos]
  exact Bool.and_eq_true_iff.2 ⟨(isPow2_iff _).2 ⟨b + 1, rfl⟩, (isPow2_iff _).2 ⟨b, hhalf⟩⟩

/-- Settles O15: the sizes are those the checks accept, and a configuration command that passes them sets its slot. -/
theorem configurationCommandsSetTheirSlot : Obligations.ConfigurationCommandsSetTheirSlot := by
  intro c p s he hc h1 hmax slot
  have hcheck : ∀ ok : Nat → Bool, ok s.locked.arg0.toNat = true → checkConfig c ok s.locked s = none := fun ok hok =>
    checkConfig_eq_none.2 ⟨hc, h1, hmax, hok⟩
  refine ⟨?_, ?_, runsTo_of_isConfig rfl he (hcheck sizeOkAny rfl), runsTo_of_isConfig rfl he (hcheck sizeOkAny rfl)⟩
  · rintro ⟨b, hb⟩
    exact runsTo_of_isConfig rfl he (hcheck sizeOkFft (hb ▸ sizeOkFft_two_pow b))
  · rintro ⟨b, hb⟩
    exact runsTo_of_isConfig rfl he (hcheck sizeOkRfft (hb ▸ sizeOkRfft_two_pow b))

end Sys2Proof.Machine
end

section
/-! PROOFS. The complex FFT commands and FFT_SHIFT: a command whose buffers are where R242 wants them passes its checks, and what
the effect of each stores. -/

namespace Sys2Proof.Machine

/-! ### Checks that pass -/

/-- Buffers of the right lengths, aligned, within DMEM and pairwise apart pass check_bufs (R242). -/
theorem checkBufs_of_buffers {s : State} {p : Prec} {u : Uses} (hbuf : ∀ x ∈ u, BufferIs s p x.1 x.2)
    (hapart : u.Pairwise fun x y => Apart s p x.1 y.1) : checkBufs s.locked p s.params.dmemBytes u = none := by
  refine checkBufs_eq_none.2 ⟨fun x hx => (hbuf x hx).1, fun x hx => ?_, fun x hx => ?_, hapart.imp fun h => ?_⟩
  · obtain ⟨-, halign, -⟩ := hbuf x hx
    exact decide_eq_true halign
  · obtain ⟨hlen, -, hend⟩ := hbuf x hx
    rw [← hlen] at hend
    exact decide_eq_true hend
  · exact Bool.eq_false_iff.2 fun hover => (overlaps_iff_not_apart s p _ _).1 hover h

/-- A valid slot of the right kind and precision passes check_ctx (R246). -/
theorem checkCtx_of_contextIs {s : State} {c n : Nat} {kind : Kind} {p : Prec} (h : ContextIs s c kind p n) :
    checkCtx c kind p s = none := by
  obtain ⟨hc, hvalid, hkind, hprec, -⟩ := h
  exact checkCtx_eq_none.2 ⟨hc, hvalid, hkind, hprec⟩

/-- The checks the three complex FFT commands share (R180 to R182). -/
theorem checkComplex_of_buffers {s : State} {c n : Nat} {p : Prec} (hctx : ContextIs s c .fft p n) (h0 : BufferIs s p 0 n)
    (h1 : BufferIs s p 1 n) (hapart : Apart s p 0 1) : checkComplex c p s.locked s = none := by
  have hslot : checkCtx c .fft p s = none := checkCtx_of_contextIs hctx
  obtain ⟨-, -, -, -, rfl⟩ := hctx
  refine Option.or_eq_none_iff.2 ⟨hslot, checkBufs_of_buffers (fun x hx => ?_) (List.pairwise_pair.2 hapart)⟩
  rcases List.mem_pair.1 hx with rfl | rfl
  · exact h0
  · exact h1

/-- The checks of FFT_SHIFT: an even length passes PARITY (R183). -/
theorem checkFftShift_of_buffer {s : State} {p : Prec} {h : Nat} (h0 : BufferIs s p 0 (2 * h)) :
    checkFftShift p s.locked s = none := by
  have hlen : s.locked.b0.len.toNat = 2 * h := h0.1
  rw [checkFftShift, if_neg (by omega)]
  refine checkBufs_of_buffers (fun x hx => ?_) (List.pairwise_singleton _ _)
  obtain rfl := List.mem_singleton.1 hx
  exact hlen.symm ▸ h0

/-! ### Transforms in place -/

/-- A command whose effect is a transform in place, and whose checks pass, stores the transform of its two buffers and changes
nothing else. -/
theorem runsTo_inPlace {i : Instr} {s : State} {c n : Nat} {p : Prec} {f : Nat → List (Cpx p) → List (Cpx p)}
    (he : s.engine = .idle) (hcheck : checkOf i s.locked s = none) (heffect : effectOf i = inPlace c p f)
    (hsize : (s.slot c).size = n) :
    let z := List.zipWith Cpx.mk (bufferOf s p 0 n (s.draws + 1)) (bufferOf s p 1 n (s.draws + 1 + elemBytes p * n))
    RunsTo i s { completedState (encode i) s with
      dmem := stored s 1 ((f n z).map Cpx.im) (stored s 0 ((f n z).map Cpx.re) s.dmem)
      draws := s.draws + 1 + elemBytes p * n + elemBytes p * n } := by
  subst hsize
  have hrun := runsTo_of_check he hcheck
  rw [heffect] at hrun
  exact hrun

/-- Dividing the parts of a list is dividing those of each element (R138, R182). -/
theorem scaleCpx_eq_map {p : Prec} (z : List (Cpx p)) (n : Nat) :
    scaleCpx z n = z.map fun v => ⟨fdiv v.re (ofNatP p n), fdiv v.im (ofNatP p n)⟩ := by
  simp only [scaleCpx, zipCpx, scale, List.map_map, List.zipWith_map, List.zipWith_self, Function.comp_apply]

/-- Settles O16: the three commands share their checks, and the effect of each is a transform in place. -/
theorem complexFftCommandsTransformInPlace : Obligations.ComplexFftCommandsTransformInPlace := by
  intro c p n s he hctx h0 h1 hapart z after inverse
  have hcheck : checkComplex c p s.locked s = none := checkComplex_of_buffers hctx h0 h1 hapart
  obtain ⟨-, -, -, -, hsize⟩ := hctx
  refine ⟨runsTo_inPlace (i := .fftDir c p) (f := cascade .fwd) he hcheck rfl hsize,
    runsTo_inPlace (i := .fftInv c p) (f := cascade .inv) he hcheck rfl hsize, ?_⟩
  rw [← scaleCpx_eq_map]
  exact runsTo_inPlace (i := .fftInvn c p) (f := fun n z => scaleCpx (cascade .inv n z) n) he hcheck rfl hsize

/-! ### FFT_SHIFT -/

/-- SHIFTPERM of a list of even length exchanges its halves (R146). -/
theorem shiftPerm_two_mul {p : Prec} {a : List (Fp p)} {h : Nat} (ha : a.length = 2 * h) :
    shiftPerm a (2 * h) = a.drop h ++ a.take h := by
  rw [← List.rotate_eq_drop_append_take (by omega)]
  refine List.ext_getElem (by simp [ha]) fun i hi _ => ?_
  have hpos : 0 < a.length := by rw [length_shiftPerm] at hi; omega
  have hhalf : a.length / 2 = h := by omega
  simp [shiftPerm, List.getElem_rotate, at0, ← ha, hhalf, Nat.mod_lt _ hpos]

/-- FFT_SHIFT whose checks pass stores the SHIFTPERM of its array and changes nothing else. -/
theorem runsTo_fftShift {s : State} {p : Prec} {n : Nat} (he : s.engine = .idle) (hcheck : checkFftShift p s.locked s = none)
    (hlen : (s.locked.desc 0).len.toNat = n) :
    RunsTo (.fftShift p) s { completedState (encode (.fftShift p)) s with
      dmem := stored s 0 (shiftPerm (bufferOf s p 0 n (s.draws + 1)) n) s.dmem
      draws := s.draws + 1 + elemBytes p * n } := by
  subst hlen
  exact runsTo_of_check (i := .fftShift p) he hcheck

/-- Settles O17: its checks pass, and SHIFTPERM exchanges the halves. -/
theorem fftShiftSwapsTheHalves : Obligations.FftShiftSwapsTheHalves := by
  intro p h s he h0 a
  have ha : a.length = 2 * h := Memory.length_loadElems ..
  rw [← shiftPerm_two_mul ha]
  exact runsTo_fftShift he (checkFftShift_of_buffer h0) h0.1

end Sys2Proof.Machine
end

section
/-! PROOFS. The real-input FFT commands: what each stores when its buffers are where R242 wants them, and the half-size
decomposition of RFFT_DIRC as the last stage of the N-point cascade (R204). -/

namespace Sys2Proof.Machine

variable {p : Prec}

/-! ### Checks that pass -/

/-- Three buffers of the right lengths, aligned, within DMEM and pairwise apart pass check_bufs (R242). -/
theorem checkBufs_of_three {s : State} {j k l : Fin 4} {a b d : Nat} (hj : BufferIs s p j a) (hk : BufferIs s p k b)
    (hl : BufferIs s p l d) (hjk : Apart s p j k) (hjl : Apart s p j l) (hkl : Apart s p k l) :
    checkBufs s.locked p s.params.dmemBytes [(j, a), (k, b), (l, d)] = none := by
  refine checkBufs_of_buffers ?_ ?_
  · simp only [List.forall_mem_cons]
    exact ⟨hj, hk, hl, nofun⟩
  · simp only [List.pairwise_cons, List.forall_mem_cons]
    exact ⟨⟨hjk, hjl, nofun⟩, ⟨hkl, nofun⟩, nofun, .nil⟩

/-- The checks of RFFT_DIR (R200). -/
theorem checkRfftDir_of_buffers {s : State} {c n : Nat} (hctx : ContextIs s c .rfft p n) (h0 : BufferIs s p 0 n)
    (h1 : BufferIs s p 1 (n / 2 + 1)) (h2 : BufferIs s p 2 (n / 2 + 1)) (h01 : Apart s p 0 1) (h02 : Apart s p 0 2)
    (h12 : Apart s p 1 2) : checkRfftDir c p s.locked s = none := by
  have hslot : checkCtx c .rfft p s = none := checkCtx_of_contextIs hctx
  obtain ⟨-, -, -, -, rfl⟩ := hctx
  exact Option.or_eq_none_iff.2 ⟨hslot, checkBufs_of_three h0 h1 h2 h01 h02 h12⟩

/-- The checks of RFFT_DIRC (R201). -/
theorem checkRfftDirc_of_buffers {s : State} {c n : Nat} (hctx : ContextIs s c .rfft p n) (h0 : BufferIs s p 0 n)
    (h1 : BufferIs s p 1 n) (h2 : BufferIs s p 2 n) (h3 : BufferIs s p 3 n) (h01 : Apart s p 0 1) (h02 : Apart s p 0 2)
    (h03 : Apart s p 0 3) (h12 : Apart s p 1 2) (h13 : Apart s p 1 3) (h23 : Apart s p 2 3) :
    checkRfftDirc c p s.locked s = none := by
  have hslot : checkCtx c .rfft p s = none := checkCtx_of_contextIs hctx
  obtain ⟨-, -, -, -, rfl⟩ := hctx
  refine Option.or_eq_none_iff.2 ⟨hslot, checkBufs_of_buffers ?_ ?_⟩
  · simp only [List.forall_mem_cons]
    exact ⟨h0, h1, h2, h3, nofun⟩
  · simp only [List.pairwise_cons, List.forall_mem_cons]
    exact ⟨⟨h01, h02, h03, nofun⟩, ⟨h12, h13, nofun⟩, ⟨h23, nofun⟩, nofun, .nil⟩

/-- The checks RFFT_INV and RFFT_INVN share (R202, R203). -/
theorem checkRealInverse_of_buffers {s : State} {c n : Nat} (hctx : ContextIs s c .rfft p n)
    (h0 : BufferIs s p 0 (n / 2 + 1)) (h1 : BufferIs s p 1 (n / 2 + 1)) (h2 : BufferIs s p 2 n) (h01 : Apart s p 0 1)
    (h02 : Apart s p 0 2) (h12 : Apart s p 1 2) : checkRealInverse c p s.locked s = none := by
  have hslot : checkCtx c .rfft p s = none := checkCtx_of_contextIs hctx
  obtain ⟨-, -, -, -, rfl⟩ := hctx
  exact Option.or_eq_none_iff.2 ⟨hslot, checkBufs_of_three h0 h1 h2 h01 h02 h12⟩

/-! ### What the commands store -/

/-- RFFT_DIR whose checks pass stores the one-sided spectrum of its samples and changes nothing else. -/
theorem runsTo_rfftDir {s : State} {c n : Nat} (he : s.engine = .idle) (hcheck : checkRfftDir c p s.locked s = none)
    (hsize : (s.slot c).size = n) :
    let x := realSpectrum n (bufferOf s p 0 n (s.draws + 1))
    RunsTo (.rfftDir c p) s { completedState (encode (.rfftDir c p)) s with
      dmem := stored s 2 (x.map Cpx.im) (stored s 1 (x.map Cpx.re) s.dmem)
      draws := s.draws + 1 + elemBytes p * n } := by
  subst hsize
  exact runsTo_of_check (i := .rfftDir c p) he hcheck

/-- Settles O18: its checks pass, and its effect is the one-sided spectrum. -/
theorem rfftDirWritesTheOneSidedSpectrum : Obligations.RfftDirWritesTheOneSidedSpectrum := by
  intro c p n s he hctx h0 h1 h2 h01 h02 h12 x
  have hcheck : checkRfftDir c p s.locked s = none := checkRfftDir_of_buffers hctx h0 h1 h2 h01 h02 h12
  obtain ⟨-, -, -, -, hsize⟩ := hctx
  exact runsTo_rfftDir he hcheck hsize

/-- RFFT_DIRC whose checks pass stores the combined half-size transforms and changes nothing else. -/
theorem runsTo_rfftDirc {s : State} {c n : Nat} (he : s.engine = .idle) (hcheck : checkRfftDirc c p s.locked s = none)
    (hsize : (s.slot c).size = n) :
    let y := splitTransform n
      (List.zipWith Cpx.mk (bufferOf s p 0 n (s.draws + 1)) (bufferOf s p 1 n (s.draws + 1 + elemBytes p * n)))
    RunsTo (.rfftDirc c p) s { completedState (encode (.rfftDirc c p)) s with
      dmem := stored s 3 (y.map Cpx.im) (stored s 2 (y.map Cpx.re) s.dmem)
      draws := s.draws + 1 + elemBytes p * n + elemBytes p * n } := by
  subst hsize
  exact runsTo_of_check (i := .rfftDirc c p) he hcheck

/-- Settles O19: its checks pass, and its effect is the split transform. -/
theorem rfftDircCombinesTheHalfTransforms : Obligations.RfftDircCombinesTheHalfTransforms := by
  intro c p n s he hctx h0 h1 h2 h3 h01 h02 h03 h12 h13 h23 z y
  have hcheck : checkRfftDirc c p s.locked s = none :=
    checkRfftDirc_of_buffers hctx h0 h1 h2 h3 h01 h02 h03 h12 h13 h23
  obtain ⟨-, -, -, -, hsize⟩ := hctx
  exact runsTo_rfftDirc he hcheck hsize

/-- A real signal made from the one-sided spectrum in B0 and B1, to B2: the effect of the two real inverses but for `f`. -/
def fromSpectrum (c : Nat) (p : Prec) (f : Nat → List (Cpx p) → List (Fp p)) (r : LockedRegs) (s : State) : State :=
  let n := (s.slot c).size
  let x := readCpx p r 0 1 (n / 2 + 1) s
  writeBuf r 2 (f n x.1) x.2

theorem effectRfftInv_eq_fromSpectrum (c : Nat) (p : Prec) : effectRfftInv c p = fromSpectrum c p realSignal := rfl

theorem effectRfftInvn_eq_fromSpectrum (c : Nat) (p : Prec) :
    effectRfftInvn c p = fromSpectrum c p fun n x => scale (realSignal n x) n := rfl

/-- A command with such an effect, and whose checks pass, stores the signal and changes nothing else. -/
theorem runsTo_fromSpectrum {i : Instr} {s : State} {c n : Nat} {f : Nat → List (Cpx p) → List (Fp p)}
    (he : s.engine = .idle) (hcheck : checkOf i s.locked s = none) (heffect : effectOf i = fromSpectrum c p f)
    (hsize : (s.slot c).size = n) :
    let m := n / 2 + 1
    let x := List.zipWith Cpx.mk (bufferOf s p 0 m (s.draws + 1)) (bufferOf s p 1 m (s.draws + 1 + elemBytes p * m))
    RunsTo i s { completedState (encode i) s with
      dmem := stored s 2 (f n x) s.dmem
      draws := s.draws + 1 + elemBytes p * m + elemBytes p * m } := by
  subst hsize
  have hrun := runsTo_of_check he hcheck
  rw [heffect] at hrun
  exact hrun

/-- Settles O20: the two commands share their checks, and differ in the division by N. -/
theorem realInverseCommandsWriteTheSignal : Obligations.RealInverseCommandsWriteTheSignal := by
  intro c p n s he hctx h0 h1 h2 h01 h02 h12 m x out after
  have hcheck : checkRealInverse c p s.locked s = none := checkRealInverse_of_buffers hctx h0 h1 h2 h01 h02 h12
  obtain ⟨-, -, -, -, hsize⟩ := hctx
  exact ⟨runsTo_fromSpectrum (i := .rfftInv c p) he hcheck (effectRfftInv_eq_fromSpectrum c p) hsize,
    runsTo_fromSpectrum (i := .rfftInvn c p) he hcheck (effectRfftInvn_eq_fromSpectrum c p) hsize⟩

/-! ### The half-size decomposition

Bit reversal puts the even elements in the first half of the list and the odd ones in the second. Every stage but the last
works within the halves, where it is the same stage of the half-size cascade; the last stage is the combining loop of R201. -/

theorem cat0_append_left {e o : List (Cpx p)} {i : Nat} (h : i < e.length) : cat0 (e ++ o) i = cat0 e i :=
  List.getD_append e o _ i h

theorem cat0_append_right (e o : List (Cpx p)) (i : Nat) : cat0 (e ++ o) (e.length + i) = cat0 o i := by
  rw [cat0, List.getD_append_right _ _ _ _ (Nat.le_add_right ..), Nat.add_sub_cancel_left, cat0]

/-- A list of `2·2^b` outputs is the outputs of its first half and those of its second. -/
theorem map_range_two_pow_succ {α : Type} (f : Nat → α) (b : Nat) :
    (List.range (2 ^ (b + 1))).map f = (List.range (2 ^ b)).map f ++ (List.range (2 ^ b)).map fun i => f (2 ^ b + i) := by
  rw [pow_succ, Nat.mul_two, List.range_add, List.map_append, List.map_map]
  rfl

/-- R130, R201: the bit reversal of `N` elements is that of the even ones and then that of the odd ones. -/
theorem bitrevCpx_two_pow_succ (b : Nat) (z : List (Cpx p)) :
    bitrevCpx z (2 ^ (b + 1)) = bitrevCpx (evens z (2 ^ b)) (2 ^ b) ++ bitrevCpx (odds z (2 ^ b)) (2 ^ b) := by
  simp only [bitrevCpx, Nat.log2_two_pow]
  rw [map_range_two_pow_succ]
  congr 1 <;> refine List.map_congr_left fun i hi => ?_
  · have hrev := bitrev_high (x := 0) two_pos (List.mem_range.1 hi)
    simp only [Nat.zero_mul, Nat.zero_add, Nat.add_zero] at hrev
    rw [hrev, evens, cat0_map_range _ (bitrev_lt b i)]
  · have hrev := bitrev_high (x := 1) one_lt_two (List.mem_range.1 hi)
    rw [Nat.one_mul] at hrev
    rw [hrev, odds, cat0_map_range _ (bitrev_lt b i)]

/-- Equal fractions of the circle have equal twiddles (R123 (c), R134). -/
theorem twiddle_congr (dir : Dir) {k n k' n' : Nat} (hn : 0 < n) (hn' : 0 < n') (h : k * n' = k' * n) :
    twiddle dir p k n = twiddle dir p k' n' := by
  cases dir <;> simp only [twiddle, trig_congr p hn hn' h]

/-- Output `i` of stage `s` (R135). -/
def stageOutput (dir : Dir) (n s : Nat) (z : List (Cpx p)) (i : Nat) : Cpx p :=
  if i % 2 ^ s < 2 ^ (s - 1) then
    (bfly (cat0 z i) (cat0 z (i + 2 ^ (s - 1))) (twiddle dir p (i % 2 ^ s * (n / 2 ^ s)) n)).1
  else
    (bfly (cat0 z (i - 2 ^ (s - 1))) (cat0 z i) (twiddle dir p ((i % 2 ^ s - 2 ^ (s - 1)) * (n / 2 ^ s)) n)).2

theorem cascadeStage_eq_map_stageOutput (dir : Dir) (n s : Nat) (z : List (Cpx p)) :
    cascadeStage dir n s z = (List.range n).map (stageOutput dir n s z) := rfl

/-- The partner of a position in the first half of its group lies within the list. -/
theorem add_half_lt {c h i : Nat} (hi : i < c * (2 * h)) (hlow : i % (2 * h) < h) : i + h < c * (2 * h) := by
  have hgroup : (pairOf h i).1 < c := Nat.div_lt_of_lt_mul (by rwa [Nat.mul_comm])
  have hhigh : pairHigh h (pairOf h i) = i + h := congrArg (· + h) (pairLow_pairOf hlow)
  exact hhigh ▸ pairHigh_lt hgroup (Nat.mod_lt _ (by omega))

/-- Stage `t + 1 ≤ b` on a part `w` of `2^b` elements of a list of twice as many, a whole number of groups from its start, is
the stage of size `2^b` on the part. -/
theorem stageOutput_part (dir : Dir) {b t d : Nat} (ht : t < b) (hd : 2 ^ (t + 1) ∣ d) {z w : List (Cpx p)}
    (hz : ∀ i < 2 ^ b, cat0 z (d + i) = cat0 w i) {i : Nat} (hi : i < 2 ^ b) :
    stageOutput dir (2 ^ (b + 1)) (t + 1) z (d + i) = stageOutput dir (2 ^ b) (t + 1) w i := by
  obtain ⟨q, rfl⟩ := hd
  have hstride : 2 ^ (b + 1) / 2 ^ (t + 1) = 2 ^ b / 2 ^ (t + 1) * 2 := by
    rw [pow_succ, ← Nat.div_mul_right_comm (pow_dvd_pow 2 ht)]
  have htw (j : Nat) : twiddle dir p (j * (2 ^ (b + 1) / 2 ^ (t + 1))) (2 ^ (b + 1)) =
      twiddle dir p (j * (2 ^ b / 2 ^ (t + 1))) (2 ^ b) := by
    refine twiddle_congr dir (Nat.two_pow_pos _) (Nat.two_pow_pos _) ?_
    rw [hstride, pow_succ 2 b]
    ring
  rw [stageOutput, stageOutput, Nat.mul_add_mod, Nat.add_sub_cancel, htw, htw, hz i hi]
  split
  · next hlow =>
    have hpartner : i + 2 ^ t < 2 ^ b := by
      rw [← groups_mul_group ht] at hi ⊢
      exact add_half_lt hi (pow_succ' 2 t ▸ hlow)
    rw [Nat.add_assoc, hz _ hpartner]
  · next hhigh =>
    have hle : 2 ^ t ≤ i := (Nat.not_lt.1 hhigh).trans (Nat.mod_le ..)
    rw [Nat.add_sub_assoc hle, hz _ (by omega)]

/-- A stage but the last works within the halves of its list. -/
theorem cascadeStage_append (dir : Dir) {b t : Nat} (ht : t < b) {e : List (Cpx p)} (he : e.length = 2 ^ b)
    (o : List (Cpx p)) :
    cascadeStage dir (2 ^ (b + 1)) (t + 1) (e ++ o) =
      cascadeStage dir (2 ^ b) (t + 1) e ++ cascadeStage dir (2 ^ b) (t + 1) o := by
  simp only [cascadeStage_eq_map_stageOutput]
  rw [map_range_two_pow_succ]
  congr 1 <;> refine List.map_congr_left fun i hi => ?_
  · have hpart := stageOutput_part dir ht (Nat.dvd_zero _) (z := e ++ o) (w := e)
      (fun i hi => by rw [Nat.zero_add, cat0_append_left (he ▸ hi)]) (List.mem_range.1 hi)
    rwa [Nat.zero_add] at hpart
  · exact stageOutput_part dir ht (pow_dvd_pow 2 ht) (fun i _ => he ▸ cat0_append_right e o i) (List.mem_range.1 hi)

theorem foldl_cascadeStage_append (dir : Dir) {b : Nat} {ts : List Nat} (hts : ∀ t ∈ ts, t < b) {e : List (Cpx p)}
    (he : e.length = 2 ^ b) (o : List (Cpx p)) :
    ts.foldl (fun z t => cascadeStage dir (2 ^ (b + 1)) (t + 1) z) (e ++ o) =
      ts.foldl (fun z t => cascadeStage dir (2 ^ b) (t + 1) z) e ++
        ts.foldl (fun z t => cascadeStage dir (2 ^ b) (t + 1) z) o := by
  induction ts generalizing e o with
  | nil => rfl
  | cons t ts ih =>
    obtain ⟨ht, hts⟩ := List.forall_mem_cons.1 hts
    rw [List.foldl_cons, cascadeStage_append dir ht he]
    exact ih hts (length_cascadeStage ..) _

/-- The last stage of the forward cascade is the combining loop of R201. -/
theorem cascadeStage_last {b : Nat} {e : List (Cpx p)} (he : e.length = 2 ^ b) (o : List (Cpx p)) :
    cascadeStage .fwd (2 ^ (b + 1)) (b + 1) (e ++ o) = combineHalves (2 ^ (b + 1)) e o := by
  have hhalf : 2 ^ (b + 1) / 2 = 2 ^ b := by rw [pow_succ, Nat.mul_div_cancel _ two_pos]
  rw [cascadeStage_eq_map_stageOutput]
  simp only [combineHalves, hhalf]
  refine List.map_congr_left fun i hi => ?_
  rw [stageOutput, Nat.mod_eq_of_lt (List.mem_range.1 hi), Nat.add_sub_cancel, Nat.div_self (Nat.two_pow_pos _), Nat.mul_one,
    Nat.mul_one]
  split
  · next hlow =>
    rw [cat0_append_left (he ▸ hlow), Nat.add_comm i, ← he, cat0_append_right]
    rfl
  · next hhigh =>
    obtain ⟨k, rfl⟩ := Nat.exists_eq_add_of_le (Nat.not_lt.1 hhigh)
    have hk : k < 2 ^ b := by
      have := List.mem_range.1 hi
      rw [pow_succ] at this
      omega
    rw [Nat.add_sub_cancel_left, cat0_append_left (he ▸ hk), ← he, cat0_append_right]
    rfl

/-- The cascade of a power of two is bit reversal and as many stages as its exponent (R135). -/
theorem cascade_two_pow (dir : Dir) (b : Nat) (z : List (Cpx p)) :
    cascade dir (2 ^ b) z = (List.range b).foldl (fun z t => cascadeStage dir (2 ^ b) (t + 1) z) (bitrevCpx z (2 ^ b)) := by
  rw [cascade, Nat.log2_two_pow]

/-- Settles O53: the stages but the last are the two half-size cascades side by side. -/
theorem splitTransformIsTheCascade : Obligations.SplitTransformIsTheCascade := by
  intro p b z _
  rw [cascade_two_pow .fwd (b + 1), foldl_range_succ, bitrevCpx_two_pow_succ,
    foldl_cascadeStage_append .fwd (fun _ => List.mem_range.1) (length_bitrevCpx ..), ← cascade_two_pow, ← cascade_two_pow,
    cascadeStage_last (length_cascade ..)]

end Sys2Proof.Machine
end

section
/-! PROOFS. The Goertzel and Hartley commands: one that passes its checks writes the result registers, or transforms its array in
place by the path its size selects. -/

namespace Sys2Proof.Machine

variable {p : Prec}

/-! ### Checks that pass -/

/-- One buffer of the right length, aligned and within DMEM passes check_bufs (R242). -/
theorem checkBufs_of_one {s : State} {k : Fin 4} {n : Nat} (h : BufferIs s p k n) :
    checkBufs s.locked p s.params.dmemBytes [(k, n)] = none :=
  checkBufs_of_buffers (List.forall_mem_singleton.2 h) (List.pairwise_singleton _ _)

/-- The checks of GZ_DIR: a bin below the size passes BIN (R220). -/
theorem checkGzDir_of_buffer {s : State} {c n : Nat} (hctx : ContextIs s c .gz p n) (hbin : s.locked.arg0.toNat < n)
    (h0 : BufferIs s p 0 n) : checkGzDir c p s.locked s = none := by
  have hslot : checkCtx c .gz p s = none := checkCtx_of_contextIs hctx
  obtain ⟨-, -, -, -, rfl⟩ := hctx
  refine Option.or_eq_none_iff.2 ⟨hslot, ?_⟩
  rw [if_neg (Nat.not_le.2 hbin)]
  exact checkBufs_of_one h0

/-- The checks DHT_DIR and DHT_INVN share (R224, R225). -/
theorem checkHartley_of_buffer {s : State} {c n : Nat} (hctx : ContextIs s c .dht p n) (h0 : BufferIs s p 0 n) :
    checkHartley c p s.locked s = none := by
  have hslot : checkCtx c .dht p s = none := checkCtx_of_contextIs hctx
  obtain ⟨-, -, -, -, rfl⟩ := hctx
  exact Option.or_eq_none_iff.2 ⟨hslot, checkBufs_of_one h0⟩

/-! ### GZ_DIR -/

/-- GZ_DIR whose checks pass writes its bin to the result registers and changes nothing else. -/
theorem runsTo_gzDir {s : State} {c n : Nat} (he : s.engine = .idle) (hcheck : checkGzDir c p s.locked s = none)
    (hsize : (s.slot c).size = n) :
    RunsTo (.gzDir c p) s { completedState (encode (.gzDir c p)) s with
      res := resultRegs p (gsos n (bufferOf s p 0 n (s.draws + 1)) s.locked.arg0.toNat)
      draws := s.draws + 1 + elemBytes p * n } := by
  subst hsize
  exact runsTo_of_check (i := .gzDir c p) he hcheck

theorem extractLsb'_eq_ofNat_div {w : Nat} (x : BitVec w) (i n : Nat) :
    x.extractLsb' i n = BitVec.ofNat n (x.toNat / 2 ^ i) := by
  rw [BitVec.extractLsb', Nat.shiftRight_eq_div_pow]

/-- For F64 each part fills two registers, its low word and its high word (R221). -/
theorem resultRegs_f64 (y : Cpx .f64) :
    resultRegs .f64 y = { reLo := y.re.extractLsb' 0 32, reHi := y.re.extractLsb' 32 32,
                          imLo := y.im.extractLsb' 0 32, imHi := y.im.extractLsb' 32 32 } := by
  simp only [resultRegs, extractLsb'_eq_ofNat_div, Nat.pow_zero, Nat.div_one]

/-- Settles O21: in both precisions its checks pass, and its effect is the bin in the result registers. -/
theorem gzDirWritesTheResultRegisters : Obligations.GzDirWritesTheResultRegisters := by
  intro c n s he hbin
  refine ⟨fun hctx h0 => ?_, fun hctx h0 => ?_⟩
  · have hcheck : checkGzDir c .f32 s.locked s = none := checkGzDir_of_buffer hctx hbin h0
    obtain ⟨-, -, -, -, hsize⟩ := hctx
    exact runsTo_gzDir he hcheck hsize
  · have hcheck : checkGzDir c .f64 s.locked s = none := checkGzDir_of_buffer hctx hbin h0
    obtain ⟨-, -, -, -, hsize⟩ := hctx
    intro y
    rw [← resultRegs_f64]
    exact runsTo_gzDir he hcheck hsize

/-! ### The Hartley commands -/

/-- A power of two takes the butterfly (R226). -/
theorem hartley_of_two_pow {n : Nat} (h : ∃ b, n = 2 ^ b) (a : List (Fp p)) : hartley n a = hcascade n a :=
  if_pos ((isPow2_iff n).2 h)

/-- Any other size takes the direct evaluator (R226). -/
theorem hartley_of_not_two_pow {n : Nat} (h : ¬ ∃ b, n = 2 ^ b) (a : List (Fp p)) : hartley n a = hdirect n a :=
  if_neg (mt (isPow2_iff n).1 h)

/-- The two Hartley commands, when their checks pass, store the transform of their array, DHT_INVN divided by N, and change
nothing else. -/
theorem runsTo_hartley {s : State} {c n : Nat} (he : s.engine = .idle) (hcheck : checkHartley c p s.locked s = none)
    (hsize : (s.slot c).size = n) :
    let y := hartley n (bufferOf s p 0 n (s.draws + 1))
    let after := fun (i : Instr) (y : List (Fp p)) =>
      { completedState (encode i) s with
        dmem := stored s 0 y s.dmem
        draws := s.draws + 1 + elemBytes p * n }
    RunsTo (.dhtDir c p) s (after (.dhtDir c p) y) ∧ RunsTo (.dhtInvn c p) s (after (.dhtInvn c p) (scale y n)) := by
  subst hsize
  exact ⟨runsTo_of_check (i := .dhtDir c p) he hcheck, runsTo_of_check (i := .dhtInvn c p) he hcheck⟩

/-- Settles O22: the two commands share their checks and their transform, and the size selects its path. -/
theorem hartleyCommandsTransformInPlace : Obligations.HartleyCommandsTransformInPlace := by
  intro c p n s he hctx h0 a after
  have hcheck : checkHartley c p s.locked s = none := checkHartley_of_buffer hctx h0
  obtain ⟨-, -, -, -, hsize⟩ := hctx
  have hrun : RunsTo (.dhtDir c p) s (after (.dhtDir c p) (hartley n a)) ∧
      RunsTo (.dhtInvn c p) s (after (.dhtInvn c p) (scale (hartley n a) n)) := runsTo_hartley he hcheck hsize
  refine ⟨fun hpow => ?_, fun hpow => ?_⟩
  · rwa [hartley_of_two_pow hpow] at hrun
  · rwa [hartley_of_not_two_pow hpow] at hrun

end Sys2Proof.Machine
end

section
/-! PROOFS. What a step runs: it is exec of the decoded command, it never stops from a good state, a running command ends, and a
command leaves every register that is not its own. -/

namespace Sys2Proof.Machine

/-! ### A step is exec of the decoded command -/

/-- The write of a legal word to CMD at an IDLE engine (R243). -/
theorem writeCmd_legal {w : Word} {s : State} {i : Instr} (he : s.engine = .idle) (h : decodeWord w = .ok i) :
    writeCmd w s = exec i s := by
  simp [writeCmd, he, h]

/-- The completion runs the command that the captured word spells (R244). -/
theorem completionStep_eq_exec {r : LockedRegs} {i : Instr} (h : decodeWord r.cmd = .ok i) (s : State) :
    completionStep r s = exec i s := by
  simp [completionStep, h]

/-- While BUSY the engine's step is the completion (R253). -/
theorem step_of_engineIsNext {s : State} {r : LockedRegs} {n : Nat} (he : s.engine = .busy r n)
    (hn : engineIsNext s n = true) : step s = completionStep r s := by
  simp [step, blockStep, he, hn]

/-- A table row's bits decode as the word they make (R62, R98). -/
theorem decodeWord_of_decodeTableWord {nbits w : Nat} {i : Instr} (h : decodeTableWord nbits w = some i) :
    decodeWord (BitVec.ofNat 32 (w % 2 ^ nbits)) = .ok i := by
  have hbytes := decode_bytesOfWord (BitVec.ofNat 32 (w % 2 ^ nbits)) []
  rw [List.append_nil] at hbytes
  rw [decodeTableWord, hbytes] at h
  cases hd : decodeWord (BitVec.ofNat 32 (w % 2 ^ nbits)) with
  | ok j =>
    rw [hd] at h
    exact congrArg Except.ok (Option.some.inj h)
  | error e =>
    rw [hd] at h
    cases h

/-- The step of a presented word is its CMD write at an IDLE engine. -/
theorem step_withFetchWord (s : State) (nbits w : Nat) :
    step (s.withFetchWord nbits w) =
      writeCmd (BitVec.ofNat 32 (w % 2 ^ nbits)) { s with engine := .idle, answer := some .written } := by
  have hword : ((BitVec.ofNat 32 (w % 2 ^ nbits)).setWidth 64).setWidth 32 = BitVec.ofNat 32 (w % 2 ^ nbits) :=
    BitVec.setWidth_setWidth_of_le _ (by decide) |>.trans (BitVec.setWidth_eq _)
  rw [step_writeCmd (s := s.withFetchWord nbits w) rfl rfl, hword]
  rfl

/-- Settles O11: the CMD write and the completion each run the command their word decodes to, and `withFetchWord` presents the
former. -/
theorem stepRunsTheDecodedCommand : Obligations.StepRunsTheDecodedCommand := by
  refine ⟨fun s v rest i he hh hd => ?_, fun s r n i he hn hd => ?_, fun s nbits w i _ hd => ?_⟩
  · rw [step_writeCmd he hh, writeCmd_legal (s := afterWrite rest s) he hd]
    rfl
  · rw [step_of_engineIsNext he hn, completionStep_eq_exec hd]
  · rw [step_withFetchWord, writeCmd_legal rfl (decodeWord_of_decodeTableWord hd)]

/-! ### A good state never stops -/

/-- Under the invariant the running command completes: its word is its own, and its checks pass (R244). -/
theorem State.Inv.completes {s : State} {r : LockedRegs} {n : Nat} (h : s.Inv) (he : s.engine = .busy r n) :
    ∃ i, completionStep r s = .next (finishCommand (effectOf i r s)) := by
  obtain ⟨-, ⟨i, hd, hcheck⟩, -⟩ := (engineInv_busy he).1 h.engine
  refine ⟨i, ?_⟩
  rw [completionStep_eq_exec hd, exec_busy he, if_pos ⟨(encode_of_decodeWord hd).symm, hcheck⟩]

/-- Settles O10, by the kinds of step: a host step always answers, and the invariant lets a running command complete. -/
theorem goodStatesAlwaysStep : Obligations.GoodStatesAlwaysStep := by
  intro s h
  rcases step_cases s with ⟨-, -, hs⟩ | ⟨ev, rest, -, -, hs⟩ | ⟨ev, rest, r, n, -, -, -, hs⟩ | ⟨r, n, he, -, hs⟩
  · exact ⟨s, hs⟩
  · obtain ⟨t, ht, -⟩ := hostStep_cases ev rest s
    exact ⟨t, hs.trans ht⟩
  · obtain ⟨t, ht, -⟩ := hostStep_cases ev rest (s.setEngine (.busy r (n - 1)))
    exact ⟨t, hs.trans ht⟩
  · obtain ⟨i, hi⟩ := h.completes he
    exact ⟨_, hs.trans hi⟩

/-! ### A running command ends -/

/-- A step of a BUSY engine ends the command, or lets one of the host steps before its completion pass (R245, R286). -/
theorem step_of_busy {s t : State} {r : LockedRegs} {n : Nat} (he : s.engine = .busy r n) (h : step s = .next t) :
    t.engine = .idle ∨ ∃ m, n = m + 1 ∧ t.engine = .busy r m := by
  cases hn : engineIsNext s n with
  | true =>
    obtain ⟨hidle, -⟩ := completionStep_frame he ((step_of_engineIsNext he hn).symm.trans h)
    exact .inl hidle
  | false =>
    obtain ⟨ev, rest, hh, -, hhost⟩ := hostStep_of_step_busy he hn h
    by_cases hev : ev = .reset
    · subst hev
      exact .inl (Host.Outcome.next.inj hhost ▸ rfl)
    · obtain ⟨-, hengine⟩ := hostStep_busy_frame hhost rfl hev
      have hpos : n ≠ 0 := fun h0 => by simp [engineIsNext, hh, h0] at hn
      exact .inr ⟨n - 1, by omega, hengine⟩

/-- A run takes its first step, then the rest. -/
theorem run_succ_of_step {M : Host.Core} {s t : M.State} (h : M.step s = .next t) (k : Nat) :
    M.run (k + 1) s = M.run k t := by
  rw [Host.Core.run, h]

/-- Settles O12, by induction on the host steps that may still pass: the first step ends the command or leaves fewer. -/
theorem everyAcceptedCommandCompletes : Obligations.EveryAcceptedCommandCompletes := by
  intro s r n h he
  induction n using Nat.strongRecOn generalizing s with
  | ind n ih =>
    obtain ⟨t, hstep⟩ := goodStatesAlwaysStep s h
    have hrun : ∀ k, core.run (k + 1) s = core.run k t := run_succ_of_step (M := core) hstep
    obtain hidle | ⟨m, rfl, hbusy⟩ := step_of_busy he hstep
    · exact ⟨1, t, by omega, hrun 0, hidle⟩
    · obtain ⟨k, u, hk, hu, hidle⟩ := ih m (by omega) t (everyStepKeepsTheInvariant s t h hstep) hbusy
      exact ⟨k + 1, u, by omega, (hrun k).trans hu, hidle⟩

/-! ### The frame of a command -/

/-- Of the locked registers, issuing a command writes CMD alone (R243). -/
theorem issueCommand_locked (w : Word) (e : Option CmdError) (s : State) :
    (issueCommand w e s).locked = { s.locked with cmd := w } := by
  cases e <;> rfl

/-- A command's effect leaves every slot but its own (R31, R164). -/
theorem effectOf_slot {i : Instr} {c : Nat} (h : c ≠ i.ctx) (r : LockedRegs) (s : State) :
    (effectOf i r s).slot c = s.slot c := by
  cases hi : isConfig i with
  | true =>
    rw [State.slot, effectOf_ctxs_of_isConfig hi, List.getD_eq_getElem?_getD, List.getElem?_set_ne h.symm]
    rfl
  | false => rw [State.slot, effectOf_ctxs hi, State.slot]

/-- Settles O24: the frame of the issue at an IDLE engine, that of the effect at a BUSY one. -/
theorem commandsLeaveEveryOtherRegister : Obligations.CommandsLeaveEveryOtherRegister := by
  intro i s t h
  rcases exec_next_cases h with ⟨he, rfl⟩ | ⟨r, n, he, rfl⟩
  · obtain ⟨hp, hie, hres, hctxs, hmem, hhost, hans⟩ := issueCommand_frame (encode i) (checkOf i s.locked s) s
    rw [issueCommand_locked]
    exact ⟨hp, hie, issueCommand_ovr .., hhost, hans, rfl, fun _ => rfl, fun _ => ⟨hctxs, hres, hmem, rfl⟩,
      fun hne => absurd he hne⟩
  · obtain ⟨hp, hie, hs, hl, -, hhost, hans⟩ := effectOf_frame i r s
    have hlocked : (finishCommand (effectOf i r s)).locked = s.locked := hl
    have hstatus : (finishCommand (effectOf i r s)).status = { s.status with done := true } := congrArg Status.finish hs
    rw [hlocked, hstatus]
    exact ⟨hp, hie, rfl, hhost, hans, rfl, fun _ => rfl, fun hidle => absurd (he.symm.trans hidle) nofun,
      fun _ => ⟨rfl, rfl, rfl, fun hi => effectOf_ctxs hi r s, fun _ hc => effectOf_slot hc r s, fun hi => effectOf_res hi r s⟩⟩

end Sys2Proof.Machine
end

section
/-! PROOFS. The reset input: what its state reads as through the register file (R280), and that it takes the engine, whatever it is
doing, to that state (R281). -/

namespace Sys2Proof.Machine

/-! ### The registers after reset -/

/-- Every descriptor is 0 after reset (R280). -/
theorem LockedRegs.desc_reset (k : Fin 4) : LockedRegs.reset.desc k = ⟨0, 0⟩ :=
  match k with
  | 0 | 1 | 2 | 3 => rfl

/-- Every slot is empty after reset, those past the engine's last among them (R32). -/
theorem State.slot_resetWith (q : Params) (c : Nat) : (State.resetWith q).slot c = .empty := by
  rw [State.slot, List.getD_eq_getElem?_getD]
  exact List.getElem?_getD_replicate_default_eq Slot.empty q.nctx c

/-- The descriptor registers read 0 after reset (R29, R280). -/
theorem readReg_resetWith_desc (q : Params) (k : Fin 4) :
    readReg (State.resetWith q) (.bBase k) = 0 ∧ readReg (State.resetWith q) (.bLen k) = 0 :=
  have hdesc : (State.resetWith q).locked.desc k = ⟨0, 0⟩ := LockedRegs.desc_reset k
  ⟨congrArg Desc.base hdesc, congrArg Desc.len hdesc⟩

/-- The context registers read 0 after reset (R32). -/
theorem readReg_resetWith_ctx (q : Params) (c : Nat) :
    readReg (State.resetWith q) (.ctxCfg c) = 0 ∧ readReg (State.resetWith q) (.ctxN c) = 0 :=
  have hslot := State.slot_resetWith q c
  ⟨congrArg Slot.cfgWord hslot, congrArg Slot.n hslot⟩

/-- Settles O6: each register is a field of the reset state; the descriptors and the slots are read at any index. -/
theorem resetValuesOfEveryRegister : Obligations.ResetValuesOfEveryRegister := fun q =>
  ⟨rfl, rfl, rfl, rfl, rfl, rfl, rfl, rfl, readReg_resetWith_desc q, rfl, rfl, rfl, rfl, readReg_resetWith_ctx q, rfl, rfl,
    Memory.byteAt?_nil⟩

/-! ### The reset input -/

/-- Reset forgets the engine's state: whether a command was running, and how long it had left, leaves no trace (R281). -/
theorem resetBlock_setEngine (s : State) (e : Engine) : resetBlock (s.setEngine e) = resetBlock s := rfl

/-- Settles O7: a reset is never held, so in the host's turn it is the event taken, and it forgets the command. -/
theorem resetAbandonsTheRunningCommand : Obligations.ResetAbandonsTheRunningCommand := by
  intro s rest hturn hh
  calc step s = hostStep .reset rest (s.setEngine s.engine.pass) := step_of_hostTurn hturn hh rfl
    _ = .next (resetBlock (s.setHost rest)) := congrArg Host.Outcome.next (resetBlock_setEngine (s.setHost rest) s.engine.pass)

end Sys2Proof.Machine
end
